-- ==== Sys2Proof/Word.lean ====
section
/-! DEFINITION. The fixed-width items of the RVL CORE (spec/00_scope.md R7; spec/30_encoding.md R80, R85, R88, R90). -/

namespace Sys2Proof

/-- A nibble: continuation bit [3], payload [2:0] (R80). -/
abbrev Nibble := BitVec 4

/-- A byte item of enc_out and dec_in (R90). -/
abbrev Byte := BitVec 8

/-- A pixel item of enc_in and dec_out, PIX_W = 16 bits unsigned (R7, R90). -/
abbrev Pixel := BitVec 16

/-- An element count N, CNT_W = 32 bits unsigned (R7). -/
abbrev Count := BitVec 32

/-- A byte length L, LEN_W = 34 bits unsigned (R7). -/
abbrev Length := BitVec 34

end Sys2Proof
end

