-- ==== Sys2Proof/Config.lean ====
section
/-! DEFINITION. What the spec leaves open: free values with no body, and the one named parameter. -/

namespace Sys2Proof

/-- The default of the parameter CORE_INSTANCES (spec/00_scope.md R7; spec/92_eei_decisions.md D28). The
model of one instance does not read it; `Machine/Instances.lean` takes any number. -/
def Config.coreInstances : Nat := 1

/-- How many turns in a row an engine has when the agenda names no move, by the number of the row of turns. The spec
lets any enabled step come next (R13, R379), so nothing is known of this value (log 1). -/
opaque Config.freeTurns : Nat → Nat

/-- Whether the host withdraws the pixel that stands on offer at the n-th reset. R361 says that it should, and does not
say that it must, so nothing is known of this value (log 5). -/
opaque Config.freeWithdrawPixel : Nat → Bool

/-- The same for the byte on offer (R361, log 5). -/
opaque Config.freeWithdrawByte : Nat → Bool

/-- The payload VLE_EMIT gives when V_J is not below V_K, for V_SRC, V_K, V_J. R115 states no value there
(its bit index would be negative), so nothing is known of this value (log 10). -/
opaque Config.freePayload : BitVec 32 → BitVec 4 → BitVec 4 → BitVec 3

end Sys2Proof
end

