-- ==== Sys2Proof/Syntax.lean ====
section
/-! DEFINITION. The instruction syntax: one constructor for each row of spec/opcode_table.json. -/

namespace Sys2Proof

/-- The two engines, where an operation names one of them (R13, R210). -/
inductive Side where
  | enc
  | dec
deriving DecidableEq, Repr

/-- The three decode errors of spec/60_exceptions.md R330. NONE is the absence of one. -/
inductive ErrCode where
  | truncated
  | overrun
  | outOfRange
deriving DecidableEq, Repr

/-- The rows of spec/opcode_table.json. Each docstring names the row's mnemonic and rule. -/
inductive Instr where
  /-- ENC_START (R301): OP 00; LEN is carried and ignored (R92). -/
  | encStart (count : Count) (len : Length)
  /-- DEC_START (R302): OP 01. -/
  | decStart (count : Count) (len : Length)
  /-- CMD_RESERVED_10 (R303): OP 10. -/
  | cmdReserved10 (count : Count) (len : Length)
  /-- CMD_RESERVED_11 (R303): OP 11. -/
  | cmdReserved11 (count : Count) (len : Length)
  /-- NIB_TERM (R80): a nibble with C = 0 and payload P. -/
  | nibTerm (p : BitVec 3)
  /-- NIB_CONT (R80): a nibble with C = 1 and payload P. -/
  | nibCont (p : BitVec 3)
  /-- STREAM_BYTE (R85): HI in [7:4], LO in [3:0]. -/
  | streamByte (hi lo : Nibble)
  /-- PIXEL (R90): a pixel item V. -/
  | pixel (v : Pixel)
  /-- STATUS_SEL (R90, R320): a status register number SEL. -/
  | statusSel (sel : BitVec 4)
  /-- ENC_PIXEL_IN (R305): the host offers pixel V on enc_in. -/
  | encPixelIn (v : Pixel)
  /-- DEC_BYTE_IN (R306): the host offers byte B on dec_in. -/
  | decByteIn (b : Byte)
  /-- ENC_TAKE (R310): the host takes a byte from enc_out; the table's field B is what it receives. -/
  | encTake
  /-- DEC_TAKE (R311): the host takes a pixel from dec_out; the table's field V is what it receives. -/
  | decTake
  /-- STATUS_READ (R320). -/
  | statusRead (sel : BitVec 4)
  /-- STATUS_READ_UNUSED (R321): SEL 12 to 15. -/
  | statusReadUnused (sel : BitVec 4)
  /-- RESET (R361). -/
  | reset
  /-- VLE (R110). -/
  | vle (v : Nat)
  /-- Pack (R130). -/
  | pack (l : List Nibble)
  /-- Unpack (R150). -/
  | unpack (b : List Byte)
  /-- VLD (R170). -/
  | vld (l : List Nibble) (p : Nat)
  /-- ZZ (R190). -/
  | zz (d : Int)
  /-- UNZZ (R195). -/
  | unzz (c : Nat)
  /-- DELTA (R212). -/
  | delta (p prev : Pixel)
  /-- RECON (R213). -/
  | recon (prev : Pixel) (delta : Int)
  /-- RVL_Encode (R230). -/
  | rvlEncode (pixels : List Pixel)
  /-- RVL_Decode (R260). -/
  | rvlDecode (bytes : List Byte) (count : Count)
  /-- VLE_LOAD (R114). -/
  | vleLoad (v : BitVec 32)
  /-- VLE_EMIT (R115). -/
  | vleEmit
  /-- PK_WRITE (R131). -/
  | pkWrite (n : Nibble)
  /-- PK_FLUSH (R132). -/
  | pkFlush
  /-- PK_CLEAR (R133). -/
  | pkClear
  /-- UP_READ (R151). -/
  | upRead
  /-- UP_DISCARD (R152). -/
  | upDiscard
  /-- UP_CLEAR (R153). -/
  | upClear
  /-- VLD_START (R171). -/
  | vldStart
  /-- VLD_STEP (R171). -/
  | vldStep (n : Nibble)
  /-- PREV_UPDATE (R210): of E_PREV or D_PREV, to the value-phase pixel. -/
  | prevUpdate (side : Side) (v : Pixel)
  /-- IS_ZERO (R211). -/
  | isZero (p : Pixel)
  /-- OVERRUN_CHECK (R272). -/
  | overrunCheck
  /-- RANGE_CHECK (R275). -/
  | rangeCheck
  /-- ENC_ACCEPT_PIXEL (R240). -/
  | encAcceptPixel
  /-- ENC_ACCEPT_END (R241). -/
  | encAcceptEnd
  /-- ENC_EMIT_RUN (R242). -/
  | encEmitRun
  /-- ENC_EMIT_CODE (R243). -/
  | encEmitCode
  /-- ENC_EMIT_TAIL (R244). -/
  | encEmitTail
  /-- ENC_FLUSH (R246). -/
  | encFlush
  /-- DEC_RUN_GROUP (R270). -/
  | decRunGroup
  /-- DEC_EMIT_ZEROS (R273). -/
  | decEmitZeros
  /-- DEC_CODE_GROUP (R274). -/
  | decCodeGroup
  /-- DEC_EMIT_VALUE (R276). -/
  | decEmitValue
  /-- DEC_DRAIN (R278). -/
  | decDrain
  /-- DEC_ERROR_ENTRY (R331): raise DecodeError(code). -/
  | decErrorEntry (code : ErrCode)
deriving DecidableEq, Repr

end Sys2Proof
end

