-- ==== Sys2Proof/Decode.lean ====
section
/-! DEFINITION. Bit fields of nibbles, bytes and command words; the items of the channels; the decoder, total on any
item; the encoder. -/

namespace Sys2Proof

/-! ## Bit fields -/

/-- A nibble from its continuation bit and payload: C in bit 3, P in bits 2..0 (R80). -/
def mkNibble (c : Bool) (p : BitVec 3) : Nibble := BitVec.ofBool c ++ p

/-- The continuation bit n[3] (R80). -/
def contBit (n : Nibble) : Bool := n.getLsbD 3

/-- The payload n[2:0] (R80). -/
def payload (n : Nibble) : BitVec 3 := n.extractLsb' 0 3

/-- The byte of two nibbles, the earlier one in bits [7:4] (R61, R85). -/
def byteOf (hi lo : Nibble) : Byte := hi ++ lo

/-- The high nibble b[7:4] (R9). -/
def hiNibble (b : Byte) : Nibble := b.extractLsb' 4 4

/-- The low nibble b[3:0] (R9). -/
def loNibble (b : Byte) : Nibble := b.extractLsb' 0 4

/-! ## Items -/

/-- The table's formats that carry bits: what an item is on, and so how its bits are read (R60, R88, R90). -/
inductive Format where
  /-- A command word on channel cmd. -/
  | cmd68
  /-- A nibble of the stream DEC reads. -/
  | nibble4
  /-- A byte of the stream, transferred on dec_in. -/
  | byte8
  /-- A pixel, transferred on enc_in. -/
  | pixel16
  /-- A status register number on channel status. -/
  | sel4
  /-- The host's offer on channel enc_in. -/
  | encIn
  /-- The host's offer on channel dec_in. -/
  | decIn
  /-- The host's take on channel enc_out; it sends no bits. -/
  | encOut
  /-- The host's take on channel dec_out; it sends no bits. -/
  | decOut
  /-- A status read. -/
  | status
  /-- The reset event; it carries no bits. -/
  | resetEvent
deriving DecidableEq, Repr

/-- How many bits an item of each format has (R88, R90). -/
def formatWidth : Format → Nat
  | .cmd68 => 68
  | .nibble4 => 4
  | .byte8 => 8
  | .pixel16 => 16
  | .sel4 => 4
  | .encIn => 16
  | .decIn => 8
  | .encOut => 0
  | .decOut => 0
  | .status => 4
  | .resetEvent => 0

/-- One item: its format and its bits, bit 0 the least significant (R9). 72 bits hold the widest item, the 68-bit
command word, in whole bytes. -/
structure Item where
  format : Format
  bits : BitVec 72
deriving DecidableEq, Repr

/-- Why an item is no item of its channel. -/
inductive BadItem where
  /-- A bit above the format's width is 1: no such item exists (R68, log 15). -/
  | tooWide (f : Format)
deriving DecidableEq, Repr

/-! ## The decoder -/

/-- A command word: OP in [67:66], COUNT in [65:34], LEN in [33:0] (R88, R89). -/
def decodeCommand (w : BitVec 72) : Instr :=
  let op := w.extractLsb' 66 2
  let count := w.extractLsb' 34 32
  let len := w.extractLsb' 0 34
  if op = 0b00#2 then .encStart count len
  else if op = 0b01#2 then .decStart count len
  else if op = 0b10#2 then .cmdReserved10 count len
  else .cmdReserved11 count len

/-- A nibble, by its continuation bit (R80). -/
def decodeNibble (n : Nibble) : Instr :=
  if contBit n then .nibCont (payload n) else .nibTerm (payload n)

/-- A status read, by its register number (R320, R321). -/
def decodeStatus (sel : BitVec 4) : Instr :=
  if sel.toNat < 12 then .statusRead sel else .statusReadUnused sel

/-- The instruction of an item whose bits fit its format. -/
def decodeBits (f : Format) (b : BitVec 72) : Instr :=
  match f with
  | .cmd68 => decodeCommand b
  | .nibble4 => decodeNibble (b.extractLsb' 0 4)
  | .byte8 => .streamByte (hiNibble (b.extractLsb' 0 8)) (loNibble (b.extractLsb' 0 8))
  | .pixel16 => .pixel (b.extractLsb' 0 16)
  | .sel4 => .statusSel (b.extractLsb' 0 4)
  | .encIn => .encPixelIn (b.extractLsb' 0 16)
  | .decIn => .decByteIn (b.extractLsb' 0 8)
  | .encOut => .encTake
  | .decOut => .decTake
  | .status => decodeStatus (b.extractLsb' 0 4)
  | .resetEvent => .reset

/-- The decoder, total on any item: the instruction, or the reason by name. -/
def decode (it : Item) : Except BadItem Instr :=
  if it.bits.toNat < 2 ^ formatWidth it.format then .ok (decodeBits it.format it.bits)
  else .error (.tooWide it.format)

/-! ## The encoder -/

/-- The command word {OP, COUNT, LEN} (R88). -/
def encodeCommand (op : BitVec 2) (count : Count) (len : Length) : BitVec 72 :=
  (0#4 ++ op ++ count ++ len : BitVec (4 + 2 + 32 + 34))

/-- The item of an instruction that has one. The functions, the internal operations and the engine steps have no
encoding (R114 "internal operation; no encoding"; the table gives them no match). -/
def encode : Instr → Option Item
  | .encStart count len => some ⟨.cmd68, encodeCommand 0b00#2 count len⟩
  | .decStart count len => some ⟨.cmd68, encodeCommand 0b01#2 count len⟩
  | .cmdReserved10 count len => some ⟨.cmd68, encodeCommand 0b10#2 count len⟩
  | .cmdReserved11 count len => some ⟨.cmd68, encodeCommand 0b11#2 count len⟩
  | .nibTerm p => some ⟨.nibble4, (mkNibble false p).setWidth 72⟩
  | .nibCont p => some ⟨.nibble4, (mkNibble true p).setWidth 72⟩
  | .streamByte hi lo => some ⟨.byte8, (byteOf hi lo).setWidth 72⟩
  | .pixel v => some ⟨.pixel16, v.setWidth 72⟩
  | .statusSel sel => some ⟨.sel4, sel.setWidth 72⟩
  | .encPixelIn v => some ⟨.encIn, v.setWidth 72⟩
  | .decByteIn b => some ⟨.decIn, b.setWidth 72⟩
  | .encTake => some ⟨.encOut, 0⟩
  | .decTake => some ⟨.decOut, 0⟩
  | .statusRead sel => some ⟨.status, sel.setWidth 72⟩
  | .statusReadUnused sel => some ⟨.status, sel.setWidth 72⟩
  | .reset => some ⟨.resetEvent, 0⟩
  | .vle _ => none
  | .pack _ => none
  | .unpack _ => none
  | .vld _ _ => none
  | .zz _ => none
  | .unzz _ => none
  | .delta _ _ => none
  | .recon _ _ => none
  | .rvlEncode _ => none
  | .rvlDecode _ _ => none
  | .vleLoad _ => none
  | .vleEmit => none
  | .pkWrite _ => none
  | .pkFlush => none
  | .pkClear => none
  | .upRead => none
  | .upDiscard => none
  | .upClear => none
  | .vldStart => none
  | .vldStep _ => none
  | .prevUpdate _ _ => none
  | .isZero _ => none
  | .overrunCheck => none
  | .rangeCheck => none
  | .encAcceptPixel => none
  | .encAcceptEnd => none
  | .encEmitRun => none
  | .encEmitCode => none
  | .encEmitTail => none
  | .encFlush => none
  | .decRunGroup => none
  | .decEmitZeros => none
  | .decCodeGroup => none
  | .decEmitValue => none
  | .decDrain => none
  | .decErrorEntry _ => none

/-! ## A word of the opcode table -/

/-- The item a table word stands for. The table gives no channel with a word, so the format is read from the word's
size: a word below 16 of at most 8 bits is a nibble, any other of at most 8 bits a byte, of at most 16 bits a pixel,
and a longer one a command (log 14). -/
def tableItem (nbits w : Nat) : Item :=
  let bits := BitVec.ofNat 72 w
  if nbits ≤ 8 then (if w < 16 then ⟨.nibble4, bits⟩ else ⟨.byte8, bits⟩)
  else if nbits ≤ 16 then ⟨.pixel16, bits⟩
  else ⟨.cmd68, bits⟩

/-- The instruction the decoder reads from a word of the opcode table; none where it refuses. -/
def decodeTableWord (nbits w : Nat) : Option Instr :=
  if nbits = 0 ∨ 2 ^ 72 ≤ w then none
  else
    match decode (tableItem nbits w) with
    | .ok i => some i
    | .error _ => none

end Sys2Proof
end

