-- ==== Sys2Proof/Machine/State.lean ====
section
/-! DEFINITION. The state of the RVL CORE and its reset (spec/10_state.md; spec/70_reset_and_hazards.md R360), the
host's side of the channels, and the reasons a step can stop. -/

namespace Sys2Proof.Machine

open Sys2Proof

/-- E_STATE (R22). Code 7 is never held and has no constructor (I10, log 11). -/
inductive EncState where
  | idle
  | accept
  | emitRun
  | emitCode
  | emitTail
  | flush
  | done
deriving DecidableEq, Repr

/-- D_STATE (R22). -/
inductive DecState where
  | idle
  | runGroup
  | emitZeros
  | codeGroup
  | emitValue
  | drain
  | done
  | error
deriving DecidableEq, Repr

/-- CMD_ERR (R26, R334). Code 3 is never written and has no constructor (I11, log 11). -/
inductive CmdErr where
  | ok
  | reservedOp
  | busy
deriving DecidableEq, Repr

/-- The encoder engine's registers, spec/10_state.md R23. -/
structure Enc where
  /-- E_STATE -/
  state : EncState
  /-- E_COUNT -/
  count : Count
  /-- E_INDEX -/
  index : BitVec 32
  /-- E_BYTES -/
  bytes : Length
  /-- E_RUN -/
  run : BitVec 32
  /-- E_PIX -/
  pix : Pixel
  /-- E_PREV -/
  prev : Pixel
  /-- V_SRC -/
  vSrc : BitVec 32
  /-- V_K -/
  vK : BitVec 4
  /-- V_J -/
  vJ : BitVec 4
  /-- P_PEND -/
  pPend : Bool
  /-- P_HI -/
  pHi : Nibble
  /-- OB -/
  ob : Byte
  /-- OB_VALID -/
  obValid : Bool
deriving DecidableEq, Repr

/-- The decoder engine's registers, spec/10_state.md R25. -/
structure Dec where
  /-- D_STATE -/
  state : DecState
  /-- D_ERR; none is NONE -/
  err : Option ErrCode
  /-- D_COUNT -/
  count : Count
  /-- D_LEN -/
  len : Length
  /-- D_PRODUCED -/
  produced : BitVec 32
  /-- D_BYTES_IN -/
  bytesIn : Length
  /-- D_NIBBLES -/
  nibbles : BitVec 35
  /-- D_PREV -/
  prev : Pixel
  /-- D_ZREM -/
  zrem : BitVec 32
  /-- D_VAL -/
  val : Pixel
  /-- A_ACC -/
  acc : BitVec 32
  /-- A_OVF -/
  ovf : Bool
  /-- U_LOPEND -/
  loPend : Bool
  /-- U_LO -/
  lo : Nibble
  /-- PO -/
  po : Pixel
  /-- PO_VALID -/
  poValid : Bool
deriving DecidableEq, Repr

/-- The host's side of the channels (R13, R305, R306, R310, R311, R320): what it offers, what the engines have taken
from it and what it has received in the current job of each engine, and the value of its latest status read. No rule
of the core reads the records (log 7). -/
structure HostSide where
  /-- The pixel on offer on enc_in. -/
  encOffer : Option Pixel
  /-- The byte on offer on dec_in. -/
  decOffer : Option Byte
  /-- The pixels ENC has taken in its job, oldest first. -/
  encSent : List Pixel
  /-- The bytes the host has taken from enc_out in ENC's job, oldest first. -/
  encGot : List Byte
  /-- The bytes DEC has taken in its job, oldest first. -/
  decSent : List Byte
  /-- The pixels the host has taken from dec_out in DEC's job, oldest first. -/
  decGot : List Pixel
  /-- The value of the latest status read. -/
  status : BitVec 36
deriving DecidableEq, Repr

/-- What a function of the table, or an internal operation run on its own, returned (R14; log 8). -/
inductive Ret where
  | nothing
  /-- A nibble list: VLE, Unpack. -/
  | nibbles (l : List Nibble)
  /-- A byte list: Pack, RVL_Encode. -/
  | bytes (l : List Byte)
  /-- Ok of RVL_Decode. -/
  | pixels (l : List Pixel)
  /-- Ok(value, p') of VLD. -/
  | group (value pos : Nat)
  /-- Err(code) of VLD, RECON, RVL_Decode. -/
  | failed (e : ErrCode)
  /-- The code of ZZ. -/
  | code (c : Nat)
  /-- The signed delta of UNZZ and DELTA. -/
  | int (d : Int)
  /-- Ok(v) of RECON. -/
  | recon (v : Pixel)
  /-- (n, last) of VLE_EMIT. -/
  | emitted (n : Nibble) (last : Bool)
  /-- A nibble of UP_READ. -/
  | nibble (n : Nibble)
  /-- END of UP_READ. -/
  | endOfBuffer
  /-- done of VLD_STEP. -/
  | groupDone (d : Bool)
  /-- The truth value of IS_ZERO. -/
  | truth (b : Bool)
deriving DecidableEq, Repr

/-- One move of the agenda: who steps next (R13; log 1). The host's moves are the items, one for each liberty of R324 and
no other. -/
inductive Move where
  /-- An item on a channel, or the reset event. -/
  | item (it : Item)
  /-- A turn of the encoder engine. -/
  | enc
  /-- A turn of the decoder engine. -/
  | dec
deriving DecidableEq, Repr

/-- The whole machine: one RVL CORE, its host, and the order of the steps to come. -/
structure State where
  /-- The encoder engine. -/
  enc : Enc
  /-- The decoder engine. -/
  dec : Dec
  /-- CMD_ERR, the command unit's register (R26). -/
  cmdErr : CmdErr
  /-- The host's side of the channels. -/
  host : HostSide
  /-- The model's own field: the value last returned by a row run on its own (log 8). -/
  ret : Ret
  /-- The model's own field: the moves to come, the next one first (log 1). -/
  agenda : List Move
  /-- The model's own field: the number of the row of turns that `Config.freeTurns` is applied to when the agenda is
  empty (log 1). -/
  turn : Nat
  /-- The model's own field: the turns taken of that row (log 1). -/
  turnsTaken : Nat
  /-- The model's own field: how many resets there were, the counter `Config.freeWithdrawPixel` and
  `Config.freeWithdrawByte` are applied to (log 5). -/
  resets : Nat
deriving DecidableEq, Repr

/-- ENC after reset: every register 0 (R360). -/
def encReset : Enc :=
  { state := .idle, count := 0, index := 0, bytes := 0, run := 0, pix := 0, prev := 0, vSrc := 0, vK := 0, vJ := 0,
    pPend := false, pHi := 0, ob := 0, obValid := false }

/-- DEC after reset: every register 0 (R360). -/
def decReset : Dec :=
  { state := .idle, err := none, count := 0, len := 0, produced := 0, bytesIn := 0, nibbles := 0, prev := 0, zrem := 0,
    val := 0, acc := 0, ovf := false, loPend := false, lo := 0, po := 0, poValid := false }

/-- The machine right after reset (R360, R362): both engines in IDLE, every register 0, no offer, no record, and no
move named (logs 2, 21). -/
def State.reset : State :=
  { enc := encReset, dec := decReset, cmdErr := .ok,
    host := { encOffer := none, decOffer := none, encSent := [], encGot := [], decSent := [], decGot := [], status := 0 },
    ret := .nothing, agenda := [], turn := 0, turnsTaken := 0, resets := 0 }

/-- Why the machine stops with a fault. -/
inductive Fault where
  /-- Raised by `step` when the agenda's next item has a bit beyond its channel's width: no such item exists (R68,
  R90). Safe: the hardware has no such transfer (log 15). -/
  | noSuchItem (b : BadItem)
deriving DecidableEq, Repr

/-- Why a step has no meaning. -/
inductive Refusal where
  /-- An instruction of the table with no meaning yet, by its mnemonic. Safe. No arm answers it. -/
  | notModelled (mnemonic : String)
deriving DecidableEq, Repr

end Sys2Proof.Machine
end

