-- ==== Sys2Proof/Machine/Codec.lean ====
section
/-! DEFINITION. The codec as pure functions on numbers and lists (R14): the nibble groups, the packing, the zigzag map,
the predictor arithmetic, and the whole encoder and decoder. -/

namespace Sys2Proof.Machine

open Sys2Proof

/-! ## Nibble groups -/

/-- The number of bits of v without leading zeros; bitlen(0) = 0 (R10). -/
def bitlen (v : Nat) : Nat := if v = 0 then 0 else v.log2 + 1

/-- max(1, ceil(bitlen(v) / 3)), the number of nibbles of v's group (R110, R113). -/
def octLen (v : Nat) : Nat := max 1 ((bitlen v + 2) / 3)

/-- VLE(v): the most significant base-8 digit first, C = 1 on every nibble but the last (R110). -/
def vle (v : Nat) : List Nibble :=
  let k := octLen v
  (List.range k).map fun j => mkNibble (decide (j + 1 < k)) (BitVec.ofNat 3 (v >>> (3 * (k - 1 - j))))

/-- VLD's loop from accumulator acc and position p, on the nibbles from p on (R170). -/
def vldFrom : List Nibble → Nat → Nat → Except ErrCode (Nat × Nat)
  | [], _, _ => .error .truncated
  | n :: t, acc, p =>
    if contBit n then vldFrom t (acc * 8 + (payload n).toNat) (p + 1)
    else .ok (acc * 8 + (payload n).toNat, p + 1)

/-- VLD(l, p): Ok(value, p') or Err(TRUNCATED) (R170). -/
def vld (l : List Nibble) (p : Nat) : Except ErrCode (Nat × Nat) := vldFrom (l.drop p) 0 p

/-! ## Packing -/

/-- Pack(l): two nibbles a byte, high nibble first, a zero low half at the end when l has odd length (R130). -/
def pack : List Nibble → List Byte
  | [] => []
  | [hi] => [byteOf hi 0]
  | hi :: lo :: t => byteOf hi lo :: pack t

/-- Unpack(B): the nibbles of the bytes, high nibble first (R150). -/
def unpack : List Byte → List Nibble
  | [] => []
  | b :: t => hiNibble b :: loNibble b :: unpack t

/-! ## Zigzag -/

/-- ZZ(d) (R190). -/
def zz (d : Int) : Nat := if 0 ≤ d then (2 * d).toNat else (-2 * d - 1).toNat

/-- UNZZ(c) (R195). -/
def unzz (c : Nat) : Int := if c % 2 = 0 then (c / 2 : Nat) else -((c + 1) / 2 : Nat)

/-- The 17-bit form of ZZ (R191). -/
def zzBits (d : BitVec 17) : BitVec 17 := (d.extractLsb' 0 16 ++ 0#1) ^^^ (if d.getLsbD 16 then 0x1FFFF#17 else 0#17)

/-- The 32-bit form of UNZZ (R196). -/
def unzzBits (c : BitVec 32) : BitVec 32 := (c >>> 1) ^^^ (if c.getLsbD 0 then 0xFFFFFFFF#32 else 0#32)

/-! ## Predictor arithmetic -/

/-- IS_ZERO(p) (R211). -/
def isZero (p : Pixel) : Bool := p == 0

/-- DELTA(p, prev) = p − prev as a signed integer (R212). -/
def delta (p prev : Pixel) : Int := (p.toNat : Int) - prev.toNat

/-- RECON(prev, delta): the sum, and its range check (R213, R214). -/
def recon (prev : Pixel) (d : Int) : Except ErrCode Pixel :=
  let v := (prev.toNat : Int) + d
  if v < 0 ∨ 65535 < v then .error .outOfRange else .ok (BitVec.ofInt 16 v)

/-! ## The encoder as a function -/

/-- The nibbles the loop of R230 writes for the pixels still to come, with `prev` the predictor and `run` the zeros
counted in the current zero run. -/
def encodeNibs (prev : Pixel) (run : Nat) : List Pixel → List Nibble
  | [] => if 0 < run then vle run else []
  | p :: t =>
    if isZero p then encodeNibs prev (run + 1) t
    else vle run ++ vle (zz (delta p prev)) ++ encodeNibs p 0 t

/-- RVL_Encode(S) (R230). -/
def rvlEncode (pixels : List Pixel) : List Byte := pack (encodeNibs 0 0 pixels)

/-! ## The decoder as a function -/

/-- How a decode ends: its result, and how many nibbles it read (R260, R280). -/
structure DecodeRun where
  result : Except ErrCode (List Pixel)
  pos : Nat

/-- The loop of R260 from position p, predictor prev and output out. Every pass that goes on reads two nibbles at
least, so `fuel` above the length of l is never used up. -/
def decodeLoop (l : List Nibble) (n : Nat) : Nat → Nat → Pixel → List Pixel → DecodeRun
  | 0, p, _, _ => ⟨.error .truncated, p⟩
  | fuel + 1, p, prev, out =>
    if out.length < n then
      match vld l p with
      | .error e => ⟨.error e, l.length⟩
      | .ok (run, p1) =>
        if n < out.length + run then ⟨.error .overrun, p1⟩
        else
          let out1 := out ++ List.replicate run 0
          if out1.length < n then
            match vld l p1 with
            | .error e => ⟨.error e, l.length⟩
            | .ok (code, p2) =>
              match recon prev (unzz code) with
              | .error e => ⟨.error e, p2⟩
              | .ok v => decodeLoop l n fuel p2 v (out1 ++ [v])
          else ⟨.ok out1, p1⟩
    else ⟨.ok out, p⟩

/-- RVL_Decode with the number of nibbles it reads. -/
def decodeRun (bytes : List Byte) (n : Nat) : DecodeRun :=
  let l := unpack bytes
  decodeLoop l n (l.length + 1) 0 0 []

/-- RVL_Decode(B, N) (R260). -/
def rvlDecode (bytes : List Byte) (n : Nat) : Except ErrCode (List Pixel) := (decodeRun bytes n).result

end Sys2Proof.Machine
end

