-- ==== Sys2Proof/Machine/Flags.lean ====
section
/-! DEFINITION. The one-bit flags and the conditions the steps test: overflow of the accumulator, room in the holding
registers, which states are busy, what an engine is ready to take (spec/10_state.md R29). -/

namespace Sys2Proof.Machine

open Sys2Proof

/-- A_OVF after one more nibble: sticky, set when A_ACC[31:29] is not 0 (R171). -/
def accOverflow (acc : BitVec 32) (ovf : Bool) : Bool := ovf || acc.extractLsb' 29 3 != 0

/-- PK_WRITE is enabled when no nibble is pending, or OB is free (R131, R245). -/
def pkEnabled (e : Enc) : Bool := !e.pPend || !e.obValid

/-- The states in which ENC_START is BUSY (R301). -/
def encBusy : EncState → Bool
  | .idle => false
  | .accept => true
  | .emitRun => true
  | .emitCode => true
  | .emitTail => true
  | .flush => true
  | .done => false

/-- The states in which DEC_START is BUSY (R302). -/
def decBusy : DecState → Bool
  | .idle => false
  | .runGroup => true
  | .emitZeros => true
  | .codeGroup => true
  | .emitValue => true
  | .drain => true
  | .done => false
  | .error => false

/-- ENC takes a pixel only in ACCEPT with E_INDEX < E_COUNT (R240, R305). -/
def encWantsPixel (e : Enc) : Bool := e.state == .accept && decide (e.index < e.count)

/-- A group is being read: RUN_GROUP or CODE_GROUP (R270, R274). -/
def decInGroup (d : Dec) : Bool := d.state == .runGroup || d.state == .codeGroup

/-- DEC takes a byte only while D_BYTES_IN < D_LEN, in DRAIN or for the high nibble of a group (R151, R152, R306). -/
def decWantsByte (d : Dec) : Bool :=
  decide (d.bytesIn < d.len) && (d.state == .drain || (decInGroup d && !d.loPend))

/-- A finished run group takes the count past N, or its value is 2^32 or more (R272); the sum is exact (34 bits). -/
def runOverruns (d : Dec) : Bool := d.ovf || decide (d.count.toNat < d.produced.toNat + d.acc.toNat)

end Sys2Proof.Machine
end

