-- ==== Sys2Proof/Machine/Operands.lean ====
section
/-! DEFINITION. Operand forms: the codes the state registers read as, the value of a status register, the nibble the
bit unpacker holds next. -/

namespace Sys2Proof.Machine

open Sys2Proof

/-- The code of E_STATE (R22). -/
def encStateCode : EncState → BitVec 3
  | .idle => 0
  | .accept => 1
  | .emitRun => 2
  | .emitCode => 3
  | .emitTail => 4
  | .flush => 5
  | .done => 6

/-- The code of D_STATE (R22). -/
def decStateCode : DecState → BitVec 3
  | .idle => 0
  | .runGroup => 1
  | .emitZeros => 2
  | .codeGroup => 3
  | .emitValue => 4
  | .drain => 5
  | .done => 6
  | .error => 7

/-- The code of D_ERR (R330). -/
def errCode : Option ErrCode → BitVec 2
  | none => 0
  | some .truncated => 1
  | some .overrun => 2
  | some .outOfRange => 3

/-- The code of CMD_ERR (R26, R334). -/
def cmdErrCode : CmdErr → BitVec 2
  | .ok => 0
  | .reservedOp => 1
  | .busy => 2

/-- The 36-bit value of status register SEL: the field in the low bits, 0 above it, 0 for SEL 12 to 15 (R27, R320,
R321). -/
def statusValue (s : State) (sel : BitVec 4) : BitVec 36 :=
  match sel.toNat with
  | 0 => (cmdErrCode s.cmdErr).setWidth 36
  | 1 => (encStateCode s.enc.state).setWidth 36
  | 2 => s.enc.count.setWidth 36
  | 3 => s.enc.index.setWidth 36
  | 4 => s.enc.bytes.setWidth 36
  | 5 => (decStateCode s.dec.state).setWidth 36
  | 6 => (errCode s.dec.err).setWidth 36
  | 7 => s.dec.count.setWidth 36
  | 8 => s.dec.len.setWidth 36
  | 9 => s.dec.produced.setWidth 36
  | 10 => s.dec.bytesIn.setWidth 36
  | 11 => s.dec.nibbles.setWidth 36
  | _ => 0

/-- The nibble UP_READ would return next, when there is one to be had: the pending low nibble, or the high nibble of
the byte on offer (R151). -/
def nextNibble (s : State) : Option Nibble :=
  if s.dec.loPend then some s.dec.lo
  else if s.dec.bytesIn < s.dec.len then s.host.decOffer.map hiNibble
  else none

end Sys2Proof.Machine
end

