-- ==== Sys2Proof/Machine/Ops.lean ====
section
/-! DEFINITION. The named operations on registers and channels. An operation that may be not enabled answers an
Option: none says not enabled, and its caller then changes nothing (R12; log 3). -/

namespace Sys2Proof.Machine

open Sys2Proof

/-! ## Channels: Take and Put (R12) -/

/-- Take(enc_in). -/
def takePixel (s : State) : Option (Pixel × State) :=
  match s.host.encOffer with
  | none => none
  | some p => some (p, { s with host := { s.host with encOffer := none, encSent := s.host.encSent ++ [p] } })

/-- Take(dec_in). -/
def takeByte (s : State) : Option (Byte × State) :=
  match s.host.decOffer with
  | none => none
  | some b => some (b, { s with host := { s.host with decOffer := none, decSent := s.host.decSent ++ [b] } })

/-- Put(enc_out, b): into OB, when it is empty. -/
def putByte (b : Byte) (e : Enc) : Option Enc :=
  if e.obValid then none else some { e with ob := b, obValid := true }

/-- Put(dec_out, v): into PO, when it is empty. -/
def putPixel (v : Pixel) (d : Dec) : Option Dec :=
  if d.poValid then none else some { d with po := v, poValid := true }

/-- The host offers a pixel. While an earlier offer stands, nothing changes (R305, log 4). -/
def offerPixel (v : Pixel) (h : HostSide) : HostSide :=
  match h.encOffer with
  | none => { h with encOffer := some v }
  | some _ => h

/-- The host offers a byte. While an earlier offer stands, nothing changes (R306, log 4). -/
def offerByte (b : Byte) (h : HostSide) : HostSide :=
  match h.decOffer with
  | none => { h with decOffer := some b }
  | some _ => h

/-- The host takes the byte in OB (R310). -/
def hostTakeByte (s : State) : State :=
  if s.enc.obValid then
    { s with
      enc := { s.enc with obValid := false, bytes := s.enc.bytes + 1 }
      host := { s.host with encGot := s.host.encGot ++ [s.enc.ob] } }
  else s

/-- The host takes the pixel in PO (R311). -/
def hostTakePixel (s : State) : State :=
  if s.dec.poValid then
    { s with
      dec := { s.dec with poValid := false }
      host := { s.host with decGot := s.host.decGot ++ [s.dec.po] } }
  else s

/-- A status read: the host receives the value and no register changes (R320). -/
def readStatus (sel : BitVec 4) (s : State) : State :=
  { s with host := { s.host with status := statusValue s sel } }

/-! ## Bit packer -/

/-- PK_WRITE(n) (R131). -/
def pkWrite (n : Nibble) (e : Enc) : Option Enc :=
  if e.pPend then (putByte (byteOf e.pHi n) e).map fun e => { e with pPend := false }
  else some { e with pHi := n, pPend := true }

/-- PK_FLUSH: enabled only in FLUSH (R132). -/
def pkFlush (e : Enc) : Enc :=
  if e.state == .flush && e.pPend && !e.obValid then { e with ob := byteOf e.pHi 0, obValid := true, pPend := false } else e

/-- PK_CLEAR (R133). -/
def pkClear (e : Enc) : Enc := { e with pPend := false, pHi := 0, ob := 0, obValid := false }

/-! ## Variable-length nibble encoder -/

/-- VLE_LOAD(v) (R114). -/
def vleLoad (v : BitVec 32) (e : Enc) : Enc := { e with vSrc := v, vK := BitVec.ofNat 4 (octLen v.toNat), vJ := 0 }

/-- The nibble VLE_EMIT emits: C = 1 below the last index, payload V_SRC[s+2:s] with s = 3·(V_K − 1 − V_J), bits at 32
and above reading 0 (R115). For V_J not below V_K the rule gives no payload and it is free (log 10). -/
def vleNibble (e : Enc) : Nibble :=
  mkNibble (decide (e.vJ.toNat + 1 < e.vK.toNat))
    (if e.vJ.toNat < e.vK.toNat then (e.vSrc >>> (3 * (e.vK.toNat - 1 - e.vJ.toNat))).extractLsb' 0 3
     else Config.freePayload e.vSrc e.vK e.vJ)

/-- `last` of VLE_EMIT: V_J = V_K − 1 (R115). -/
def vleLast (e : Enc) : Bool := e.vJ.toNat + 1 == e.vK.toNat

/-- VLE_EMIT: (n, last) and the registers after it; not enabled when PK_WRITE is not (R115). -/
def vleEmit (e : Enc) : Option ((Nibble × Bool) × Enc) :=
  (pkWrite (vleNibble e) { e with vJ := e.vJ + 1 }).map fun e1 => ((vleNibble e, vleLast e), e1)

/-! ## Predictor -/

/-- PREV_UPDATE in ENC (R210). -/
def encPrevUpdate (v : Pixel) (e : Enc) : Enc := { e with prev := v }

/-- PREV_UPDATE in DEC (R210). -/
def decPrevUpdate (v : Pixel) (d : Dec) : Dec := { d with prev := v }

/-! ## Decode error entry, the machine's one exception (R331) -/

/-- raise DecodeError(code): D_ERR written, a waiting pixel withdrawn, to DRAIN (R331). -/
def raiseDecode (code : ErrCode) (d : Dec) : Dec := { d with err := some code, poValid := false, state := .drain }

/-- The return from it is a start command: the registers of DEC at the start of a job (R302, R339). -/
def decJobStart (count : Count) (len : Length) : Dec :=
  { decReset with count := count, len := len, state := if count = 0 then .drain else .runGroup }

/-- The registers of ENC at the start of a job (R301). -/
def encJobStart (count : Count) : Enc := { encReset with count := count, state := .accept }

/-- raise CmdError(code): CMD_ERR and nothing else (R334). -/
def raiseCmd (code : CmdErr) (s : State) : State := { s with cmdErr := code }

/-! ## Bit unpacker -/

/-- UP_READ (R151): not enabled, END, or a nibble. -/
def upRead (s : State) : Option (Option Nibble × State) :=
  if s.dec.loPend then some (some s.dec.lo, { s with dec := { s.dec with loPend := false } })
  else if s.dec.bytesIn < s.dec.len then
    match takeByte s with
    | none => none
    | some (b, s1) =>
      some (some (hiNibble b),
        { s1 with dec := { s1.dec with bytesIn := s1.dec.bytesIn + 1, lo := loNibble b, loPend := true } })
  else some (none, s)

/-- UP_DISCARD: enabled only in DRAIN, with a byte to drop (R152). -/
def upDiscard (s : State) : Option State :=
  if s.dec.state = .drain ∧ s.dec.bytesIn < s.dec.len then
    match takeByte s with
    | none => none
    | some (_, s1) => some { s1 with dec := { s1.dec with bytesIn := s1.dec.bytesIn + 1 } }
  else none

/-- UP_CLEAR (R153). -/
def upClear (d : Dec) : Dec := { d with loPend := false, lo := 0, bytesIn := 0 }

/-! ## Variable-length nibble decoder -/

/-- VLD_START (R171). -/
def vldStart (d : Dec) : Dec := { d with acc := 0, ovf := false }

/-- The registers after VLD_STEP(n) (R171). -/
def vldStep (n : Nibble) (d : Dec) : Dec :=
  { d with
    ovf := accOverflow d.acc d.ovf
    acc := d.acc.extractLsb' 0 29 ++ payload n
    nibbles := d.nibbles + 1 }

/-- `done` of VLD_STEP(n) (R171). -/
def vldDone (n : Nibble) : Bool := !contBit n

/-! ## The ends of groups -/

/-- OVERRUN_CHECK (R272). -/
def overrunCheck (d : Dec) : Dec :=
  if runOverruns d then raiseDecode .overrun d else { d with zrem := d.acc, state := .emitZeros }

/-- RANGE_CHECK (R275). -/
def rangeCheck (d : Dec) : Dec :=
  if d.ovf then raiseDecode .outOfRange d
  else
    match recon d.prev (unzz d.acc.toNat) with
    | .error e => raiseDecode e d
    | .ok v => decPrevUpdate v { d with val := v, state := .emitValue }

/-! ## Engine steps -/

/-- ACCEPT, a pixel remains (R240). -/
def acceptPixelStep (s : State) : State :=
  if encWantsPixel s.enc then
    match takePixel s with
    | none => s
    | some (p, s1) =>
      let e := { s1.enc with index := s1.enc.index + 1 }
      if isZero p then { s1 with enc := { e with run := e.run + 1 } }
      else { s1 with enc := { vleLoad e.run { e with pix := p } with state := .emitRun } }
  else s

/-- ACCEPT, no pixel remains (R241). -/
def acceptEndStep (e : Enc) : Enc :=
  if e.state = .accept ∧ e.index = e.count then
    if e.run = 0 then { e with state := .flush } else { vleLoad e.run e with state := .emitTail }
  else e

/-- A step of an emit state: the next nibble, and `onLast` when it is the group's last (R242 to R245). -/
def emitStep (onLast : Enc → Enc) (e : Enc) : Enc :=
  match vleEmit e with
  | none => e
  | some ((_, last), e1) => if last then onLast e1 else e1

/-- The value-phase work at the end of a run group (R242): c is computed from E_PREV before PREV_UPDATE. -/
def startCode (e : Enc) : Enc :=
  let c := zz (delta e.pix e.prev)
  { vleLoad (BitVec.ofNat 32 c) { encPrevUpdate e.pix e with run := 0 } with state := .emitCode }

/-- EMIT_RUN (R242). -/
def emitRunStep (e : Enc) : Enc := if e.state = .emitRun then emitStep startCode e else e

/-- EMIT_CODE (R243). -/
def emitCodeStep (e : Enc) : Enc :=
  if e.state = .emitCode then emitStep (fun e => { e with state := .accept }) e else e

/-- EMIT_TAIL (R244). -/
def emitTailStep (e : Enc) : Enc :=
  if e.state = .emitTail then emitStep (fun e => { e with run := 0, state := .flush }) e else e

/-- FLUSH (R246). -/
def flushStep (e : Enc) : Enc :=
  if e.state = .flush then
    if e.pPend && !e.obValid then pkFlush e
    else if !e.pPend && !e.obValid then { e with state := .done }
    else e
  else e

/-- One nibble of a group: END is TRUNCATED, a terminal nibble ends the group with `finish` (R270, R274). -/
def groupStep (finish : Dec → Dec) (s : State) : State :=
  match upRead s with
  | none => s
  | some (none, s1) => { s1 with dec := raiseDecode .truncated s1.dec }
  | some (some n, s1) =>
    let d := vldStep n s1.dec
    { s1 with dec := if vldDone n then finish d else d }

/-- RUN_GROUP (R270). -/
def runGroupStep (s : State) : State := if s.dec.state = .runGroup then groupStep overrunCheck s else s

/-- CODE_GROUP (R274). -/
def codeGroupStep (s : State) : State := if s.dec.state = .codeGroup then groupStep rangeCheck s else s

/-- EMIT_ZEROS (R273). -/
def emitZerosStep (d : Dec) : Dec :=
  if d.state = .emitZeros then
    if d.zrem ≠ 0 then
      match putPixel 0 d with
      | none => d
      | some d1 => { d1 with produced := d1.produced + 1, zrem := d1.zrem - 1 }
    else if d.produced < d.count then { vldStart d with state := .codeGroup }
    else { d with state := .drain }
  else d

/-- EMIT_VALUE (R276); the test uses the count after this pixel. -/
def emitValueStep (d : Dec) : Dec :=
  if d.state = .emitValue then
    match putPixel d.val d with
    | none => d
    | some d1 =>
      let d2 := { d1 with produced := d1.produced + 1 }
      if d2.produced < d2.count then { vldStart d2 with state := .runGroup } else { d2 with state := .drain }
  else d

/-- DRAIN (R278). -/
def drainStep (s : State) : State :=
  if s.dec.state = .drain then
    if s.dec.bytesIn < s.dec.len then
      match upDiscard s with
      | none => s
      | some s1 => s1
    else if s.dec.poValid then s
    else { s with dec := { s.dec with state := if s.dec.err = none then .done else .error } }
  else s

/-- The step of DEC that takes a byte from dec_in, if DEC is ready for one. -/
def byteStep (s : State) : State :=
  match s.dec.state with
  | .runGroup => runGroupStep s
  | .codeGroup => codeGroupStep s
  | .drain => drainStep s
  | .idle => s
  | .emitZeros => s
  | .emitValue => s
  | .done => s
  | .error => s

/-- The step of DEC that reads nibble n from the buffer: the group step, when n is the nibble UP_READ returns
(R270, R274; log 9). -/
def nibbleStep (n : Nibble) (s : State) : State :=
  if decInGroup s.dec && nextNibble s == some n then byteStep s else s

/-- A byte transfer on dec_in: the host offers b and DEC takes it, in one joint step (R12, R69; log 9). It needs DEC
ready for a byte, and no other byte on offer. -/
def byteTransfer (b : Byte) (s : State) : State :=
  if decWantsByte s.dec && s.host.decOffer.isNone then byteStep { s with host := offerByte b s.host } else s

/-- A pixel transfer on enc_in: the host offers v and ENC takes it, in one joint step (R12, R69; log 9). -/
def pixelTransfer (v : Pixel) (s : State) : State :=
  if encWantsPixel s.enc && s.host.encOffer.isNone then acceptPixelStep { s with host := offerPixel v s.host } else s

/-! ## Reset (R361) -/

/-- What is left of an offer that stands at reset: it is not taken, and the host holds it or withdraws it (R361,
log 5). -/
def offerAfterReset {α : Type} (withdraws : Bool) (offer : Option α) : Option α :=
  match offer with
  | none => none
  | some v => if withdraws then none else some v

/-- The reset event: every register as in R360. No engine takes the host's offers; the records of the jobs it cuts off
are dropped (log 6). -/
def resetEvent (s : State) : State :=
  { s with
    enc := encReset
    dec := decReset
    cmdErr := .ok
    host :=
      { s.host with
        encOffer := offerAfterReset (Config.freeWithdrawPixel s.resets) s.host.encOffer
        decOffer := offerAfterReset (Config.freeWithdrawByte s.resets) s.host.decOffer
        encSent := [], encGot := [], decSent := [], decGot := [] }
    resets := s.resets + 1 }

/-! ## Turns -/

/-- The engine step of ENC's state; none in IDLE and DONE (R240 to R247). -/
def encNext (e : Enc) : Option Instr :=
  match e.state with
  | .idle => none
  | .accept =>
    if e.index < e.count then some .encAcceptPixel else if e.index = e.count then some .encAcceptEnd else none
  | .emitRun => some .encEmitRun
  | .emitCode => some .encEmitCode
  | .emitTail => some .encEmitTail
  | .flush => some .encFlush
  | .done => none

/-- The engine step of DEC's state; none in IDLE, DONE and ERROR (R270 to R279). -/
def decNext (d : Dec) : Option Instr :=
  match d.state with
  | .idle => none
  | .runGroup => some .decRunGroup
  | .emitZeros => some .decEmitZeros
  | .codeGroup => some .decCodeGroup
  | .emitValue => some .decEmitValue
  | .drain => some .decDrain
  | .done => none
  | .error => none

/-- The engine of the k-th row of free turns: the rows go to ENC and DEC by turns. -/
def turnOf (k : Nat) : Move := if k % 2 = 0 then .enc else .dec

/-- The turns of the k-th row: a free number, at least 1 but for the first row. So any order of turns in which each
engine's turn comes again and again is possible, and no other (R379, log 1). -/
def turnsOf (k : Nat) : Nat := if k = 0 then Config.freeTurns 0 else Config.freeTurns k + 1

/-- The turn that comes when no move is named: the next of the row, or, when the row is used up, the first of the next
one (R13, R379; log 1). -/
def freeTurn (s : State) : Move × State :=
  if s.turnsTaken < turnsOf s.turn then (turnOf s.turn, { s with turnsTaken := s.turnsTaken + 1 })
  else (turnOf (s.turn + 1), { s with turn := s.turn + 1, turnsTaken := 1 })

/-- The move at the head of the agenda, or, when the agenda is empty, a free turn (R13, log 1); and the state it is
taken in. -/
def nextMove (s : State) : Move × State :=
  match s.agenda with
  | m :: rest => (m, { s with agenda := rest })
  | [] => freeTurn s

end Sys2Proof.Machine
end

