-- ==== Sys2Proof/Machine/Commands.lean ====
section
/-! DEFINITION. The command words (spec/48_host_interface.md R300 to R303). -/

namespace Sys2Proof.Machine

open Sys2Proof

/-- ENC_START(COUNT): BUSY while an encode job runs, otherwise a new job; LEN is ignored (R301, R92). -/
def execEncStart (count : Count) (_len : Length) (s : State) : Host.Outcome State Fault Refusal :=
  if encBusy s.enc.state then .next (raiseCmd .busy s)
  else
    .next { s with
      enc := encJobStart count
      cmdErr := .ok
      host := { s.host with encSent := [], encGot := [] } }

/-- DEC_START(COUNT, LEN): BUSY while a decode job runs, otherwise a new job, to RUN_GROUP or, for COUNT = 0, DRAIN
(R302). From ERROR it is the return from a decode error (R339). -/
def execDecStart (count : Count) (len : Length) (s : State) : Host.Outcome State Fault Refusal :=
  if decBusy s.dec.state then .next (raiseCmd .busy s)
  else
    .next { s with
      dec := decJobStart count len
      cmdErr := .ok
      host := { s.host with decSent := [], decGot := [] } }

/-- A reserved command, OP = 0b10: CMD_ERR <- RESERVED_OP and nothing else (R303). -/
def execCmdReserved10 (_count : Count) (_len : Length) (s : State) : Host.Outcome State Fault Refusal :=
  .next (raiseCmd .reservedOp s)

/-- A reserved command, OP = 0b11: CMD_ERR <- RESERVED_OP and nothing else (R303). -/
def execCmdReserved11 (_count : Count) (_len : Length) (s : State) : Host.Outcome State Fault Refusal :=
  .next (raiseCmd .reservedOp s)

end Sys2Proof.Machine
end

