-- ==== Sys2Proof/Machine/Decoder.lean ====
section
/-! DEFINITION. The steps of the decoder engine (spec/47_decode_pipeline.md R270 to R279; spec/60_exceptions.md R331).
A step whose state does not match, or that is not enabled, changes nothing (log 3). -/

namespace Sys2Proof.Machine

open Sys2Proof

/-- DEC_RUN_GROUP (R270). -/
def execDecRunGroup (s : State) : Host.Outcome State Fault Refusal := .next (runGroupStep s)

/-- DEC_EMIT_ZEROS (R273). -/
def execDecEmitZeros (s : State) : Host.Outcome State Fault Refusal := .next { s with dec := emitZerosStep s.dec }

/-- DEC_CODE_GROUP (R274). -/
def execDecCodeGroup (s : State) : Host.Outcome State Fault Refusal := .next (codeGroupStep s)

/-- DEC_EMIT_VALUE (R276). -/
def execDecEmitValue (s : State) : Host.Outcome State Fault Refusal := .next { s with dec := emitValueStep s.dec }

/-- DEC_DRAIN (R278). -/
def execDecDrain (s : State) : Host.Outcome State Fault Refusal := .next (drainStep s)

/-- DEC_ERROR_ENTRY: raise DecodeError(code) (R331; log 12). -/
def execDecErrorEntry (code : ErrCode) (s : State) : Host.Outcome State Fault Refusal :=
  .next { s with dec := raiseDecode code s.dec }

end Sys2Proof.Machine
end

