-- ==== Sys2Proof/Machine/Encoder.lean ====
section
/-! DEFINITION. The steps of the encoder engine (spec/46_encode_pipeline.md R240 to R247). A step whose state does not
match, or that is not enabled, changes nothing (log 3). -/

namespace Sys2Proof.Machine

open Sys2Proof

/-- ENC_ACCEPT_PIXEL (R240). -/
def execEncAcceptPixel (s : State) : Host.Outcome State Fault Refusal := .next (acceptPixelStep s)

/-- ENC_ACCEPT_END (R241). -/
def execEncAcceptEnd (s : State) : Host.Outcome State Fault Refusal := .next { s with enc := acceptEndStep s.enc }

/-- ENC_EMIT_RUN (R242). -/
def execEncEmitRun (s : State) : Host.Outcome State Fault Refusal := .next { s with enc := emitRunStep s.enc }

/-- ENC_EMIT_CODE (R243). -/
def execEncEmitCode (s : State) : Host.Outcome State Fault Refusal := .next { s with enc := emitCodeStep s.enc }

/-- ENC_EMIT_TAIL (R244). -/
def execEncEmitTail (s : State) : Host.Outcome State Fault Refusal := .next { s with enc := emitTailStep s.enc }

/-- ENC_FLUSH (R246). -/
def execEncFlush (s : State) : Host.Outcome State Fault Refusal := .next { s with enc := flushStep s.enc }

end Sys2Proof.Machine
end

