-- ==== Sys2Proof/Machine/Functions.lean ====
section
/-! DEFINITION. The functions of the table (R14): each writes no register and leaves its value in `State.ret` (log 8). -/

namespace Sys2Proof.Machine

open Sys2Proof

/-- Ok(value, p') or Err(code) of VLD as a returned value (R170). -/
def vldRet : Except ErrCode (Nat × Nat) → Ret
  | .ok (v, p) => .group v p
  | .error e => .failed e

/-- Ok(v) or Err(code) of RECON as a returned value (R213). -/
def reconRet : Except ErrCode Pixel → Ret
  | .ok v => .recon v
  | .error e => .failed e

/-- Ok(out) or Err(code) of RVL_Decode as a returned value (R260). -/
def decodeRet : Except ErrCode (List Pixel) → Ret
  | .ok out => .pixels out
  | .error e => .failed e

/-- VLE(v) (R110). -/
def execVle (v : Nat) (s : State) : Host.Outcome State Fault Refusal := .next { s with ret := .nibbles (vle v) }

/-- Pack(l) (R130). -/
def execPack (l : List Nibble) (s : State) : Host.Outcome State Fault Refusal := .next { s with ret := .bytes (pack l) }

/-- Unpack(B) (R150). -/
def execUnpack (b : List Byte) (s : State) : Host.Outcome State Fault Refusal :=
  .next { s with ret := .nibbles (unpack b) }

/-- VLD(l, p) (R170). -/
def execVld (l : List Nibble) (p : Nat) (s : State) : Host.Outcome State Fault Refusal :=
  .next { s with ret := vldRet (vld l p) }

/-- ZZ(d) (R190). -/
def execZz (d : Int) (s : State) : Host.Outcome State Fault Refusal := .next { s with ret := .code (zz d) }

/-- UNZZ(c) (R195). -/
def execUnzz (c : Nat) (s : State) : Host.Outcome State Fault Refusal := .next { s with ret := .int (unzz c) }

/-- DELTA(p, prev) (R212). -/
def execDelta (p prev : Pixel) (s : State) : Host.Outcome State Fault Refusal :=
  .next { s with ret := .int (delta p prev) }

/-- RECON(prev, delta) (R213). -/
def execRecon (prev : Pixel) (d : Int) (s : State) : Host.Outcome State Fault Refusal :=
  .next { s with ret := reconRet (recon prev d) }

/-- RVL_Encode(S) (R230). -/
def execRvlEncode (pixels : List Pixel) (s : State) : Host.Outcome State Fault Refusal :=
  .next { s with ret := .bytes (rvlEncode pixels) }

/-- RVL_Decode(B, N) (R260). -/
def execRvlDecode (bytes : List Byte) (count : Count) (s : State) : Host.Outcome State Fault Refusal :=
  .next { s with ret := decodeRet (rvlDecode bytes count.toNat) }

end Sys2Proof.Machine
end

