-- ==== Sys2Proof/Machine/Transfers.lean ====
section
/-! DEFINITION. The items of the channels, the host's moves and the reset event (spec/30_encoding.md R80 to R90;
spec/48_host_interface.md R305 to R321; spec/70_reset_and_hazards.md R361). -/

namespace Sys2Proof.Machine

open Sys2Proof

/-- NIB_TERM: DEC reads the terminal nibble {0, P} as the next nibble of its group (R80, R86; log 9). -/
def execNibTerm (p : BitVec 3) (s : State) : Host.Outcome State Fault Refusal :=
  .next (nibbleStep (mkNibble false p) s)

/-- NIB_CONT: DEC reads the continuation nibble {1, P} as the next nibble of its group (R80, R86; log 9). -/
def execNibCont (p : BitVec 3) (s : State) : Host.Outcome State Fault Refusal :=
  .next (nibbleStep (mkNibble true p) s)

/-- STREAM_BYTE: the byte {HI, LO} passes from the host to DEC on dec_in (R69, R85; log 9). -/
def execStreamByte (hi lo : Nibble) (s : State) : Host.Outcome State Fault Refusal :=
  .next (byteTransfer (byteOf hi lo) s)

/-- PIXEL: the pixel V passes from the host to ENC on enc_in (R69, R90; log 9). -/
def execPixel (v : Pixel) (s : State) : Host.Outcome State Fault Refusal := .next (pixelTransfer v s)

/-- STATUS_SEL: the host sends SEL on channel status and receives the register's value (R90, R320; log 9). -/
def execStatusSel (sel : BitVec 4) (s : State) : Host.Outcome State Fault Refusal := .next (readStatus sel s)

/-- ENC_PIXEL_IN: the host offers a pixel on enc_in (R305). -/
def execEncPixelIn (v : Pixel) (s : State) : Host.Outcome State Fault Refusal :=
  .next { s with host := offerPixel v s.host }

/-- DEC_BYTE_IN: the host offers a byte on dec_in (R306). -/
def execDecByteIn (b : Byte) (s : State) : Host.Outcome State Fault Refusal :=
  .next { s with host := offerByte b s.host }

/-- ENC_TAKE: the host takes the byte in OB, when there is one (R310). -/
def execEncTake (s : State) : Host.Outcome State Fault Refusal := .next (hostTakeByte s)

/-- DEC_TAKE: the host takes the pixel in PO, when there is one (R311). -/
def execDecTake (s : State) : Host.Outcome State Fault Refusal := .next (hostTakePixel s)

/-- STATUS_READ(SEL) (R320). -/
def execStatusRead (sel : BitVec 4) (s : State) : Host.Outcome State Fault Refusal := .next (readStatus sel s)

/-- STATUS_READ of an unused number, SEL 12 to 15 (R321). -/
def execStatusReadUnused (sel : BitVec 4) (s : State) : Host.Outcome State Fault Refusal := .next (readStatus sel s)

/-- RESET (R360, R361; logs 5, 6). -/
def execReset (s : State) : Host.Outcome State Fault Refusal := .next (resetEvent s)

end Sys2Proof.Machine
end

