-- ==== Sys2Proof/Machine/Units.lean ====
section
/-! DEFINITION. The internal operations of the units, each run on its own. The engine steps do them inside one step
(R114, R131, R151, R171); here each acts on its unit's registers alone, under the conditions its own rule states
(log 12), and leaves what it returns in `State.ret` (log 8). -/

namespace Sys2Proof.Machine

open Sys2Proof

/-- VLE_LOAD(v) (R114). -/
def execVleLoad (v : BitVec 32) (s : State) : Host.Outcome State Fault Refusal := .next { s with enc := vleLoad v s.enc }

/-- VLE_EMIT (R115). -/
def execVleEmit (s : State) : Host.Outcome State Fault Refusal :=
  match vleEmit s.enc with
  | none => .next s
  | some ((n, last), e) => .next { s with enc := e, ret := .emitted n last }

/-- PK_WRITE(n) (R131). -/
def execPkWrite (n : Nibble) (s : State) : Host.Outcome State Fault Refusal :=
  match pkWrite n s.enc with
  | none => .next s
  | some e => .next { s with enc := e }

/-- PK_FLUSH (R132). -/
def execPkFlush (s : State) : Host.Outcome State Fault Refusal := .next { s with enc := pkFlush s.enc }

/-- PK_CLEAR (R133). -/
def execPkClear (s : State) : Host.Outcome State Fault Refusal := .next { s with enc := pkClear s.enc }

/-- UP_READ (R151). -/
def execUpRead (s : State) : Host.Outcome State Fault Refusal :=
  match upRead s with
  | none => .next s
  | some (some n, s1) => .next { s1 with ret := .nibble n }
  | some (none, s1) => .next { s1 with ret := .endOfBuffer }

/-- UP_DISCARD (R152). -/
def execUpDiscard (s : State) : Host.Outcome State Fault Refusal :=
  match upDiscard s with
  | none => .next s
  | some s1 => .next s1

/-- UP_CLEAR (R153). -/
def execUpClear (s : State) : Host.Outcome State Fault Refusal := .next { s with dec := upClear s.dec }

/-- VLD_START (R171). -/
def execVldStart (s : State) : Host.Outcome State Fault Refusal := .next { s with dec := vldStart s.dec }

/-- VLD_STEP(n) (R171). -/
def execVldStep (n : Nibble) (s : State) : Host.Outcome State Fault Refusal :=
  .next { s with dec := vldStep n s.dec, ret := .groupDone (vldDone n) }

/-- PREV_UPDATE (R210). -/
def execPrevUpdate (side : Side) (v : Pixel) (s : State) : Host.Outcome State Fault Refusal :=
  match side with
  | .enc => .next { s with enc := encPrevUpdate v s.enc }
  | .dec => .next { s with dec := decPrevUpdate v s.dec }

/-- IS_ZERO(p) (R211). -/
def execIsZero (p : Pixel) (s : State) : Host.Outcome State Fault Refusal := .next { s with ret := .truth (isZero p) }

/-- OVERRUN_CHECK (R272). -/
def execOverrunCheck (s : State) : Host.Outcome State Fault Refusal := .next { s with dec := overrunCheck s.dec }

/-- RANGE_CHECK (R275). -/
def execRangeCheck (s : State) : Host.Outcome State Fault Refusal := .next { s with dec := rangeCheck s.dec }

end Sys2Proof.Machine
end

