-- ==== Sys2Proof/Machine/Dispatch.lean ====
section
/-! DEFINITION. The meaning of every instruction, one arm each. -/

namespace Sys2Proof.Machine

open Sys2Proof

def exec (i : Instr) (s : State) : Host.Outcome State Fault Refusal :=
  match i with
  | .encStart count len => Sys2Proof.Machine.execEncStart count len s
  | .decStart count len => Sys2Proof.Machine.execDecStart count len s
  | .cmdReserved10 count len => Sys2Proof.Machine.execCmdReserved10 count len s
  | .cmdReserved11 count len => Sys2Proof.Machine.execCmdReserved11 count len s
  | .nibTerm p => Sys2Proof.Machine.execNibTerm p s
  | .nibCont p => Sys2Proof.Machine.execNibCont p s
  | .streamByte hi lo => Sys2Proof.Machine.execStreamByte hi lo s
  | .pixel v => Sys2Proof.Machine.execPixel v s
  | .statusSel sel => Sys2Proof.Machine.execStatusSel sel s
  | .encPixelIn v => Sys2Proof.Machine.execEncPixelIn v s
  | .decByteIn b => Sys2Proof.Machine.execDecByteIn b s
  | .encTake => Sys2Proof.Machine.execEncTake s
  | .decTake => Sys2Proof.Machine.execDecTake s
  | .statusRead sel => Sys2Proof.Machine.execStatusRead sel s
  | .statusReadUnused sel => Sys2Proof.Machine.execStatusReadUnused sel s
  | .reset => Sys2Proof.Machine.execReset s
  | .vle v => Sys2Proof.Machine.execVle v s
  | .pack l => Sys2Proof.Machine.execPack l s
  | .unpack b => Sys2Proof.Machine.execUnpack b s
  | .vld l p => Sys2Proof.Machine.execVld l p s
  | .zz d => Sys2Proof.Machine.execZz d s
  | .unzz c => Sys2Proof.Machine.execUnzz c s
  | .delta p prev => Sys2Proof.Machine.execDelta p prev s
  | .recon prev d => Sys2Proof.Machine.execRecon prev d s
  | .rvlEncode pixels => Sys2Proof.Machine.execRvlEncode pixels s
  | .rvlDecode bytes count => Sys2Proof.Machine.execRvlDecode bytes count s
  | .vleLoad v => Sys2Proof.Machine.execVleLoad v s
  | .vleEmit => Sys2Proof.Machine.execVleEmit s
  | .pkWrite n => Sys2Proof.Machine.execPkWrite n s
  | .pkFlush => Sys2Proof.Machine.execPkFlush s
  | .pkClear => Sys2Proof.Machine.execPkClear s
  | .upRead => Sys2Proof.Machine.execUpRead s
  | .upDiscard => Sys2Proof.Machine.execUpDiscard s
  | .upClear => Sys2Proof.Machine.execUpClear s
  | .vldStart => Sys2Proof.Machine.execVldStart s
  | .vldStep n => Sys2Proof.Machine.execVldStep n s
  | .prevUpdate side v => Sys2Proof.Machine.execPrevUpdate side v s
  | .isZero p => Sys2Proof.Machine.execIsZero p s
  | .overrunCheck => Sys2Proof.Machine.execOverrunCheck s
  | .rangeCheck => Sys2Proof.Machine.execRangeCheck s
  | .encAcceptPixel => Sys2Proof.Machine.execEncAcceptPixel s
  | .encAcceptEnd => Sys2Proof.Machine.execEncAcceptEnd s
  | .encEmitRun => Sys2Proof.Machine.execEncEmitRun s
  | .encEmitCode => Sys2Proof.Machine.execEncEmitCode s
  | .encEmitTail => Sys2Proof.Machine.execEncEmitTail s
  | .encFlush => Sys2Proof.Machine.execEncFlush s
  | .decRunGroup => Sys2Proof.Machine.execDecRunGroup s
  | .decEmitZeros => Sys2Proof.Machine.execDecEmitZeros s
  | .decCodeGroup => Sys2Proof.Machine.execDecCodeGroup s
  | .decEmitValue => Sys2Proof.Machine.execDecEmitValue s
  | .decDrain => Sys2Proof.Machine.execDecDrain s
  | .decErrorEntry code => Sys2Proof.Machine.execDecErrorEntry code s

end Sys2Proof.Machine
end

