-- ==== Sys2Proof/Machine/Step.lean ====
section
/-! DEFINITION. One step of the machine: the next move of the agenda, by the agent it names (R13). -/

namespace Sys2Proof.Machine

open Sys2Proof

/-- A turn of an engine: the engine step of its state, or nothing where it has none (R247, R279). -/
def runTurn (i : Option Instr) (s : State) : Host.Outcome State Fault Refusal :=
  match i with
  | some i => exec i s
  | none => .next s

/-- One move. An item is decoded and run; one that does not exist is a fault (log 15). -/
def runMove (m : Move) (s : State) : Host.Outcome State Fault Refusal :=
  match m with
  | .item it =>
    match decode it with
    | .ok i => exec i s
    | .error b => .fault (.noSuchItem b)
  | .enc => runTurn (encNext s.enc) s
  | .dec => runTurn (decNext s.dec) s

/-- One step: the next move, taken in the state without it (R13, R379; log 1). -/
def step (s : State) : Host.Outcome State Fault Refusal := runMove (nextMove s).1 (nextMove s).2

/-- The state whose next move is the item of a word of the opcode table (log 2). -/
def State.withFetchWord (s : State) (nbits w : Nat) : State := { s with agenda := .item (tableItem nbits w) :: s.agenda }

end Sys2Proof.Machine
end

