-- ==== Sys2Proof/Machine/Instances.lean ====
section
/-! DEFINITION. Several RVL CORE instances, which share nothing (spec/00_scope.md R7; spec/60_exceptions.md R344; log 17). -/

namespace Sys2Proof.Machine

/-- A step of instance k among several: that one steps, the others stay as they are. Where there is no instance k
nothing steps. -/
def stepInstance (k : Nat) (cores : List State) : Host.Outcome (List State) Fault Refusal :=
  match cores[k]? with
  | none => .next cores
  | some s =>
    match step s with
    | .next t => .next (cores.set k t)
    | .fault r => .fault r
    | .refused r => .refused r

/-- n instances after reset. -/
def instancesReset (n : Nat) : List State := List.replicate n State.reset

end Sys2Proof.Machine
end

