-- ==== Sys2Proof/Machine/Sequences.lean ====
section
/-! DEFINITION. Runs of the machine, and the document's two operations as the host's sequences on it
(spec/48_host_interface.md R322, R323). A sequence is the host's program: it sends items, lets the engine it serves take
its turns, and goes by what its status reads return. The order within a round, that the other engine has no turn meanwhile,
and that any standing agenda is set aside, are the model's choice (DESIGN CHOICE, log 27). -/

namespace Sys2Proof.Machine

open Sys2Proof

/-- k steps, stopping at the first fault or refusal. -/
def runSteps : Nat → State → Host.Outcome State Fault Refusal
  | 0, s => .next s
  | k + 1, s =>
    match step s with
    | .next t => runSteps k t
    | .fault r => .fault r
    | .refused r => .refused r

/-- The moves named, one step each, in place of any agenda (log 27). -/
def play (moves : List Move) (s : State) : Host.Outcome State Fault Refusal :=
  runSteps moves.length { s with agenda := moves }

/-- The move that sends the item of an instruction. -/
def sendItem (i : Instr) : List Move :=
  match encode i with
  | some it => [.item it]
  | none => []

/-- What a host's sequence comes to. -/
inductive HostEnd (α : Type) where
  /-- A status read showed DONE: the operation's result. -/
  | finished (result : α) (s : State)
  /-- A status read showed ERROR: the value of D_ERR as read, and no pixel, since the host drops those it took (R323). -/
  | failed (kind : BitVec 36) (s : State)
  /-- CMD_ERR was read and is not OK: the host sends no data (R324). -/
  | rejected (s : State)
  /-- The rounds were used up before the job ended. -/
  | unfinished (s : State)
  /-- A step did not give a next state. -/
  | stopped
deriving DecidableEq, Repr

/-- The next item to offer, once no offer stands, and the items left (R305, R306). -/
def offerNext {α : Type} (offer : α → List Move) (standing : Option α) (items : List α) : List Move × List α :=
  match standing, items with
  | none, v :: rest => (offer v, rest)
  | none, [] => ([], [])
  | some _, items => ([], items)

/-- Rounds of compress: the next pixel is offered, ENC takes a turn, the host takes a byte if there is one and reads
E_STATE, until that shows DONE (R322). R13, R322 and R324 leave open how these interleave: this order, one of each in a
round and no turn of DEC, is the model's choice (DESIGN CHOICE, log 27). -/
def compressRounds : Nat → List Pixel → State → HostEnd (List Byte)
  | 0, _, s => .unfinished s
  | k + 1, pixels, s =>
    let (offers, rest) := offerNext (fun p => sendItem (.encPixelIn p)) s.host.encOffer pixels
    match play (offers ++ .enc :: (sendItem .encTake ++ sendItem (.statusRead 1))) s with
    | .next t =>
      if t.host.status = (encStateCode .done).setWidth 36 then .finished t.host.encGot t else compressRounds k rest t
    | .fault _ => .stopped
    | .refused _ => .stopped

/-- compress(S) (R322): ENC_START with COUNT = len(S), a read of CMD_ERR, and, if that is OK, the rounds. -/
def compress (pixels : List Pixel) (s : State) : HostEnd (List Byte) :=
  match play (sendItem (.encStart (BitVec.ofNat 32 pixels.length) 0) ++ sendItem (.statusRead 0)) s with
  | .next t =>
    if t.host.status = (cmdErrCode .ok).setWidth 36 then compressRounds (20 * pixels.length + 20) pixels t
    else .rejected t
  | .fault _ => .stopped
  | .refused _ => .stopped

/-- Rounds of decompress: the next byte is offered, DEC takes a turn, the host takes a pixel if there is one and reads
D_STATE, until that shows DONE, or ERROR, when it reads D_ERR (R323). R13, R323 and R324 leave open how these interleave:
this order, one of each in a round and no turn of ENC, is the model's choice (DESIGN CHOICE, log 27). -/
def decompressRounds : Nat → List Byte → State → HostEnd (List Pixel)
  | 0, _, s => .unfinished s
  | k + 1, bytes, s =>
    let (offers, rest) := offerNext (fun b => sendItem (.decByteIn b)) s.host.decOffer bytes
    match play (offers ++ .dec :: (sendItem .decTake ++ sendItem (.statusRead 5))) s with
    | .next t =>
      if t.host.status = (decStateCode .done).setWidth 36 then .finished t.host.decGot t
      else if t.host.status = (decStateCode .error).setWidth 36 then
        match play (sendItem (.statusRead 6)) t with
        | .next u => .failed u.host.status u
        | .fault _ => .stopped
        | .refused _ => .stopped
      else decompressRounds k rest t
    | .fault _ => .stopped
    | .refused _ => .stopped

/-- decompress(B, N) (R323): DEC_START with COUNT = N and LEN = len(B), a read of CMD_ERR, and, if that is OK, the
rounds. -/
def decompress (bytes : List Byte) (n : Nat) (s : State) : HostEnd (List Pixel) :=
  match play
      (sendItem (.decStart (BitVec.ofNat 32 n) (BitVec.ofNat 34 bytes.length)) ++ sendItem (.statusRead 0)) s with
  | .next t =>
    if t.host.status = (cmdErrCode .ok).setWidth 36 then decompressRounds (9 * bytes.length + 4 * n + 10) bytes t
    else .rejected t
  | .fault _ => .stopped
  | .refused _ => .stopped

end Sys2Proof.Machine
end

