-- ==== Sys2Proof/WellFormed.lean ====
section
/-! DEFINITION. Which operands the spec gives each instruction. -/

namespace Sys2Proof

/-- The operand ranges of the rules: a status number below 12 for STATUS_READ's own row and 12 to 15 for
STATUS_READ_UNUSED (R320, R321); 0 ≤ v < 2^32 (R110); 0 ≤ p ≤ len(l) (R170); a nonzero pixel (R212); at most
2^32 − 1 pixels (R230); at most 2^34 − 1 bytes (R7, R260). Every other operand's type is its range. -/
def WellFormed : Instr → Bool
  | .statusRead sel => sel.toNat < 12
  | .statusReadUnused sel => 12 ≤ sel.toNat
  | .vle v => v < 2 ^ 32
  | .vld l p => p ≤ l.length
  | .delta p _ => p != 0
  | .rvlEncode pixels => pixels.length < 2 ^ 32
  | .rvlDecode bytes _ => bytes.length < 2 ^ 34
  | .encStart _ _ => true
  | .decStart _ _ => true
  | .cmdReserved10 _ _ => true
  | .cmdReserved11 _ _ => true
  | .nibTerm _ => true
  | .nibCont _ => true
  | .streamByte _ _ => true
  | .pixel _ => true
  | .statusSel _ => true
  | .encPixelIn _ => true
  | .decByteIn _ => true
  | .encTake => true
  | .decTake => true
  | .reset => true
  | .pack _ => true
  | .unpack _ => true
  | .zz _ => true
  | .unzz _ => true
  | .recon _ _ => true
  | .vleLoad _ => true
  | .vleEmit => true
  | .pkWrite _ => true
  | .pkFlush => true
  | .pkClear => true
  | .upRead => true
  | .upDiscard => true
  | .upClear => true
  | .vldStart => true
  | .vldStep _ => true
  | .prevUpdate _ _ => true
  | .isZero _ => true
  | .overrunCheck => true
  | .rangeCheck => true
  | .encAcceptPixel => true
  | .encAcceptEnd => true
  | .encEmitRun => true
  | .encEmitCode => true
  | .encEmitTail => true
  | .encFlush => true
  | .decRunGroup => true
  | .decEmitZeros => true
  | .decCodeGroup => true
  | .decEmitValue => true
  | .decDrain => true
  | .decErrorEntry _ => true

end Sys2Proof
end

