-- ==== Sys2Proof/Safety.lean ====
section
/-! DEFINITION. The terms the statements use: what a job's result is, what belongs to which engine, the invariants of the
engines, when an engine waits, how far a job still has to go, and what a fair endless run is. -/

namespace Sys2Proof.Machine

open Sys2Proof

/-! ## The registers after one nibble -/

/-- The registers of ENC after a VLE_EMIT whose nibble PK_WRITE took (R115, R131). -/
def afterEmit (e : Enc) : Enc :=
  if e.pPend then { e with vJ := e.vJ + 1, ob := byteOf e.pHi (vleNibble e), obValid := true, pPend := false }
  else { e with vJ := e.vJ + 1, pHi := vleNibble e, pPend := true }

/-- The registers of DEC after a group step whose UP_READ gave n and left d: VLD_STEP(n), and `finish` when n ends the
group (R270, R274). -/
def afterNibble (finish : Dec → Dec) (n : Nibble) (d : Dec) : Dec :=
  if vldDone n then finish (vldStep n d) else vldStep n d

/-! ## The result of a job -/

/-- The result of ENC's job: the bytes the host took, once E_STATE is DONE (R76, R322). -/
def encodeResult (s : State) : Option (List Byte) :=
  match s.enc.state with
  | .done => some s.host.encGot
  | _ => none

/-- The result of DEC's job: the pixels the host took at DONE, the error at ERROR; before that, none. The pixels of a
job that ends in ERROR are void (R76, R323, R331). -/
def decodeResult (s : State) : Option (Except ErrCode (List Pixel)) :=
  match s.dec.state with
  | .done => some (.ok s.host.decGot)
  | .error => s.dec.err.map .error
  | _ => none

/-! ## What belongs to an engine -/

/-- ENC's registers, and the host's side of its channels. -/
structure EncPart where
  regs : Enc
  offer : Option Pixel
  sent : List Pixel
  got : List Byte
deriving DecidableEq, Repr

/-- DEC's registers, and the host's side of its channels. -/
structure DecPart where
  regs : Dec
  offer : Option Byte
  sent : List Byte
  got : List Pixel
deriving DecidableEq, Repr

def encPart (s : State) : EncPart := ⟨s.enc, s.host.encOffer, s.host.encSent, s.host.encGot⟩

def decPart (s : State) : DecPart := ⟨s.dec, s.host.decOffer, s.host.decSent, s.host.decGot⟩

/-- The engine an instruction acts on: none for the status reads, the functions, and for RESET, which acts on both. -/
def sideOf : Instr → Option Side
  | .encStart _ _ => some .enc
  | .decStart _ _ => some .dec
  | .cmdReserved10 _ _ => none
  | .cmdReserved11 _ _ => none
  | .nibTerm _ => some .dec
  | .nibCont _ => some .dec
  | .streamByte _ _ => some .dec
  | .pixel _ => some .enc
  | .statusSel _ => none
  | .encPixelIn _ => some .enc
  | .decByteIn _ => some .dec
  | .encTake => some .enc
  | .decTake => some .dec
  | .statusRead _ => none
  | .statusReadUnused _ => none
  | .reset => none
  | .vle _ => none
  | .pack _ => none
  | .unpack _ => none
  | .vld _ _ => none
  | .zz _ => none
  | .unzz _ => none
  | .delta _ _ => none
  | .recon _ _ => none
  | .rvlEncode _ => none
  | .rvlDecode _ _ => none
  | .vleLoad _ => some .enc
  | .vleEmit => some .enc
  | .pkWrite _ => some .enc
  | .pkFlush => some .enc
  | .pkClear => some .enc
  | .upRead => some .dec
  | .upDiscard => some .dec
  | .upClear => some .dec
  | .vldStart => some .dec
  | .vldStep _ => some .dec
  | .prevUpdate side _ => some side
  | .isZero _ => none
  | .overrunCheck => some .dec
  | .rangeCheck => some .dec
  | .encAcceptPixel => some .enc
  | .encAcceptEnd => some .enc
  | .encEmitRun => some .enc
  | .encEmitCode => some .enc
  | .encEmitTail => some .enc
  | .encFlush => some .enc
  | .decRunGroup => some .dec
  | .decEmitZeros => some .dec
  | .decCodeGroup => some .dec
  | .decEmitValue => some .dec
  | .decDrain => some .dec
  | .decErrorEntry _ => some .dec

/-- Whether a move can act on an engine: a turn of it, an instruction of its side, or RESET. -/
def moveActsOn (side : Side) (m : Move) : Bool :=
  match m with
  | .item it =>
    match decode it with
    | .ok i => sideOf i == some side || i == .reset
    | .error _ => false
  | .enc => side == .enc
  | .dec => side == .dec

/-! ## The counters' invariant (R28) -/

/-- An emit state: a group is being written (R242 to R244). -/
def encEmitting (st : EncState) : Prop := st = .emitRun ∨ st = .emitCode ∨ st = .emitTail

/-- The bounds of ENC's counters (R28, R240), with those on V_K and V_J in the emit states (R23, R113). -/
def EncCounters (e : Enc) : Prop :=
  e.index.toNat ≤ e.count.toNat ∧
  e.run.toNat ≤ e.index.toNat ∧
  (encEmitting e.state → e.vJ.toNat < e.vK.toNat ∧ e.vK.toNat ≤ 11) ∧
  (e.state = .emitCode → e.vK.toNat ≤ 6) ∧
  (e.state = .emitTail ∨ e.state = .flush ∨ e.state = .done → e.index = e.count)

/-- The bounds of DEC's counters (R28, R277), with what each state says of them and of D_ERR. -/
def DecCounters (d : Dec) : Prop :=
  d.bytesIn.toNat ≤ d.len.toNat ∧
  d.nibbles.toNat + (if d.loPend then 1 else 0) ≤ 2 * d.bytesIn.toNat ∧
  d.produced.toNat ≤ d.count.toNat ∧
  (match d.state with
    | .idle => d.err = none
    | .runGroup => d.err = none ∧ d.produced.toNat < d.count.toNat
    | .emitZeros => d.err = none ∧ d.produced.toNat + d.zrem.toNat ≤ d.count.toNat
    | .codeGroup => d.err = none ∧ d.produced.toNat < d.count.toNat
    | .emitValue => d.err = none ∧ d.produced.toNat < d.count.toNat
    | .drain => d.err ≠ none → d.poValid = false
    | .done => d.err = none ∧ d.bytesIn = d.len ∧ d.poValid = false
    | .error => d.err ≠ none ∧ d.bytesIn = d.len ∧ d.poValid = false)

/-- The invariant of both engines' counters. -/
def CounterInv (s : State) : Prop := EncCounters s.enc ∧ DecCounters s.dec

/-! ## The encoder's invariant (R249) -/

/-- Where the loop of R230 stands after some pixels: the nibbles of the finished groups, the predictor, the run. -/
structure EncWalk where
  nibs : List Nibble
  prev : Pixel
  run : Nat
deriving DecidableEq, Repr

/-- One more pixel through the loop of R230. -/
def encWalkStep (w : EncWalk) (p : Pixel) : EncWalk :=
  if isZero p then { w with run := w.run + 1 }
  else { nibs := w.nibs ++ vle w.run ++ vle (zz (delta p w.prev)), prev := p, run := 0 }

/-- The loop of R230 after the given pixels. -/
def encWalk (pixels : List Pixel) : EncWalk := pixels.foldl encWalkStep { nibs := [], prev := 0, run := 0 }

/-- The nibbles PK_WRITE has taken in the job, in order: those of the bytes the host took, of OB, and P_HI (R134). -/
def encWritten (s : State) : List Nibble :=
  unpack s.host.encGot ++ (if s.enc.obValid then [hiNibble s.enc.ob, loNibble s.enc.ob] else [])
    ++ (if s.enc.pPend then [s.enc.pHi] else [])

/-- The bytes of the job, with the pending nibble padded (R67, R132). -/
def encBytes (s : State) : List Byte :=
  s.host.encGot ++ (if s.enc.obValid then [s.enc.ob] else []) ++ (if s.enc.pPend then [byteOf s.enc.pHi 0] else [])

/-- The VLE unit is in the group of v, at nibble V_J (R114, R115). -/
def vleAt (e : Enc) (v : Nat) : Prop := e.vSrc.toNat = v ∧ e.vK.toNat = octLen v ∧ e.vJ.toNat < octLen v

/-- What ENC has done so far is what the loop of R230 does on the pixels it has taken (R249). -/
def EncInv (s : State) : Prop :=
  s.enc.index.toNat = s.host.encSent.length ∧
  s.enc.bytes.toNat = s.host.encGot.length ∧
  s.host.encSent.length ≤ s.enc.count.toNat ∧
  (match s.enc.state with
    | .idle => s.host.encSent = [] ∧ s.host.encGot = [] ∧ s.enc.obValid = false ∧ s.enc.pPend = false
    | .accept =>
      encWritten s = (encWalk s.host.encSent).nibs ∧ s.enc.prev = (encWalk s.host.encSent).prev ∧
        s.enc.run.toNat = (encWalk s.host.encSent).run
    | .emitRun =>
      ∃ before, s.host.encSent = before ++ [s.enc.pix] ∧ isZero s.enc.pix = false ∧
        vleAt s.enc (encWalk before).run ∧ s.enc.prev = (encWalk before).prev ∧
        encWritten s = (encWalk before).nibs ++ (vle (encWalk before).run).take s.enc.vJ.toNat
    | .emitCode =>
      s.enc.prev = (encWalk s.host.encSent).prev ∧ s.enc.run = 0 ∧ (encWalk s.host.encSent).run = 0 ∧
        vleAt s.enc s.enc.vSrc.toNat ∧
        encWritten s ++ (vle s.enc.vSrc.toNat).drop s.enc.vJ.toNat = (encWalk s.host.encSent).nibs
    | .emitTail =>
      s.enc.index = s.enc.count ∧ 0 < (encWalk s.host.encSent).run ∧ vleAt s.enc (encWalk s.host.encSent).run ∧
        encWritten s = (encWalk s.host.encSent).nibs ++ (vle (encWalk s.host.encSent).run).take s.enc.vJ.toNat
    | .flush => s.enc.index = s.enc.count ∧ encBytes s = rvlEncode s.host.encSent
    | .done =>
      s.enc.index = s.enc.count ∧ s.host.encGot = rvlEncode s.host.encSent ∧ s.enc.obValid = false ∧
        s.enc.pPend = false)

/-! ## The decoder's invariant (R280) -/

/-- Where the loop of R260 stands between two nibbles. -/
inductive DecPhase where
  | run
  | code
  | finished
  | failed (e : ErrCode)
deriving DecidableEq, Repr

/-- The loop of R260 after some nibbles: what it reads next, the value of the group so far, the output, the predictor. -/
structure DecWalk where
  phase : DecPhase
  acc : Nat
  out : List Pixel
  prev : Pixel
deriving DecidableEq, Repr

/-- One more nibble through the loop of R260, for count n. -/
def decWalkStep (n : Nat) (w : DecWalk) (nib : Nibble) : DecWalk :=
  let v := w.acc * 8 + (payload nib).toNat
  match w.phase with
  | .run =>
    if contBit nib then { w with acc := v }
    else if n < w.out.length + v then { w with phase := .failed .overrun, acc := v }
    else
      { w with
        phase := if w.out.length + v < n then .code else .finished
        acc := 0
        out := w.out ++ List.replicate v 0 }
  | .code =>
    if contBit nib then { w with acc := v }
    else
      match recon w.prev (unzz v) with
      | .error e => { w with phase := .failed e, acc := v }
      | .ok p =>
        { phase := if w.out.length + 1 < n then .run else .finished, acc := 0, out := w.out ++ [p], prev := p }
  | .finished => w
  | .failed _ => w

/-- The loop of R260 after the given nibbles, for count n. -/
def decWalk (n : Nat) (nibs : List Nibble) : DecWalk :=
  nibs.foldl (decWalkStep n) { phase := if 0 < n then .run else .finished, acc := 0, out := [], prev := 0 }

/-- The loop of R260 on the nibbles DEC has read (R154). -/
def decRead (s : State) : DecWalk :=
  decWalk s.dec.count.toNat ((unpack s.host.decSent).take s.dec.nibbles.toNat)

/-- The pixels DEC has delivered: those the host took, and PO (R273, R276). -/
def decDelivered (s : State) : List Pixel := s.host.decGot ++ (if s.dec.poValid then [s.dec.po] else [])

/-- A_ACC and A_OVF hold the group value V: A_OVF = 1 exactly when V ≥ 2^32, and otherwise A_ACC = V (R173). -/
def accHolds (d : Dec) (v : Nat) : Prop := if d.ovf then 2 ^ 32 ≤ v else d.acc.toNat = v

/-- The unpacker's position: every nibble of the bytes taken has been read but a pending low one (R151, R154). -/
def unpackerAt (s : State) : Prop :=
  s.dec.nibbles.toNat + (if s.dec.loPend then 1 else 0) = 2 * s.host.decSent.length ∧
  (s.dec.loPend = true → (unpack s.host.decSent)[s.dec.nibbles.toNat]? = some s.dec.lo)

/-- How decoding ended, as DEC records it from DRAIN on (R278, R330, R331). -/
def decEnded (s : State) : Prop :=
  s.dec.nibbles.toNat ≤ 2 * s.host.decSent.length ∧
  s.dec.produced.toNat = (decRead s).out.length ∧
  (match s.dec.err with
    | none => (decRead s).phase = .finished ∧ (decRead s).out = decDelivered s
    | some .truncated =>
      ((decRead s).phase = .run ∨ (decRead s).phase = .code) ∧ s.dec.nibbles.toNat = 2 * s.dec.len.toNat ∧
        s.dec.poValid = false
    | some .overrun => (decRead s).phase = .failed .overrun ∧ s.dec.poValid = false
    | some .outOfRange => (decRead s).phase = .failed .outOfRange ∧ s.dec.poValid = false)

/-- What DEC has done so far is what the loop of R260 does on the nibbles it has read (R280). -/
def DecInv (s : State) : Prop :=
  s.dec.bytesIn.toNat = s.host.decSent.length ∧
  s.host.decSent.length ≤ s.dec.len.toNat ∧
  (match s.dec.state with
    | .idle => s.host.decSent = [] ∧ s.host.decGot = [] ∧ s.dec.poValid = false ∧ s.dec.err = none
    | .runGroup =>
      s.dec.err = none ∧ unpackerAt s ∧ (decRead s).phase = .run ∧ accHolds s.dec (decRead s).acc ∧
        s.dec.prev = (decRead s).prev ∧ (decRead s).out = decDelivered s ∧
        s.dec.produced.toNat = (decDelivered s).length
    | .emitZeros =>
      s.dec.err = none ∧ unpackerAt s ∧
        (decRead s).phase = (if (decRead s).out.length < s.dec.count.toNat then .code else .finished) ∧
        (decRead s).acc = 0 ∧ s.dec.prev = (decRead s).prev ∧
        (decRead s).out = decDelivered s ++ List.replicate s.dec.zrem.toNat 0 ∧
        (decRead s).out.length ≤ s.dec.count.toNat ∧
        s.dec.produced.toNat = (decDelivered s).length
    | .codeGroup =>
      s.dec.err = none ∧ unpackerAt s ∧ (decRead s).phase = .code ∧ accHolds s.dec (decRead s).acc ∧
        s.dec.prev = (decRead s).prev ∧ (decRead s).out = decDelivered s ∧
        (decRead s).out.length < s.dec.count.toNat ∧
        s.dec.produced.toNat = (decDelivered s).length
    | .emitValue =>
      s.dec.err = none ∧ unpackerAt s ∧
        (decRead s).phase = (if (decRead s).out.length < s.dec.count.toNat then .run else .finished) ∧
        (decRead s).acc = 0 ∧ s.dec.val = (decRead s).prev ∧ s.dec.prev = (decRead s).prev ∧
        (decRead s).out = decDelivered s ++ [s.dec.val] ∧
        (decRead s).out.length ≤ s.dec.count.toNat ∧
        s.dec.produced.toNat = (decDelivered s).length
    | .drain => decEnded s
    | .done => decEnded s ∧ s.dec.err = none ∧ s.dec.bytesIn = s.dec.len ∧ s.dec.poValid = false
    | .error => decEnded s ∧ s.dec.err ≠ none ∧ s.dec.bytesIn = s.dec.len ∧ s.dec.poValid = false)

/-! ## Waiting and progress (R248, R281, R380) -/

/-- ENC waits on the host: for a pixel, or for a byte to be taken (R245, R248, R380). -/
def encWaits (s : State) : Bool :=
  match s.enc.state with
  | .accept => decide (s.enc.index < s.enc.count) && s.host.encOffer.isNone
  | .emitRun => s.enc.pPend && s.enc.obValid
  | .emitCode => s.enc.pPend && s.enc.obValid
  | .emitTail => s.enc.pPend && s.enc.obValid
  | .flush => s.enc.obValid
  | .idle => false
  | .done => false

/-- DEC waits on the host: for a byte, or for a pixel to be taken (R281, R380). -/
def decWaits (s : State) : Bool :=
  match s.dec.state with
  | .runGroup => !s.dec.loPend && decide (s.dec.bytesIn < s.dec.len) && s.host.decOffer.isNone
  | .codeGroup => !s.dec.loPend && decide (s.dec.bytesIn < s.dec.len) && s.host.decOffer.isNone
  | .emitZeros => decide (s.dec.zrem ≠ 0) && s.dec.poValid
  | .emitValue => s.dec.poValid
  | .drain =>
    if s.dec.bytesIn < s.dec.len then s.host.decOffer.isNone else s.dec.poValid
  | .idle => false
  | .done => false
  | .error => false

/-- A bound on the steps ENC's job still needs: 20 for a pixel to come (one step, at most 11 + 6 nibbles), and the
rest of the group, the tail and the flush (R248). -/
def encLeft (e : Enc) : Nat :=
  match e.state with
  | .accept => 20 * (e.count.toNat - e.index.toNat) + 16
  | .emitRun => 20 * (e.count.toNat - e.index.toNat) + 23 + (e.vK.toNat - e.vJ.toNat)
  | .emitCode => 20 * (e.count.toNat - e.index.toNat) + 16 + (e.vK.toNat - e.vJ.toNat)
  | .emitTail => 4 + (e.vK.toNat - e.vJ.toNat)
  | .flush => if e.pPend then 2 else 1
  | .idle => 0
  | .done => 0

/-- A bound on the steps DEC's job still needs: by nibbles to read, pixels to deliver and bytes to take (R281). -/
def decLeft (d : Dec) : Nat :=
  4 * (2 * d.len.toNat - d.nibbles.toNat) + 4 * (d.count.toNat - d.produced.toNat) + (d.len.toNat - d.bytesIn.toNat) +
    (match d.state with
      | .runGroup => 2
      | .emitZeros => 3
      | .codeGroup => 2
      | .emitValue => 2
      | .drain => 1
      | .idle => 0
      | .done => 0
      | .error => 0)

/-! ## Endless runs and fairness (R379) -/

/-- An endless run of the machine: step k is the move `moves k`. The moves come one at a time and in any order (R13,
R379); an agenda names only finitely many, so each is named as its step comes. -/
def EndlessRun (moves : Nat → Move) (run : Nat → State) : Prop :=
  ∀ k, step { run k with agenda := [moves k] } = .next (run (k + 1))

/-- A step that stays enabled is eventually taken (R379). -/
def EventuallyTaken (enabled : State → Prop) (taken : Move → Prop) (moves : Nat → Move) (run : Nat → State) : Prop :=
  ∀ k, (∀ j, k ≤ j → enabled (run j)) → ∃ j, k ≤ j ∧ taken (moves j)

/-- ENC has an enabled step: its state has one, and it does not wait on the host (R248). -/
def encEnabled (s : State) : Prop := encNext s.enc ≠ none ∧ encWaits s = false

/-- DEC has an enabled step (R281). -/
def decEnabled (s : State) : Prop := decNext s.dec ≠ none ∧ decWaits s = false

/-- Weak fairness of the engines (R379). The command unit takes a command at once (R300), so no step of it is ever kept
waiting, and the host's steps are its liberties, and its duties below. -/
def WeaklyFair (moves : Nat → Move) (run : Nat → State) : Prop :=
  EventuallyTaken encEnabled (· = .enc) moves run ∧ EventuallyTaken decEnabled (· = .dec) moves run

/-- The host's duties to an encode job: it takes every byte, and offers a pixel while one is missing (R370, R371). -/
def HostServesEnc (moves : Nat → Move) (run : Nat → State) : Prop :=
  EventuallyTaken (fun s => s.enc.obValid = true) (fun m => sendItem .encTake = [m]) moves run ∧
  EventuallyTaken (fun s => encWantsPixel s.enc = true ∧ s.host.encOffer = none)
    (fun m => ∃ p, sendItem (.encPixelIn p) = [m]) moves run

/-- The host's duties to a decode job: it takes every pixel, and offers a byte while one is missing (R370, R371). -/
def HostServesDec (moves : Nat → Move) (run : Nat → State) : Prop :=
  EventuallyTaken (fun s => s.dec.poValid = true) (fun m => sendItem .decTake = [m]) moves run ∧
  EventuallyTaken (fun s => decWantsByte s.dec = true ∧ s.host.decOffer = none)
    (fun m => ∃ b, sendItem (.decByteIn b) = [m]) moves run

end Sys2Proof.Machine
end

