-- ==== Sys2Proof/Certificates/Slice0/Obligations.lean ====
section
/-! DEFINITION. The statements for the provers, in the order of OBLIGATIONS.json. A next state is written as the whole
state, so each equation says the result, the frame and that the instruction completes. The fields `ret`, `agenda`, `turn`,
`turnsTaken`, `resets` and the host's records are the model's own (logs 1, 5, 7, 8); where a clause leaves such a field open
it says so. -/

section

open Sys2Proof Sys2Proof.Machine

/-! ## Encoding -/

/-- The decoder gives back every well-formed instruction that has an item, with every operand. -/
def Obligations.DecodeInvertsEncode : Prop :=
  ∀ (i : Instr) (it : Item), WellFormed i = true → encode i = some it → decode it = .ok i

/-- Every item the decoder reads is the item of the instruction it gives, which is well formed; and it refuses exactly
the items with a bit beyond their width (the refusal is log 15's). -/
def Obligations.DecodeIsExact : Prop :=
  ∀ it : Item,
    (∀ i, decode it = .ok i → encode i = some it ∧ WellFormed i = true) ∧
    (∀ b, decode it = .error b ↔ b = .tooWide it.format ∧ 2 ^ formatWidth it.format ≤ it.bits.toNat)

/-- Words written out from the spec's encodings decode to what they stand for. -/
def Obligations.DecodesSpecWords : Prop :=
  decode ⟨.cmd68, 0x00000003400000000#72⟩ = .ok (.encStart 13 0) ∧
  decode ⟨.cmd68, 0x40000003400000006#72⟩ = .ok (.decStart 13 6) ∧
  decode ⟨.cmd68, 0x80000000000000000#72⟩ = .ok (.cmdReserved10 0 0) ∧
  decode ⟨.cmd68, 0xC0000000000000000#72⟩ = .ok (.cmdReserved11 0 0) ∧
  decode ⟨.nibble4, 0b0111#72⟩ = .ok (.nibTerm 0b111) ∧
  decode ⟨.nibble4, 0b1001#72⟩ = .ok (.nibCont 0b001) ∧
  decode ⟨.byte8, 0x92#72⟩ = .ok (.streamByte 0x9 0x2) ∧
  decode ⟨.pixel16, 0xFFFF#72⟩ = .ok (.pixel 65535)

/-! ## One step -/

/-- When the next move is an item that decodes to i, the step is exec of i in the state without that move (log 1). -/
def Obligations.StepRunsDecodedItem : Prop :=
  ∀ (s : State) (it : Item) (rest : List Move) (i : Instr),
    s.agenda = .item it :: rest → decode it = .ok i → step s = exec i { s with agenda := rest }

/-- When the next move is an engine's turn, the step is the engine step of its state, and nothing in IDLE, DONE and
ERROR (with E_INDEX above E_COUNT, which no run reaches, nothing: log 25). With no move named, the turns come in rows of
one engine whose lengths are not known, and, from any such state, each engine's turn comes after some steps (log 1). -/
def Obligations.StepTakesEngineTurns : Prop :=
  ∀ (s : State) (rest : List Move),
    (s.agenda = .enc :: rest →
      step s =
        match s.enc.state with
        | .idle => .next { s with agenda := rest }
        | .accept =>
          if s.enc.index < s.enc.count then exec .encAcceptPixel { s with agenda := rest }
          else if s.enc.index = s.enc.count then exec .encAcceptEnd { s with agenda := rest }
          else .next { s with agenda := rest }
        | .emitRun => exec .encEmitRun { s with agenda := rest }
        | .emitCode => exec .encEmitCode { s with agenda := rest }
        | .emitTail => exec .encEmitTail { s with agenda := rest }
        | .flush => exec .encFlush { s with agenda := rest }
        | .done => .next { s with agenda := rest }) ∧
    (s.agenda = .dec :: rest →
      step s =
        match s.dec.state with
        | .idle => .next { s with agenda := rest }
        | .runGroup => exec .decRunGroup { s with agenda := rest }
        | .emitZeros => exec .decEmitZeros { s with agenda := rest }
        | .codeGroup => exec .decCodeGroup { s with agenda := rest }
        | .emitValue => exec .decEmitValue { s with agenda := rest }
        | .drain => exec .decDrain { s with agenda := rest }
        | .done => .next { s with agenda := rest }
        | .error => .next { s with agenda := rest }) ∧
    (s.agenda = [] → s.turnsTaken < turnsOf s.turn →
      step s = step { s with agenda := [turnOf s.turn], turnsTaken := s.turnsTaken + 1 }) ∧
    (s.agenda = [] → ¬s.turnsTaken < turnsOf s.turn →
      step s = step { s with agenda := [turnOf (s.turn + 1)], turn := s.turn + 1, turnsTaken := 1 }) ∧
    (s.agenda = [] → ∀ m : Move, m = .enc ∨ m = .dec →
      ∃ k t, runSteps k s = .next t ∧ t.agenda = [] ∧ (nextMove t).1 = m)

/-- Every instruction answers a next state in every state, leaving the order of the steps to come as it is; and a step
stops only at an item that does not exist (log 15). -/
def Obligations.OnlyAnOverwideItemStops : Prop :=
  (∀ (i : Instr) (s : State), ∃ t,
    exec i s = .next t ∧ t.agenda = s.agenda ∧ t.turn = s.turn ∧ t.turnsTaken = s.turnsTaken ∧
      t.resets = s.resets + if i = .reset then 1 else 0) ∧
  (∀ s : State,
    (∀ r, step s ≠ .refused r) ∧
    (∀ f, step s = .fault f ↔
      ∃ it rest, s.agenda = .item it :: rest ∧ 2 ^ formatWidth it.format ≤ it.bits.toNat ∧
        f = .noSuchItem (.tooWide it.format)))

/-! ## Commands -/

/-- ENC_START (R301): BUSY in the five running states, changing CMD_ERR alone; in IDLE and DONE it sets every register
of ENC, and CMD_ERR to OK. A job of 0 pixels goes ACCEPT, FLUSH, DONE. The host's records of ENC are left open. -/
def Obligations.EncStartBeginsAJob : Prop :=
  (∀ (count : Count) (len : Length) (s : State),
    (s.enc.state = .accept ∨ s.enc.state = .emitRun ∨ s.enc.state = .emitCode ∨ s.enc.state = .emitTail ∨
        s.enc.state = .flush →
      exec (.encStart count len) s = .next { s with cmdErr := .busy }) ∧
    (s.enc.state = .idle ∨ s.enc.state = .done →
      ∃ sent got,
        exec (.encStart count len) s =
          .next { s with
            enc :=
              { state := .accept, count := count, index := 0, bytes := 0, run := 0, pix := 0, prev := 0, vSrc := 0,
                vK := 0, vJ := 0, pPend := false, pHi := 0, ob := 0, obValid := false }
            cmdErr := .ok
            host := { s.host with encSent := sent, encGot := got } })) ∧
  (∀ (len : Length) (s : State), s.enc.state = .idle ∨ s.enc.state = .done →
    ∃ t u v,
      exec (.encStart 0 len) s = .next t ∧
      encNext t.enc = some .encAcceptEnd ∧ exec .encAcceptEnd t = .next u ∧ u.enc.state = .flush ∧
      encNext u.enc = some .encFlush ∧ exec .encFlush u = .next v ∧ v.enc.state = .done ∧ encNext v.enc = none ∧
      v.enc.obValid = false ∧ v.enc.bytes = 0 ∧ v.host.encOffer = s.host.encOffer) ∧
  encode (.encStart 13 0) = some ⟨.cmd68, 0x00000003400000000#72⟩

/-- DEC_START (R302): BUSY in the five running states, changing CMD_ERR alone; in IDLE, DONE and ERROR it sets every
register of DEC, and CMD_ERR to OK, and goes to RUN_GROUP, or to DRAIN for COUNT = 0. With LEN = 0 and COUNT > 0 the job
ends in ERROR with TRUNCATED at its first nibble. The host's records of DEC are left open. -/
def Obligations.DecStartBeginsAJob : Prop :=
  (∀ (count : Count) (len : Length) (s : State),
    (s.dec.state = .runGroup ∨ s.dec.state = .emitZeros ∨ s.dec.state = .codeGroup ∨ s.dec.state = .emitValue ∨
        s.dec.state = .drain →
      exec (.decStart count len) s = .next { s with cmdErr := .busy }) ∧
    (s.dec.state = .idle ∨ s.dec.state = .done ∨ s.dec.state = .error →
      ∃ sent got,
        exec (.decStart count len) s =
          .next { s with
            dec :=
              { state := if 0 < count.toNat then .runGroup else .drain, err := none, count := count, len := len,
                produced := 0, bytesIn := 0, nibbles := 0, prev := 0, zrem := 0, val := 0, acc := 0, ovf := false,
                loPend := false, lo := 0, po := 0, poValid := false }
            cmdErr := .ok
            host := { s.host with decSent := sent, decGot := got } })) ∧
  (∀ (count : Count) (s : State), 0 < count.toNat →
    s.dec.state = .idle ∨ s.dec.state = .done ∨ s.dec.state = .error →
    ∃ t u v,
      exec (.decStart count 0) s = .next t ∧
      decNext t.dec = some .decRunGroup ∧ exec .decRunGroup t = .next u ∧
      decNext u.dec = some .decDrain ∧ exec .decDrain u = .next v ∧
      v.dec.state = .error ∧ v.dec.err = some .truncated ∧ v.dec.nibbles = 0) ∧
  encode (.decStart 13 6) = some ⟨.cmd68, 0x40000003400000006#72⟩

/-- A reserved command (R303) writes CMD_ERR <- RESERVED_OP and nothing else, whatever COUNT and LEN. -/
def Obligations.ReservedCommandsAreRejected : Prop :=
  (∀ (count : Count) (len : Length) (s : State),
    exec (.cmdReserved10 count len) s = .next { s with cmdErr := .reservedOp } ∧
    exec (.cmdReserved11 count len) s = .next { s with cmdErr := .reservedOp }) ∧
  cmdErrCode .reservedOp = 1 ∧
  decode ⟨.cmd68, 0x80000000000000000#72⟩ = .ok (.cmdReserved10 0 0)

/-! ## The host's moves, and reset -/

/-- ENC_PIXEL_IN and DEC_BYTE_IN put the item on offer. While an earlier offer stands, nothing changes: the model's
choice (log 4). A step leaves a standing offer as it is, unless the engine takes it in that step, where it wants one, or
the step is a reset (where the host may withdraw it: log 5). -/
def Obligations.OffersAreHeld : Prop :=
  (∀ (v : Pixel) (b : Byte) (s : State),
    (s.host.encOffer = none → exec (.encPixelIn v) s = .next { s with host := { s.host with encOffer := some v } }) ∧
    (s.host.encOffer ≠ none → exec (.encPixelIn v) s = .next s) ∧
    (s.host.decOffer = none → exec (.decByteIn b) s = .next { s with host := { s.host with decOffer := some b } }) ∧
    (s.host.decOffer ≠ none → exec (.decByteIn b) s = .next s)) ∧
  (∀ (s t : State), step s = .next t → (∀ rest, s.agenda ≠ sendItem .reset ++ rest) →
    (∀ p, s.host.encOffer = some p →
      t.host.encOffer = some p ∨
      (t.host.encOffer = none ∧ t.host.encSent = s.host.encSent ++ [p] ∧ s.enc.state = .accept ∧
        s.enc.index < s.enc.count ∧ t.enc.index = s.enc.index + 1)) ∧
    (∀ b, s.host.decOffer = some b →
      t.host.decOffer = some b ∨
      (t.host.decOffer = none ∧ t.host.decSent = s.host.decSent ++ [b] ∧ decWantsByte s.dec = true ∧
        t.dec.bytesIn = s.dec.bytesIn + 1)))

/-- ENC_TAKE (R310) and DEC_TAKE (R311): the host receives OB and E_BYTES rises, or receives PO; not enabled, nothing
changes. Pixels are a result only at DONE. -/
def Obligations.TakesDeliver : Prop :=
  ∀ s : State,
    (s.enc.obValid = true →
      exec .encTake s =
        .next { s with
          enc := { s.enc with obValid := false, bytes := s.enc.bytes + 1 }
          host := { s.host with encGot := s.host.encGot ++ [s.enc.ob] } }) ∧
    (s.enc.obValid = false → exec .encTake s = .next s) ∧
    (s.dec.poValid = true →
      exec .decTake s =
        .next { s with
          dec := { s.dec with poValid := false }
          host := { s.host with decGot := s.host.decGot ++ [s.dec.po] } }) ∧
    (s.dec.poValid = false → exec .decTake s = .next s) ∧
    (∀ out, decodeResult s = some (.ok out) ↔ s.dec.state = .done ∧ out = s.host.decGot)

/-- STATUS_READ (R320, R321): the host receives the 36-bit value of register SEL, its field in the low bits, and 0 for
SEL 12 to 15; nothing else changes. The codes are those of R22, R26 and R330. -/
def Obligations.StatusReadsReturnRegisters : Prop :=
  (∀ (sel : BitVec 4) (s : State), ∃ v : BitVec 36,
    exec (.statusRead sel) s = .next { s with host := { s.host with status := v } } ∧
    exec (.statusReadUnused sel) s = .next { s with host := { s.host with status := v } } ∧
    some v.toNat =
      [ (cmdErrCode s.cmdErr).toNat, (encStateCode s.enc.state).toNat, s.enc.count.toNat, s.enc.index.toNat,
        s.enc.bytes.toNat, (decStateCode s.dec.state).toNat, (errCode s.dec.err).toNat, s.dec.count.toNat,
        s.dec.len.toNat, s.dec.produced.toNat, s.dec.bytesIn.toNat, s.dec.nibbles.toNat, 0, 0, 0, 0 ][sel.toNat]?) ∧
  [CmdErr.ok, .reservedOp, .busy].map cmdErrCode = [0, 1, 2] ∧
  [EncState.idle, .accept, .emitRun, .emitCode, .emitTail, .flush, .done].map encStateCode = [0, 1, 2, 3, 4, 5, 6] ∧
  [DecState.idle, .runGroup, .emitZeros, .codeGroup, .emitValue, .drain, .done, .error].map decStateCode =
    [0, 1, 2, 3, 4, 5, 6, 7] ∧
  [none, some ErrCode.truncated, some .overrun, some .outOfRange].map errCode = [0, 1, 2, 3]

/-- RESET (R360, R361): from any state, every register 0; the host's offers are not taken, and it holds or withdraws each,
which is not known (log 5); the host receives nothing, so a byte in OB and a pixel in PO are lost; the jobs it cuts off
have no result, neither engine has a step, and every status register reads 0. None of the host's records gains an item; what
else becomes of them, and the model's counter `resets`, are left open. -/
def Obligations.ResetRestoresResetValues : Prop :=
  ∀ s : State, ∃ eo dO es eg ds dg r t,
    exec .reset s = .next t ∧
    (eo = s.host.encOffer ∨ eo = none) ∧ (dO = s.host.decOffer ∨ dO = none) ∧
    es <+: s.host.encSent ∧ eg <+: s.host.encGot ∧ ds <+: s.host.decSent ∧ dg <+: s.host.decGot ∧
    t =
      { s with
        enc :=
          { state := .idle, count := 0, index := 0, bytes := 0, run := 0, pix := 0, prev := 0, vSrc := 0, vK := 0,
            vJ := 0, pPend := false, pHi := 0, ob := 0, obValid := false }
        dec :=
          { state := .idle, err := none, count := 0, len := 0, produced := 0, bytesIn := 0, nibbles := 0, prev := 0,
            zrem := 0, val := 0, acc := 0, ovf := false, loPend := false, lo := 0, po := 0, poValid := false }
        cmdErr := .ok
        host := { encOffer := eo, decOffer := dO, encSent := es, encGot := eg, decSent := ds, decGot := dg,
                  status := s.host.status }
        resets := r } ∧
    t.enc = State.reset.enc ∧ t.dec = State.reset.dec ∧ t.cmdErr = State.reset.cmdErr ∧
    encodeResult t = none ∧ decodeResult t = none ∧ encNext t.enc = none ∧ decNext t.dec = none ∧
    ∀ sel, statusValue t sel = 0

/-! ## The item formats -/

/-- NIB_TERM and NIB_CONT: in a group, the item is read when it is the nibble UP_READ returns, pending or in the byte on
offer; otherwise nothing changes. That the rows mean this step is the model's choice (log 9). -/
def Obligations.NibbleItemsAreReadByDec : Prop :=
  ∀ (c : Bool) (p : BitVec 3) (s : State),
    let i : Instr := if c then .nibCont p else .nibTerm p
    let finish : Dec → Dec := if s.dec.state = .runGroup then overrunCheck else rangeCheck
    (s.dec.state = .runGroup ∨ s.dec.state = .codeGroup → s.dec.loPend = true → s.dec.lo = mkNibble c p →
      exec i s = .next { s with dec := afterNibble finish (mkNibble c p) { s.dec with loPend := false } }) ∧
    (s.dec.state = .runGroup ∨ s.dec.state = .codeGroup → s.dec.loPend = false → s.dec.bytesIn < s.dec.len →
      ∀ b, s.host.decOffer = some b → hiNibble b = mkNibble c p →
        exec i s =
          .next { s with
            dec := afterNibble finish (mkNibble c p)
              { s.dec with bytesIn := s.dec.bytesIn + 1, lo := loNibble b, loPend := true }
            host := { s.host with decOffer := none, decSent := s.host.decSent ++ [b] } }) ∧
    (¬((s.dec.state = .runGroup ∨ s.dec.state = .codeGroup) ∧ nextNibble s = some (mkNibble c p)) →
      exec i s = .next s)

/-- STREAM_BYTE and PIXEL pass an item from the host to an engine that is ready for it, with no other on offer, in one
joint step, and change nothing otherwise; STATUS_SEL reads a status register. That the rows mean this is the model's
choice (log 9). -/
def Obligations.ByteAndPixelItemsTransfer : Prop :=
  (∀ (hi lo : Nibble) (s : State),
    (s.dec.state = .runGroup ∨ s.dec.state = .codeGroup → s.dec.loPend = false → s.dec.bytesIn < s.dec.len →
      s.host.decOffer = none →
        exec (.streamByte hi lo) s =
          .next { s with
            dec := afterNibble (if s.dec.state = .runGroup then overrunCheck else rangeCheck) hi
              { s.dec with bytesIn := s.dec.bytesIn + 1, lo := lo, loPend := true }
            host := { s.host with decSent := s.host.decSent ++ [byteOf hi lo] } }) ∧
    (s.dec.state = .drain → s.dec.bytesIn < s.dec.len → s.host.decOffer = none →
      exec (.streamByte hi lo) s =
        .next { s with
          dec := { s.dec with bytesIn := s.dec.bytesIn + 1 }
          host := { s.host with decSent := s.host.decSent ++ [byteOf hi lo] } }) ∧
    (decWantsByte s.dec = false ∨ s.host.decOffer ≠ none → exec (.streamByte hi lo) s = .next s)) ∧
  (∀ (v : Pixel) (s : State),
    (s.enc.state = .accept → s.enc.index < s.enc.count → s.host.encOffer = none →
      exec (.pixel v) s =
        .next { s with
          enc :=
            if v = 0 then { s.enc with index := s.enc.index + 1, run := s.enc.run + 1 }
            else
              { s.enc with
                index := s.enc.index + 1, pix := v, vSrc := s.enc.run, vK := BitVec.ofNat 4 (octLen s.enc.run.toNat),
                vJ := 0, state := .emitRun }
          host := { s.host with encSent := s.host.encSent ++ [v] } }) ∧
    (¬(s.enc.state = .accept ∧ s.enc.index < s.enc.count ∧ s.host.encOffer = none) → exec (.pixel v) s = .next s)) ∧
  (∀ (sel : BitVec 4) (s : State),
    exec (.statusSel sel) s = .next { s with host := { s.host with status := statusValue s sel } })

/-! ## The functions -/

/-- VLE(v) (R110): max(1, ceil(bitlen(v)/3)) nibbles, the digits of v in base 8 from the most significant, C = 1 on every
nibble but the last. -/
def Obligations.VleGivesTheDigits : Prop :=
  ∀ (v : Nat) (s : State), v < 2 ^ 32 →
    ∃ l : List Nibble,
      exec (.vle v) s = .next { s with ret := .nibbles l } ∧
      l.length = max 1 ((Nat.size v + 2) / 3) ∧
      ∀ (j : Nat) (n : Nibble), l[j]? = some n →
        (contBit n = true ↔ j < l.length - 1) ∧ (payload n).toNat = v / 8 ^ (l.length - 1 - j) % 8

/-- Pack(l) (R130) and Unpack(B) (R150): two nibbles a byte, high nibble first, 0 for a missing low one. -/
def Obligations.PackAndUnpackKeepNibbleOrder : Prop :=
  (∀ (l : List Nibble) (s : State), ∃ bs : List Byte,
    exec (.pack l) s = .next { s with ret := .bytes bs } ∧
    bs.length = (l.length + 1) / 2 ∧
    ∀ (k : Nat) (b : Byte), bs[k]? = some b →
      b.toNat = 16 * (l[2 * k]?.getD 0).toNat + (l[2 * k + 1]?.getD 0).toNat) ∧
  (∀ (bs : List Byte) (s : State), ∃ l : List Nibble,
    exec (.unpack bs) s = .next { s with ret := .nibbles l } ∧
    l.length = 2 * bs.length ∧
    ∀ (k : Nat) (b : Byte), bs[k]? = some b →
      l[2 * k]?.map BitVec.toNat = some (b.toNat / 16) ∧ l[2 * k + 1]?.map BitVec.toNat = some (b.toNat % 16))

/-- VLD(l, p) (R170): from position p, nibbles up to the first with C = 0 give the value of their digits and the position
after it; without one, TRUNCATED. -/
def Obligations.VldReadsOneGroup : Prop :=
  ∀ (l : List Nibble) (p : Nat) (s : State), p ≤ l.length →
    (∀ (g : List Nibble) (n : Nibble) (t : List Nibble),
      l.drop p = g ++ n :: t → (∀ m ∈ g, contBit m = true) → contBit n = false →
        exec (.vld l p) s =
          .next { s with
            ret := .group ((g ++ [n]).foldl (fun acc m => acc * 8 + (payload m).toNat) 0) (p + g.length + 1) }) ∧
    ((∀ m ∈ l.drop p, contBit m = true) → exec (.vld l p) s = .next { s with ret := .failed .truncated })

/-- ZZ(d) (R190) and UNZZ(c) (R195). -/
def Obligations.ZigzagMapsAreTheFormulas : Prop :=
  (∀ (d : Int) (s : State), ∃ c : Nat,
    exec (.zz d) s = .next { s with ret := .code c } ∧ (c : Int) = if 0 ≤ d then 2 * d else -2 * d - 1) ∧
  (∀ (c : Nat) (s : State),
    exec (.unzz c) s = .next { s with ret := .int (if c % 2 = 0 then (c : Int) / 2 else -(((c : Int) + 1) / 2)) })

/-- IS_ZERO(p) (R211), DELTA(p, prev) (R212) and RECON(prev, delta) (R213): the test, the exact sums, and the range of an
encoder's delta. R212 gives DELTA a nonzero pixel; at p = 0 the clause is the model's (log 22). -/
def Obligations.PredictorArithmeticIsExact : Prop :=
  (∀ (p : Pixel) (s : State), exec (.isZero p) s = .next { s with ret := .truth (decide (p.toNat = 0)) }) ∧
  (∀ (p prev : Pixel) (s : State),
    exec (.delta p prev) s = .next { s with ret := .int ((p.toNat : Int) - prev.toNat) } ∧
    (p ≠ 0 → -65534 ≤ (p.toNat : Int) - prev.toNat ∧ (p.toNat : Int) - prev.toNat ≤ 65535)) ∧
  (∀ (prev : Pixel) (d : Int) (s : State),
    ((prev.toNat : Int) + d < 0 ∨ 65535 < (prev.toNat : Int) + d →
      exec (.recon prev d) s = .next { s with ret := .failed .outOfRange }) ∧
    (0 ≤ (prev.toNat : Int) + d → (prev.toNat : Int) + d ≤ 65535 →
      ∃ v : Pixel, exec (.recon prev d) s = .next { s with ret := .recon v } ∧
        (v.toNat : Int) = (prev.toNat : Int) + d))

/-- RVL_Encode(S) (R230): Pack of the nibbles `nibs` of the loop, which is fixed by its three cases: nothing left, only
zeros left, or a run of zeros and a nonzero pixel. -/
def Obligations.RvlEncodeIsTheLoop : Prop :=
  ∃ nibs : Pixel → List Pixel → List Nibble,
    (∀ prev, nibs prev [] = []) ∧
    (∀ prev n, 0 < n → nibs prev (List.replicate n 0) = vle n) ∧
    (∀ prev run value rest, value ≠ 0 →
      nibs prev (List.replicate run 0 ++ value :: rest) = vle run ++ vle (zz (delta value prev)) ++ nibs value rest) ∧
    (∀ (pixels : List Pixel) (s : State),
      exec (.rvlEncode pixels) s = .next { s with ret := .bytes (pack (nibs 0 pixels)) })

/-- RVL_Decode(B, N) (R260): the value of the loop from p = 0, prev = 0 and out = [], where `loop` unfolds as one pass
of the while loop says. -/
def Obligations.RvlDecodeIsTheLoop : Prop :=
  ∃ loop : List Nibble → Nat → Nat → Pixel → List Pixel → Except ErrCode (List Pixel),
    (∀ l n p prev out, p ≤ l.length →
      loop l n p prev out =
        if out.length < n then
          match vld l p with
          | .error e => .error e
          | .ok (run, p1) =>
            if n < out.length + run then .error .overrun
            else if out.length + run < n then
              match vld l p1 with
              | .error e => .error e
              | .ok (code, p2) =>
                match recon prev (unzz code) with
                | .error e => .error e
                | .ok v => loop l n p2 v (out ++ List.replicate run 0 ++ [v])
            else loop l n p1 prev (out ++ List.replicate run 0)
        else .ok out) ∧
    (∀ (bytes : List Byte) (count : Count) (s : State),
      exec (.rvlDecode bytes count) s =
        .next { s with
          ret :=
            match loop (unpack bytes) count.toNat 0 0 [] with
            | .ok out => .pixels out
            | .error e => .failed e })

/-! ## The internal operations -/

/-- VLE_LOAD(v) (R114): V_SRC, the number of digits in V_K, and V_J = 0. -/
def Obligations.VleLoadStartsAGroup : Prop :=
  ∀ (v : BitVec 32) (s : State), ∃ k : BitVec 4,
    k.toNat = max 1 ((Nat.size v.toNat + 2) / 3) ∧
    exec (.vleLoad v) s = .next { s with enc := { s.enc with vSrc := v, vK := k, vJ := 0 } }

/-- VLE_EMIT (R115): the next digit with its continuation bit goes to PK_WRITE, V_J rises, and `last` is told; with no
room nothing changes. For V_J below V_K the digit is the rule's, and the nibbles are those of VLE(V_SRC); beyond, the
payload is left open (log 10). -/
def Obligations.VleEmitGivesTheNextNibble : Prop :=
  ∀ s : State, ∃ n : Nibble,
    (contBit n = true ↔ s.enc.vJ.toNat + 1 < s.enc.vK.toNat) ∧
    (s.enc.vJ.toNat < s.enc.vK.toNat →
      (payload n).toNat = s.enc.vSrc.toNat / 8 ^ (s.enc.vK.toNat - 1 - s.enc.vJ.toNat) % 8) ∧
    (∀ v : Nat, s.enc.vSrc.toNat = v → s.enc.vK.toNat = octLen v → s.enc.vJ.toNat < octLen v →
      (vle v)[s.enc.vJ.toNat]? = some n) ∧
    (s.enc.pPend = false →
      exec .vleEmit s =
        .next { s with
          enc := { s.enc with vJ := s.enc.vJ + 1, pHi := n, pPend := true }
          ret := .emitted n (decide (s.enc.vJ.toNat + 1 = s.enc.vK.toNat)) }) ∧
    (s.enc.pPend = true → s.enc.obValid = false →
      exec .vleEmit s =
        .next { s with
          enc := { s.enc with vJ := s.enc.vJ + 1, ob := byteOf s.enc.pHi n, obValid := true, pPend := false }
          ret := .emitted n (decide (s.enc.vJ.toNat + 1 = s.enc.vK.toNat)) }) ∧
    (s.enc.pPend = true → s.enc.obValid = true → exec .vleEmit s = .next s)

/-- PK_WRITE(n) (R131): a first nibble waits; a second completes a byte in OB; with OB full nothing changes. -/
def Obligations.PkWritePairsNibbles : Prop :=
  ∀ (n : Nibble) (s : State),
    (s.enc.pPend = false → exec (.pkWrite n) s = .next { s with enc := { s.enc with pHi := n, pPend := true } }) ∧
    (s.enc.pPend = true → s.enc.obValid = false →
      ∃ b : Byte, b.toNat = 16 * s.enc.pHi.toNat + n.toNat ∧
        exec (.pkWrite n) s = .next { s with enc := { s.enc with ob := b, obValid := true, pPend := false } }) ∧
    (s.enc.pPend = true → s.enc.obValid = true → exec (.pkWrite n) s = .next s)

/-- PK_FLUSH (R132): in FLUSH, a pending nibble goes out over a zero low half; otherwise, and in every other state, where
it is not enabled, nothing changes. PK_CLEAR (R133) clears the packer, as an accepted ENC_START has done. -/
def Obligations.PkFlushPadsAndPkClearClears : Prop :=
  ∀ s : State,
    (s.enc.state = .flush → s.enc.pPend = true → s.enc.obValid = false →
      ∃ b : Byte, b.toNat = 16 * s.enc.pHi.toNat ∧
        exec .pkFlush s = .next { s with enc := { s.enc with ob := b, obValid := true, pPend := false } }) ∧
    (s.enc.state ≠ .flush ∨ s.enc.pPend = false ∨ s.enc.obValid = true → exec .pkFlush s = .next s) ∧
    exec .pkClear s =
      .next { s with enc := { s.enc with pPend := false, pHi := 0, ob := 0, obValid := false } } ∧
    (∀ count len t, s.enc.state = .idle ∨ s.enc.state = .done → exec (.encStart count len) s = .next t →
      exec .pkClear t = .next t)

/-- UP_READ (R151): the pending low nibble; or the high nibble of the byte it takes; or END; with no byte on offer
nothing changes. -/
def Obligations.UpReadReturnsTheNextNibble : Prop :=
  ∀ s : State,
    (s.dec.loPend = true →
      exec .upRead s = .next { s with dec := { s.dec with loPend := false }, ret := .nibble s.dec.lo }) ∧
    (s.dec.loPend = false → s.dec.bytesIn < s.dec.len → ∀ b, s.host.decOffer = some b →
      exec .upRead s =
        .next { s with
          dec := { s.dec with bytesIn := s.dec.bytesIn + 1, lo := loNibble b, loPend := true }
          host := { s.host with decOffer := none, decSent := s.host.decSent ++ [b] }
          ret := .nibble (hiNibble b) }) ∧
    (s.dec.loPend = false → s.dec.bytesIn < s.dec.len → s.host.decOffer = none → exec .upRead s = .next s) ∧
    (s.dec.loPend = false → ¬s.dec.bytesIn < s.dec.len → exec .upRead s = .next { s with ret := .endOfBuffer }) ∧
    (∀ b : Byte, (hiNibble b).toNat = b.toNat / 16 ∧ (loNibble b).toNat = b.toNat % 16)

/-- UP_DISCARD (R152), in DRAIN, takes a byte and drops it; otherwise, and in every other state, where it is not enabled,
nothing changes. UP_CLEAR (R153) puts the cursor at the start of the buffer, as an accepted DEC_START has done. -/
def Obligations.UpDiscardDropsAndUpClearClears : Prop :=
  ∀ s : State,
    (s.dec.state = .drain → s.dec.bytesIn < s.dec.len → ∀ b, s.host.decOffer = some b →
      exec .upDiscard s =
        .next { s with
          dec := { s.dec with bytesIn := s.dec.bytesIn + 1 }
          host := { s.host with decOffer := none, decSent := s.host.decSent ++ [b] } }) ∧
    (s.dec.state ≠ .drain ∨ ¬s.dec.bytesIn < s.dec.len ∨ s.host.decOffer = none → exec .upDiscard s = .next s) ∧
    exec .upClear s = .next { s with dec := { s.dec with loPend := false, lo := 0, bytesIn := 0 } } ∧
    (∀ count len t, s.dec.state = .idle ∨ s.dec.state = .done ∨ s.dec.state = .error →
      exec (.decStart count len) s = .next t → exec .upClear t = .next t)

/-- VLD_START and VLD_STEP(n) (R171): the accumulator times 8 plus the digit, kept to 32 bits; the overflow sticky, set
when bits 31 to 29 are not 0; one more nibble counted; done when C = 0. -/
def Obligations.VldStartAndStepAccumulate : Prop :=
  ∀ (n : Nibble) (s : State),
    exec .vldStart s = .next { s with dec := { s.dec with acc := 0, ovf := false } } ∧
    exec (.vldStep n) s =
      .next { s with
        dec :=
          { s.dec with
            ovf := s.dec.ovf || decide (2 ^ 29 ≤ s.dec.acc.toNat)
            acc := BitVec.ofNat 32 (s.dec.acc.toNat * 8 + n.toNat % 8)
            nibbles := s.dec.nibbles + 1 }
        ret := .groupDone (decide (n.toNat < 8)) }

/-- PREV_UPDATE (R210) writes the predictor of its engine. In a run, E_PREV changes only to 0, in a step whose move is an
ENC_START or a reset, or to E_PIX at the end of a run group; D_PREV only to 0, in a step whose move is a DEC_START or a
reset, or to D_VAL at the end of a code group. -/
def Obligations.PredictorIsWrittenInTheValuePhase : Prop :=
  (∀ (v : Pixel) (s : State),
    exec (.prevUpdate .enc v) s = .next { s with enc := { s.enc with prev := v } } ∧
    exec (.prevUpdate .dec v) s = .next { s with dec := { s.dec with prev := v } }) ∧
  (∀ (count : Count) (len : Length) (s t : State),
    (s.enc.state = .idle ∨ s.enc.state = .done → exec (.encStart count len) s = .next t → t.enc.prev = 0) ∧
    (s.dec.state = .idle ∨ s.dec.state = .done ∨ s.dec.state = .error →
      exec (.decStart count len) s = .next t → t.dec.prev = 0)) ∧
  (∀ s t : State, step s = .next t →
    (t.enc.prev ≠ s.enc.prev →
      (t.enc.prev = 0 ∧
        ∃ it rest, s.agenda = .item it :: rest ∧
          ((∃ count len, decode it = .ok (.encStart count len) ∧ t.enc.state = .accept ∧ t.enc.index = 0) ∨
            (decode it = .ok .reset ∧ t.enc.state = .idle))) ∨
      (s.enc.state = .emitRun ∧ t.enc.state = .emitCode ∧ t.enc.prev = s.enc.pix)) ∧
    (t.dec.prev ≠ s.dec.prev →
      (t.dec.prev = 0 ∧
        ∃ it rest, s.agenda = .item it :: rest ∧
          ((∃ count len, decode it = .ok (.decStart count len) ∧ t.dec.nibbles = 0 ∧
              (t.dec.state = .runGroup ∨ t.dec.state = .drain)) ∨
            (decode it = .ok .reset ∧ t.dec.state = .idle))) ∨
      (s.dec.state = .codeGroup ∧ t.dec.state = .emitValue ∧ t.dec.prev = t.dec.val)))

/-- OVERRUN_CHECK (R272), with its 34-bit sum: OVERRUN, or the run to D_ZREM and EMIT_ZEROS. -/
def Obligations.OverrunCheckBoundsTheRun : Prop :=
  ∀ s : State,
    (s.dec.ovf = true ∨ s.dec.count.setWidth 34 < s.dec.produced.setWidth 34 + s.dec.acc.setWidth 34 →
      exec .overrunCheck s =
        .next { s with dec := { s.dec with err := some .overrun, poValid := false, state := .drain } }) ∧
    (s.dec.ovf = false → ¬s.dec.count.setWidth 34 < s.dec.produced.setWidth 34 + s.dec.acc.setWidth 34 →
      exec .overrunCheck s = .next { s with dec := { s.dec with zrem := s.dec.acc, state := .emitZeros } })

/-- RANGE_CHECK (R275), with the 32-bit inverse zigzag of R196 and the 33-bit signed sum of R215: OUT_OF_RANGE, or the
value to D_VAL and D_PREV and EMIT_VALUE. -/
def Obligations.RangeCheckBoundsTheValue : Prop :=
  ∀ s : State,
    let d : BitVec 32 := (s.dec.acc >>> 1) ^^^ (if s.dec.acc.getLsbD 0 then 0xFFFFFFFF#32 else 0#32)
    let v : BitVec 33 := d.signExtend 33 + s.dec.prev.setWidth 33
    (s.dec.ovf = true ∨ v.toInt < 0 ∨ 65535 < v.toInt →
      exec .rangeCheck s =
        .next { s with dec := { s.dec with err := some .outOfRange, poValid := false, state := .drain } }) ∧
    (s.dec.ovf = false → 0 ≤ v.toInt → v.toInt ≤ 65535 →
      exec .rangeCheck s =
        .next { s with dec := { s.dec with val := v.setWidth 16, prev := v.setWidth 16, state := .emitValue } })

/-- DEC_ERROR_ENTRY (R331): D_ERR, PO withdrawn, DRAIN, and no other register; the job's result is then the error, once
DEC is in ERROR, and before that there is none. -/
def Obligations.DecodeErrorEntryDrains : Prop :=
  ∀ (code : ErrCode) (s : State),
    exec (.decErrorEntry code) s =
      .next { s with dec := { s.dec with err := some code, poValid := false, state := .drain } } ∧
    (s.dec.state = .drain → decodeResult s = none) ∧
    (s.dec.state = .error → s.dec.err = some code → decodeResult s = some (.error code))

/-! ## The steps of ENC -/

/-- ENC_ACCEPT_PIXEL (R240): takes the pixel on offer; a zero is counted, a nonzero pixel waits in E_PIX while the run
group before it is loaded. With no pixel on offer, or in another state, nothing changes. -/
def Obligations.EncAcceptsAPixel : Prop :=
  ∀ s : State,
    (s.enc.state = .accept → s.enc.index < s.enc.count → ∀ p, s.host.encOffer = some p →
      (p = 0 →
        exec .encAcceptPixel s =
          .next { s with
            enc := { s.enc with index := s.enc.index + 1, run := s.enc.run + 1 }
            host := { s.host with encOffer := none, encSent := s.host.encSent ++ [p] } }) ∧
      (p ≠ 0 →
        exec .encAcceptPixel s =
          .next { s with
            enc :=
              { s.enc with
                index := s.enc.index + 1, pix := p, vSrc := s.enc.run, vK := BitVec.ofNat 4 (octLen s.enc.run.toNat),
                vJ := 0, state := .emitRun }
            host := { s.host with encOffer := none, encSent := s.host.encSent ++ [p] } })) ∧
    (¬(s.enc.state = .accept ∧ s.enc.index < s.enc.count ∧ s.host.encOffer ≠ none) →
      exec .encAcceptPixel s = .next s)

/-- ENC_ACCEPT_END (R241): with every pixel taken, a run left goes to EMIT_TAIL with its group loaded, and no run to
FLUSH. Elsewhere nothing changes. -/
def Obligations.EncAcceptsTheEnd : Prop :=
  ∀ s : State,
    (s.enc.state = .accept → s.enc.index = s.enc.count → s.enc.run = 0 →
      exec .encAcceptEnd s = .next { s with enc := { s.enc with state := .flush } }) ∧
    (s.enc.state = .accept → s.enc.index = s.enc.count → s.enc.run ≠ 0 →
      exec .encAcceptEnd s =
        .next { s with
          enc :=
            { s.enc with
              vSrc := s.enc.run, vK := BitVec.ofNat 4 (octLen s.enc.run.toNat), vJ := 0, state := .emitTail } }) ∧
    (¬(s.enc.state = .accept ∧ s.enc.index = s.enc.count) → exec .encAcceptEnd s = .next s)

/-- ENC_EMIT_RUN, ENC_EMIT_CODE and ENC_EMIT_TAIL (R242, R243, R244) emit one nibble, and at the last one go on: to the
code group of E_PIX with the predictor updated, to ACCEPT, to FLUSH. With no room for the nibble (R245), or in another
state, nothing changes. -/
def Obligations.EncEmitsOneNibble : Prop :=
  ∀ s : State,
    (s.enc.state = .emitRun → s.enc.pPend = false ∨ s.enc.obValid = false →
      exec .encEmitRun s =
        .next { s with
          enc :=
            if s.enc.vJ.toNat + 1 = s.enc.vK.toNat then
              { afterEmit s.enc with
                prev := s.enc.pix, run := 0, vSrc := BitVec.ofNat 32 (zz (delta s.enc.pix s.enc.prev)),
                vK := BitVec.ofNat 4 (octLen (zz (delta s.enc.pix s.enc.prev))), vJ := 0, state := .emitCode }
            else afterEmit s.enc }) ∧
    (s.enc.state = .emitCode → s.enc.pPend = false ∨ s.enc.obValid = false →
      exec .encEmitCode s =
        .next { s with
          enc :=
            if s.enc.vJ.toNat + 1 = s.enc.vK.toNat then { afterEmit s.enc with state := .accept }
            else afterEmit s.enc }) ∧
    (s.enc.state = .emitTail → s.enc.pPend = false ∨ s.enc.obValid = false →
      exec .encEmitTail s =
        .next { s with
          enc :=
            if s.enc.vJ.toNat + 1 = s.enc.vK.toNat then { afterEmit s.enc with run := 0, state := .flush }
            else afterEmit s.enc }) ∧
    (s.enc.state ≠ .emitRun ∨ (s.enc.pPend = true ∧ s.enc.obValid = true) → exec .encEmitRun s = .next s) ∧
    (s.enc.state ≠ .emitCode ∨ (s.enc.pPend = true ∧ s.enc.obValid = true) → exec .encEmitCode s = .next s) ∧
    (s.enc.state ≠ .emitTail ∨ (s.enc.pPend = true ∧ s.enc.obValid = true) → exec .encEmitTail s = .next s)

/-- ENC_FLUSH (R246): a pending nibble goes out padded; with nothing pending and OB free, DONE; with OB full, or in
another state, nothing changes. -/
def Obligations.EncFlushesAndFinishes : Prop :=
  ∀ s : State,
    (s.enc.state = .flush → s.enc.pPend = true → s.enc.obValid = false →
      exec .encFlush s =
        .next { s with enc := { s.enc with ob := byteOf s.enc.pHi 0, obValid := true, pPend := false } }) ∧
    (s.enc.state = .flush → s.enc.pPend = false → s.enc.obValid = false →
      exec .encFlush s = .next { s with enc := { s.enc with state := .done } }) ∧
    (s.enc.state ≠ .flush ∨ s.enc.obValid = true → exec .encFlush s = .next s)

/-! ## The steps of DEC -/

/-- DEC_RUN_GROUP (R270) and DEC_CODE_GROUP (R274): END raises TRUNCATED; otherwise one nibble goes through VLD_STEP,
and the last one through the check of its group in the same step. With no byte on offer for a nibble that needs one, or
in another state, nothing changes. -/
def Obligations.DecReadsOneNibbleOfAGroup : Prop :=
  ∀ (i : Instr) (st : DecState) (finish : Dec → Dec) (s : State),
    (i = .decRunGroup ∧ st = .runGroup ∧ finish = overrunCheck) ∨
      (i = .decCodeGroup ∧ st = .codeGroup ∧ finish = rangeCheck) →
    (s.dec.state = st → s.dec.loPend = true →
      exec i s = .next { s with dec := afterNibble finish s.dec.lo { s.dec with loPend := false } }) ∧
    (s.dec.state = st → s.dec.loPend = false → s.dec.bytesIn < s.dec.len → ∀ b, s.host.decOffer = some b →
      exec i s =
        .next { s with
          dec := afterNibble finish (hiNibble b)
            { s.dec with bytesIn := s.dec.bytesIn + 1, lo := loNibble b, loPend := true }
          host := { s.host with decOffer := none, decSent := s.host.decSent ++ [b] } }) ∧
    (s.dec.state = st → s.dec.loPend = false → ¬s.dec.bytesIn < s.dec.len →
      exec i s =
        .next { s with dec := { s.dec with err := some .truncated, poValid := false, state := .drain } }) ∧
    (s.dec.state ≠ st ∨ (s.dec.loPend = false ∧ s.dec.bytesIn < s.dec.len ∧ s.host.decOffer = none) →
      exec i s = .next s)

/-- DEC_EMIT_ZEROS (R273): a zero into PO, once PO is free; with none left, to the code group (VLD_START) or, at the
count, to DRAIN. -/
def Obligations.DecDeliversTheZeros : Prop :=
  ∀ s : State,
    (s.dec.state = .emitZeros → s.dec.zrem ≠ 0 → s.dec.poValid = false →
      exec .decEmitZeros s =
        .next { s with
          dec :=
            { s.dec with
              po := 0, poValid := true, produced := s.dec.produced + 1, zrem := s.dec.zrem - 1 } }) ∧
    (s.dec.state = .emitZeros → s.dec.zrem = 0 → s.dec.produced < s.dec.count →
      exec .decEmitZeros s = .next { s with dec := { s.dec with acc := 0, ovf := false, state := .codeGroup } }) ∧
    (s.dec.state = .emitZeros → s.dec.zrem = 0 → ¬s.dec.produced < s.dec.count →
      exec .decEmitZeros s = .next { s with dec := { s.dec with state := .drain } }) ∧
    (s.dec.state ≠ .emitZeros ∨ (s.dec.zrem ≠ 0 ∧ s.dec.poValid = true) → exec .decEmitZeros s = .next s)

/-- DEC_EMIT_VALUE (R276): D_VAL into PO, once PO is free; then, by the count after this pixel, to the next run group
(VLD_START) or to DRAIN. -/
def Obligations.DecDeliversTheValue : Prop :=
  ∀ s : State,
    (s.dec.state = .emitValue → s.dec.poValid = false → s.dec.produced + 1 < s.dec.count →
      exec .decEmitValue s =
        .next { s with
          dec :=
            { s.dec with
              po := s.dec.val, poValid := true, produced := s.dec.produced + 1, acc := 0, ovf := false,
              state := .runGroup } }) ∧
    (s.dec.state = .emitValue → s.dec.poValid = false → ¬s.dec.produced + 1 < s.dec.count →
      exec .decEmitValue s =
        .next { s with
          dec := { s.dec with po := s.dec.val, poValid := true, produced := s.dec.produced + 1, state := .drain } }) ∧
    (s.dec.state ≠ .emitValue ∨ s.dec.poValid = true → exec .decEmitValue s = .next s)

/-- DEC_DRAIN (R278): drops a byte while any is left; then, once PO is free, DONE without an error and ERROR with one. -/
def Obligations.DecDrainsAndFinishes : Prop :=
  ∀ s : State,
    (s.dec.state = .drain → s.dec.bytesIn < s.dec.len → ∀ b, s.host.decOffer = some b →
      exec .decDrain s =
        .next { s with
          dec := { s.dec with bytesIn := s.dec.bytesIn + 1 }
          host := { s.host with decOffer := none, decSent := s.host.decSent ++ [b] } }) ∧
    (s.dec.state = .drain → ¬s.dec.bytesIn < s.dec.len → s.dec.poValid = false → s.dec.err = none →
      exec .decDrain s = .next { s with dec := { s.dec with state := .done } }) ∧
    (s.dec.state = .drain → ¬s.dec.bytesIn < s.dec.len → s.dec.poValid = false → s.dec.err ≠ none →
      exec .decDrain s = .next { s with dec := { s.dec with state := .error } }) ∧
    (s.dec.state ≠ .drain ∨ (s.dec.bytesIn < s.dec.len ∧ s.host.decOffer = none) ∨
        (¬s.dec.bytesIn < s.dec.len ∧ s.dec.poValid = true) →
      exec .decDrain s = .next s)

/-! ## Invariants -/

/-- Every step keeps the encoder's invariant: what ENC has done is what the loop of RVL_Encode does on the pixels it has
taken. -/
def Obligations.EveryStepKeepsEncInv : Prop := ∀ s t : State, EncInv s → step s = .next t → EncInv t

/-- Every step keeps the decoder's invariant: what DEC has done is what the loop of RVL_Decode does on the nibbles it has
read. -/
def Obligations.EveryStepKeepsDecInv : Prop := ∀ s t : State, DecInv s → step s = .next t → DecInv t

/-- Every step keeps the bounds of both engines' counters, and what each state says of them. -/
def Obligations.EveryStepKeepsCounterInv : Prop := ∀ s t : State, CounterInv s → step s = .next t → CounterInv t

/-- The three invariants hold after reset. -/
def Obligations.InvariantsHoldAtReset : Prop := EncInv State.reset ∧ DecInv State.reset ∧ CounterInv State.reset

/-- The legal values of the counters (R28), after any steps from reset in any order. -/
def Obligations.CountersStayInTheirBounds : Prop :=
  ∀ (agenda : List Move) (k : Nat) (s : State), runSteps k { State.reset with agenda := agenda } = .next s →
    s.enc.index.toNat ≤ s.enc.count.toNat ∧
    s.enc.bytes.toNat ≤ (7 * s.enc.count.toNat + 1) / 2 ∧
    s.dec.produced.toNat ≤ s.dec.count.toNat ∧
    s.dec.bytesIn.toNat ≤ s.dec.len.toNat ∧
    s.dec.nibbles.toNat ≤ 2 * s.dec.bytesIn.toNat

/-! ## Jobs -/

/-- R249: in any order of steps from reset, at DONE the bytes the host took are RVL_Encode of the E_COUNT pixels ENC
took, and E_BYTES is their number; and at any time the bytes taken are a prefix of the encoding of the pixels taken and
any that complete the job. -/
def Obligations.EncodeJobGivesRvlEncode : Prop :=
  ∀ (agenda : List Move) (k : Nat) (s : State), runSteps k { State.reset with agenda := agenda } = .next s →
    (s.enc.state = .done →
      s.host.encSent.length = s.enc.count.toNat ∧ s.host.encGot = rvlEncode s.host.encSent ∧
        s.enc.bytes.toNat = (rvlEncode s.host.encSent).length ∧ s.enc.index = s.enc.count) ∧
    (∀ rest : List Pixel, s.host.encSent.length + rest.length = s.enc.count.toNat →
      s.host.encGot <+: rvlEncode (s.host.encSent ++ rest))

/-- R280: in any order of steps from reset, when a decode job has ended, DEC took D_LEN bytes, and RVL_Decode of them is
Ok of the pixels the host took at DONE with no error, or the error in D_ERR at ERROR; D_NIBBLES is the number of nibbles
RVL_Decode reads. -/
def Obligations.DecodeJobGivesRvlDecode : Prop :=
  ∀ (agenda : List Move) (k : Nat) (s : State), runSteps k { State.reset with agenda := agenda } = .next s →
    s.dec.state = .done ∨ s.dec.state = .error →
    s.host.decSent.length = s.dec.len.toNat ∧ s.dec.bytesIn = s.dec.len ∧
    s.dec.nibbles.toNat = (decodeRun s.host.decSent s.dec.count.toNat).pos ∧
    (match rvlDecode s.host.decSent s.dec.count.toNat with
      | .ok out => s.dec.state = .done ∧ s.dec.err = none ∧ s.host.decGot = out
      | .error e => s.dec.state = .error ∧ s.dec.err = some e)

/-- R266: decoding what was encoded, with its count, gives the pixels back and reads exactly the nibbles the encoder
wrote. -/
def Obligations.RoundTripIsLossless : Prop :=
  ∀ (pixels : List Pixel) (s : State), pixels.length < 2 ^ 32 →
    ∃ bytes : List Byte,
      exec (.rvlEncode pixels) s = .next { s with ret := .bytes bytes } ∧
      exec (.rvlDecode bytes (BitVec.ofNat 32 pixels.length)) s = .next { s with ret := .pixels pixels } ∧
      (decodeRun bytes pixels.length).pos = (encodeNibs 0 0 pixels).length

/-- R267: an encoding without its last byte decodes, with the same count, to TRUNCATED. -/
def Obligations.TruncationIsDetected : Prop :=
  ∀ (pixels : List Pixel) (s : State), pixels ≠ [] → pixels.length < 2 ^ 32 →
    ∃ bytes : List Byte,
      exec (.rvlEncode pixels) s = .next { s with ret := .bytes bytes } ∧
      exec (.rvlDecode bytes.dropLast (BitVec.ofNat 32 pixels.length)) s =
        .next { s with ret := .failed .truncated }

/-- compress(S) as the host's sequence of R322, with the engine's turns between in one order (log 27), from any state with
no pixel on offer: with ENC in IDLE or DONE the verdict reads OK and the sequence ends, at a status read of DONE, with
RVL_Encode(S); with a job running it ends at the verdict BUSY, and the job goes on unchanged. DEC is untouched. -/
def Obligations.CompressSequenceEnds : Prop :=
  ∀ (pixels : List Pixel) (s : State), pixels.length < 2 ^ 32 → s.host.encOffer = none →
    (s.enc.state = .idle ∨ s.enc.state = .done →
      ∃ t, compress pixels s = .finished (rvlEncode pixels) t ∧
        encodeResult t = some (rvlEncode pixels) ∧ t.host.encSent = pixels ∧ statusValue t 1 = t.host.status ∧
        t.cmdErr = .ok ∧ t.agenda = [] ∧ decPart t = decPart s) ∧
    (encBusy s.enc.state = true →
      ∃ t, compress pixels s = .rejected t ∧ t.cmdErr = .busy ∧ encPart t = encPart s ∧ decPart t = decPart s)

/-- decompress(B, count) as the host's sequence of R323, with the engine's turns between in one order (log 27), from any
state with no byte on offer: with DEC in IDLE, DONE or ERROR the verdict reads OK and the sequence ends, at a status read of
DONE, with the pixels of RVL_Decode(B, count), or, at one of ERROR, with its error as D_ERR reads it; with a job running it
ends at the verdict BUSY, and the job goes on unchanged. ENC is untouched. -/
def Obligations.DecompressSequenceEnds : Prop :=
  ∀ (bytes : List Byte) (n : Nat) (s : State), bytes.length < 2 ^ 34 → n < 2 ^ 32 → s.host.decOffer = none →
    (s.dec.state = .idle ∨ s.dec.state = .done ∨ s.dec.state = .error →
      ∃ t,
        (match rvlDecode bytes n with
          | .ok out => decompress bytes n s = .finished out t
          | .error e => decompress bytes n s = .failed ((errCode (some e)).setWidth 36) t) ∧
        decodeResult t = some (rvlDecode bytes n) ∧ t.host.decSent = bytes ∧ t.cmdErr = .ok ∧ t.agenda = [] ∧
        encPart t = encPart s) ∧
    (decBusy s.dec.state = true →
      ∃ t, decompress bytes n s = .rejected t ∧ t.cmdErr = .busy ∧ encPart t = encPart s ∧ decPart t = decPart s)

/-! ## Independence -/

/-- R33, R376: an instruction of one engine leaves the other's registers and channels alone; only commands and reset write
CMD_ERR; and what an engine does in a run is what it does when every move that cannot act on it is left out. -/
def Obligations.EnginesAreIndependent : Prop :=
  (∀ (i : Instr) (s t : State), exec i s = .next t →
    (sideOf i = some .enc → decPart t = decPart s) ∧
    (sideOf i = some .dec → encPart t = encPart s) ∧
    (sideOf i = none → i ≠ .reset → encPart t = encPart s ∧ decPart t = decPart s) ∧
    (t.cmdErr ≠ s.cmdErr →
      i = .reset ∨ ∃ count len,
        i = .encStart count len ∨ i = .decStart count len ∨ i = .cmdReserved10 count len ∨
          i = .cmdReserved11 count len)) ∧
  (∀ (agenda : List Move) (s t : State), runSteps agenda.length { s with agenda := agenda } = .next t →
    (∃ u, runSteps (agenda.filter (moveActsOn .enc)).length { s with agenda := agenda.filter (moveActsOn .enc) } =
        .next u ∧ encPart u = encPart t) ∧
    (∃ u, runSteps (agenda.filter (moveActsOn .dec)).length { s with agenda := agenda.filter (moveActsOn .dec) } =
        .next u ∧ decPart u = decPart t))

/-- A step of one instance leaves every other as it is (the form of several instances is the model's: log 17). -/
def Obligations.InstancesShareNothing : Prop :=
  ∀ (k : Nat) (cores : List State),
    (∀ s, cores[k]? = some s → ∀ t, step s = .next t → stepInstance k cores = .next (cores.set k t)) ∧
    (∀ after, stepInstance k cores = .next after →
      after.length = cores.length ∧ ∀ j, j ≠ k → after[j]? = cores[j]?) ∧
    (∀ n s, s ∈ instancesReset n → s = State.reset)

/-! ## Laws -/

/-- R173: after VLD_START and any nibbles of a group, A_OVF is set exactly when the group's value V is 2^32 or more, and
otherwise A_ACC is V; and such a V fails the overrun check and the range check as R260 has them. -/
def Obligations.AccumulatorLosesNothing : Prop :=
  ∀ (nibs : List Nibble) (d : Dec),
    let v := nibs.foldl (fun acc n => acc * 8 + (payload n).toNat) 0
    let after := nibs.foldl (fun d n => vldStep n d) (vldStart d)
    (after.ovf = true ↔ 2 ^ 32 ≤ v) ∧
    (after.ovf = false → after.acc.toNat = v) ∧
    (2 ^ 32 ≤ v → ∀ (count : Count) (prev : Pixel),
      count.toNat < v ∧ recon prev (unzz v) = .error .outOfRange)

/-- R117 and R112: VLD reads back every group VLE writes, whatever follows it; a group of more than 0 starts with a
nonzero digit; and VLE is one-to-one. -/
def Obligations.GroupsReadBack : Prop :=
  ∀ (v : Nat) (t : List Nibble) (s : State), v < 2 ^ 32 →
    exec (.vld (vle v ++ t) 0) s = .next { s with ret := .group v (vle v).length } ∧
    (0 < v → ∀ n ∈ (vle v).head?, payload n ≠ 0) ∧
    (∀ w : Nat, vle w = vle v → w = v)

/-- R197, R216, R191 and R196: the zigzag maps invert each other, the decoder's reconstruction inverts the encoder's
delta, and the bit forms give the maps. -/
def Obligations.ZigzagAndPredictorInvert : Prop :=
  (∀ d : Int, unzz (zz d) = d) ∧ (∀ c : Nat, zz (unzz c) = c) ∧
  (∀ p prev : Pixel, p ≠ 0 → recon prev (unzz (zz (delta p prev))) = .ok p) ∧
  (∀ d : Int, -65536 ≤ d → d ≤ 65535 → (zzBits (BitVec.ofInt 17 d)).toNat = zz d) ∧
  (∀ c : Nat, c < 2 ^ 32 → (unzzBits (BitVec.ofNat 32 c)).toInt = unzz c)

/-- R8: an encoding of N pixels holds at most 7·N nibbles, and at most ceil(7·N/2) bytes, below 2^34 for N < 2^32. -/
def Obligations.EncodingSizeIsBounded : Prop :=
  ∀ pixels : List Pixel,
    (encodeNibs 0 0 pixels).length ≤ 7 * pixels.length ∧
    (rvlEncode pixels).length ≤ (7 * pixels.length + 1) / 2 ∧
    (pixels.length ≤ 2 ^ 32 - 1 → (rvlEncode pixels).length ≤ 15032385533 ∧ (rvlEncode pixels).length < 2 ^ 34)

/-- In a state within the counters' bounds, an engine that has a step either waits on the host, and its turn changes
nothing, or its turn brings its job strictly nearer to the end; the host's takes and offers never set it back. So in every
endless run that is fair to the engines (R379), in whatever order the steps come, every job to which the host does its
duties (R370, R371) ends, unless a reset cuts it off. -/
def Obligations.EnabledTurnsMakeProgress : Prop :=
  (∀ s : State, CounterInv s →
    (encWaits s = true → runTurn (encNext s.enc) s = .next s) ∧
    (encWaits s = false → encNext s.enc ≠ none →
      ∃ t, runTurn (encNext s.enc) s = .next t ∧ encLeft t.enc < encLeft s.enc) ∧
    (decWaits s = true → runTurn (decNext s.dec) s = .next s) ∧
    (decWaits s = false → decNext s.dec ≠ none →
      ∃ t, runTurn (decNext s.dec) s = .next t ∧ decLeft t.dec < decLeft s.dec) ∧
    (∀ t, exec .encTake s = .next t → encLeft t.enc = encLeft s.enc) ∧
    (∀ t, exec .decTake s = .next t → decLeft t.dec = decLeft s.dec) ∧
    (∀ p t, exec (.encPixelIn p) s = .next t → encLeft t.enc = encLeft s.enc) ∧
    (∀ b t, exec (.decByteIn b) s = .next t → decLeft t.dec = decLeft s.dec)) ∧
  (∀ (moves : Nat → Move) (run : Nat → State),
    EndlessRun moves run → WeaklyFair moves run → CounterInv (run 0) →
    (HostServesEnc moves run → ∀ k, encBusy (run k).enc.state = true →
      ∃ j, k ≤ j ∧ ((run j).enc.state = .done ∨ sendItem .reset = [moves j])) ∧
    (HostServesDec moves run → ∀ k, decBusy (run k).dec.state = true →
      ∃ j, k ≤ j ∧ ((run j).dec.state = .done ∨ (run j).dec.state = .error ∨ sendItem .reset = [moves j])))

/-- R247 and R279: in IDLE and DONE ENC has no engine step, and a step takes it out of them only by ENC_START, or from
DONE by reset; the same for DEC in IDLE, DONE and ERROR by DEC_START, or from DONE and ERROR by reset. -/
def Obligations.FinalStatesAreLeftOnlyByCommands : Prop :=
  ∀ s t : State, step s = .next t →
    (s.enc.state = .idle ∨ s.enc.state = .done →
      encNext s.enc = none ∧
      (t.enc.state ≠ s.enc.state →
        ∃ it rest, s.agenda = .item it :: rest ∧
          ((∃ count len, decode it = .ok (.encStart count len) ∧ t.enc.state = .accept) ∨
            (decode it = .ok .reset ∧ s.enc.state = .done ∧ t.enc.state = .idle)))) ∧
    (s.dec.state = .idle ∨ s.dec.state = .done ∨ s.dec.state = .error →
      decNext s.dec = none ∧
      (t.dec.state ≠ s.dec.state →
        ∃ it rest, s.agenda = .item it :: rest ∧
          ((∃ count len, decode it = .ok (.decStart count len) ∧
              (t.dec.state = .runGroup ∨ t.dec.state = .drain)) ∨
            (decode it = .ok .reset ∧ s.dec.state ≠ .idle ∧ t.dec.state = .idle))))

end
end

