-- ==== Sys2Proof/Laws/Codec.lean ====
section
/-! SUPPORT. Laws of the pure functions: bit fields, packing, group lengths, groups read back, the zigzag map. -/

namespace Sys2Proof.Machine

open Sys2Proof

/-! ## Bit fields -/

@[simp] theorem contBit_mkNibble (c : Bool) (p : BitVec 3) : contBit (mkNibble c p) = c := by
  revert c p; decide

@[simp] theorem payload_mkNibble (c : Bool) (p : BitVec 3) : payload (mkNibble c p) = p := by
  revert c p; decide

@[simp] theorem mkNibble_contBit_payload (n : Nibble) : mkNibble (contBit n) (payload n) = n := by
  revert n; decide

@[simp] theorem hiNibble_byteOf (hi lo : Nibble) : hiNibble (byteOf hi lo) = hi := by
  simp only [hiNibble, byteOf, BitVec.extractLsb'_append_eq_of_le (Nat.le_refl 4)]
  exact BitVec.extractLsb'_eq_self

@[simp] theorem loNibble_byteOf (hi lo : Nibble) : loNibble (byteOf hi lo) = lo := by
  simp only [loNibble, byteOf, BitVec.extractLsb'_append_eq_of_add_le (by decide : 0 + 4 ≤ 4)]
  exact BitVec.extractLsb'_eq_self

@[simp] theorem byteOf_hiNibble_loNibble (b : Byte) : byteOf (hiNibble b) (loNibble b) = b := by
  unfold byteOf hiNibble loNibble
  rw [BitVec.extractLsb'_append_extractLsb'_eq_extractLsb' (by rfl)]
  exact BitVec.extractLsb'_eq_self

/-! ## Packing -/

@[simp] theorem unpack_append (a b : List Byte) : unpack (a ++ b) = unpack a ++ unpack b := by
  induction a with
  | nil => rfl
  | cons x t ih => simp [unpack, ih]

@[simp] theorem unpack_length (b : List Byte) : (unpack b).length = 2 * b.length := by
  induction b with
  | nil => rfl
  | cons x t ih => simp only [unpack, List.length_cons, ih]; omega

@[simp] theorem pack_unpack (b : List Byte) : pack (unpack b) = b := by
  induction b with
  | nil => rfl
  | cons x t ih => simp [unpack, pack, ih]

/-- Unpacking what was packed gives the nibbles back, with the padding nibble when their number is odd (R67). -/
theorem unpack_pack : ∀ l : List Nibble, unpack (pack l) = l ++ (if l.length % 2 = 1 then [0] else [])
  | [] => rfl
  | [a] => by simp [pack, unpack]
  | a :: b :: t => by
    have h : (t.length + 1 + 1) % 2 = t.length % 2 := by omega
    simp [pack, unpack, unpack_pack t, h]

theorem pack_length : ∀ l : List Nibble, (pack l).length = (l.length + 1) / 2
  | [] => rfl
  | [_] => by simp [pack]
  | _ :: _ :: t => by
    simp only [pack, List.length_cons, pack_length t]; omega

/-- Packing after whole bytes packs on its own. -/
theorem pack_unpack_append (b : List Byte) (l : List Nibble) : pack (unpack b ++ l) = b ++ pack l := by
  induction b with
  | nil => rfl
  | cons x t ih => simp [unpack, pack, ih]

/-! ## Group lengths (R113) -/

theorem octLen_pos (v : Nat) : 0 < octLen v := by unfold octLen; omega

theorem lt_two_pow_bitlen (v : Nat) : v < 2 ^ bitlen v := by
  unfold bitlen
  split
  · simp_all
  · exact Nat.lt_log2_self

/-- The group of v has room for v: v < 8^k. -/
theorem lt_pow_octLen (v : Nat) : v < 2 ^ (3 * octLen v) :=
  Nat.lt_of_lt_of_le (lt_two_pow_bitlen v) (Nat.pow_le_pow_right (by decide) (by unfold octLen; omega))

/-- A value below 2^m has a group of at most ceil(m/3) nibbles, and at least one. -/
theorem octLen_le {v m : Nat} (h : v < 2 ^ m) : octLen v ≤ max 1 ((m + 2) / 3) := by
  have hb : bitlen v ≤ m := by
    unfold bitlen
    split
    · omega
    · rename_i hv
      exact (Nat.log2_lt hv).mpr h
  unfold octLen
  omega

/-- No leading zero digit: a group of more than one nibble starts with a nonzero digit (R112). -/
theorem pow_octLen_pred_le {v : Nat} (h : 1 < octLen v) : 2 ^ (3 * (octLen v - 1)) ≤ v := by
  have hv : v ≠ 0 := by rintro rfl; simp [octLen, bitlen] at h
  have hb : bitlen v = v.log2 + 1 := by simp [bitlen, hv]
  refine Nat.le_trans (Nat.pow_le_pow_right (by decide) ?_) (Nat.log2_self_le hv)
  unfold octLen at h ⊢
  omega

@[simp] theorem vle_length (v : Nat) : (vle v).length = octLen v := by simp [vle]

theorem vle_getElem (v j : Nat) (h : j < (vle v).length) :
    (vle v)[j] = mkNibble (decide (j + 1 < octLen v)) (BitVec.ofNat 3 (v >>> (3 * (octLen v - 1 - j)))) := by
  simp [vle]

theorem octLen_le_eleven {v : Nat} (h : v < 2 ^ 32) : octLen v ≤ 11 := octLen_le h

theorem octLen_le_six {v : Nat} (h : v < 2 ^ 17) : octLen v ≤ 6 := octLen_le h

/-! ## Groups read back (R117) -/

/-- Reading continuation nibbles accumulates their digits. -/
theorem vldFrom_digits (v k : Nat) (t : List Nibble) :
    ∀ (m acc p : Nat), m < k → acc = v >>> (3 * (m + 1)) →
      vldFrom (((List.range (m + 1)).map fun j =>
        mkNibble (decide (j < m)) (BitVec.ofNat 3 (v >>> (3 * (m - j))))) ++ t) acc p = .ok (v, p + m + 1) := by
  intro m
  induction m with
  | zero =>
    intro acc p _ hacc
    subst hacc
    have h : v >>> (3 * (0 + 1)) * 8 + v % 8 = v := by
      rw [Nat.shiftRight_eq_div_pow]; omega
    simp [vldFrom, h]
  | succ m ih =>
    intro acc p hm hacc
    rw [List.range_succ_eq_map]
    simp only [List.map_cons, List.map_map, List.cons_append, vldFrom, contBit_mkNibble, payload_mkNibble]
    have hd : decide (0 < m + 1) = true := by simp
    simp only [hd, if_true]
    have hstep : acc * 8 + (BitVec.ofNat 3 (v >>> (3 * (m + 1 - 0)))).toNat = v >>> (3 * (m + 1)) := by
      subst hacc
      have h : v >>> (3 * (m + 1 + 1)) = v >>> (3 * (m + 1)) / 8 := by
        rw [show 3 * (m + 1 + 1) = 3 * (m + 1) + 3 by ring, Nat.shiftRight_add, Nat.shiftRight_eq_div_pow _ 3]
      rw [h, BitVec.toNat_ofNat, Nat.sub_zero]
      omega
    have hm' := ih (acc * 8 + (BitVec.ofNat 3 (v >>> (3 * (m + 1 - 0)))).toNat) (p + 1) (by omega) hstep
    have hf : ((fun j => mkNibble (decide (j < m + 1)) (BitVec.ofNat 3 (v >>> (3 * (m + 1 - j))))) ∘ Nat.succ)
        = fun j => mkNibble (decide (j < m)) (BitVec.ofNat 3 (v >>> (3 * (m - j)))) := by
      funext j
      simp only [Function.comp, Nat.succ_eq_add_one, Nat.add_sub_add_right, Nat.add_lt_add_iff_right]
    rw [hf, hm']
    congr 2
    omega

/-- Reading the group of v from its first nibble gives v, and stops at the nibble after it (R117). -/
theorem vldFrom_vle (v : Nat) (t : List Nibble) (p : Nat) :
    vldFrom (vle v ++ t) 0 p = .ok (v, p + octLen v) := by
  have hk := octLen_pos v
  have h0 : (0 : Nat) = v >>> (3 * (octLen v - 1 + 1)) := by
    rw [Nat.sub_add_cancel hk, Nat.shiftRight_eq_div_pow, Nat.div_eq_of_lt (lt_pow_octLen v)]
  have h := vldFrom_digits v (octLen v) t (octLen v - 1) 0 p (by omega) h0
  have he : vle v = (List.range (octLen v - 1 + 1)).map fun j =>
      mkNibble (decide (j < octLen v - 1)) (BitVec.ofNat 3 (v >>> (3 * (octLen v - 1 - j)))) := by
    unfold vle
    rw [Nat.sub_add_cancel hk]
    refine List.map_congr_left fun j hj => ?_
    have : (j + 1 < octLen v) ↔ (j < octLen v - 1) := by omega
    simp only [this]
  rw [he, h]
  congr 2
  omega

/-! ## Zigzag (R190, R195) -/

theorem zz_even_odd (d : Int) : (0 ≤ d ∧ (zz d : Int) = 2 * d) ∨ (d < 0 ∧ (zz d : Int) = -2 * d - 1) := by
  unfold zz
  split <;> omega

theorem unzz_even_odd (c : Nat) : (c % 2 = 0 ∧ unzz c * 2 = c) ∨ (c % 2 = 1 ∧ unzz c * 2 = -(c + 1 : Nat)) := by
  unfold unzz
  split <;> omega

end Sys2Proof.Machine
end

