-- ==== Sys2Proof/Laws/State.lean ====
section
/-! SUPPORT. The small lemmas of the named updates: one per field per update, true by rfl. -/

namespace Sys2Proof.Machine

open Sys2Proof

@[simp] theorem raiseCmd_enc (code : CmdErr) (s : State) : (raiseCmd code s).enc = s.enc := rfl
@[simp] theorem raiseCmd_dec (code : CmdErr) (s : State) : (raiseCmd code s).dec = s.dec := rfl
@[simp] theorem raiseCmd_cmdErr (code : CmdErr) (s : State) : (raiseCmd code s).cmdErr = code := rfl
@[simp] theorem raiseCmd_host (code : CmdErr) (s : State) : (raiseCmd code s).host = s.host := rfl
@[simp] theorem raiseCmd_ret (code : CmdErr) (s : State) : (raiseCmd code s).ret = s.ret := rfl
@[simp] theorem raiseCmd_agenda (code : CmdErr) (s : State) : (raiseCmd code s).agenda = s.agenda := rfl
@[simp] theorem raiseCmd_turn (code : CmdErr) (s : State) : (raiseCmd code s).turn = s.turn := rfl
@[simp] theorem raiseCmd_turnsTaken (code : CmdErr) (s : State) : (raiseCmd code s).turnsTaken = s.turnsTaken := rfl
@[simp] theorem raiseCmd_resets (code : CmdErr) (s : State) : (raiseCmd code s).resets = s.resets := rfl

@[simp] theorem readStatus_enc (sel : BitVec 4) (s : State) : (readStatus sel s).enc = s.enc := rfl
@[simp] theorem readStatus_dec (sel : BitVec 4) (s : State) : (readStatus sel s).dec = s.dec := rfl
@[simp] theorem readStatus_cmdErr (sel : BitVec 4) (s : State) : (readStatus sel s).cmdErr = s.cmdErr := rfl
@[simp] theorem readStatus_host (sel : BitVec 4) (s : State) :
    (readStatus sel s).host = { s.host with status := statusValue s sel } := rfl
@[simp] theorem readStatus_ret (sel : BitVec 4) (s : State) : (readStatus sel s).ret = s.ret := rfl
@[simp] theorem readStatus_agenda (sel : BitVec 4) (s : State) : (readStatus sel s).agenda = s.agenda := rfl
@[simp] theorem readStatus_turn (sel : BitVec 4) (s : State) : (readStatus sel s).turn = s.turn := rfl
@[simp] theorem readStatus_turnsTaken (sel : BitVec 4) (s : State) : (readStatus sel s).turnsTaken = s.turnsTaken := rfl
@[simp] theorem readStatus_resets (sel : BitVec 4) (s : State) : (readStatus sel s).resets = s.resets := rfl

@[simp] theorem resetEvent_enc (s : State) : (resetEvent s).enc = encReset := rfl
@[simp] theorem resetEvent_dec (s : State) : (resetEvent s).dec = decReset := rfl
@[simp] theorem resetEvent_cmdErr (s : State) : (resetEvent s).cmdErr = .ok := rfl
@[simp] theorem resetEvent_host (s : State) :
    (resetEvent s).host =
      { s.host with
        encOffer := offerAfterReset (Config.freeWithdrawPixel s.resets) s.host.encOffer
        decOffer := offerAfterReset (Config.freeWithdrawByte s.resets) s.host.decOffer
        encSent := [], encGot := [], decSent := [], decGot := [] } := rfl
@[simp] theorem resetEvent_ret (s : State) : (resetEvent s).ret = s.ret := rfl
@[simp] theorem resetEvent_agenda (s : State) : (resetEvent s).agenda = s.agenda := rfl
@[simp] theorem resetEvent_turn (s : State) : (resetEvent s).turn = s.turn := rfl
@[simp] theorem resetEvent_turnsTaken (s : State) : (resetEvent s).turnsTaken = s.turnsTaken := rfl
@[simp] theorem resetEvent_resets (s : State) : (resetEvent s).resets = s.resets + 1 := rfl

@[simp] theorem vleLoad_state (v : BitVec 32) (e : Enc) : (vleLoad v e).state = e.state := rfl
@[simp] theorem vleLoad_count (v : BitVec 32) (e : Enc) : (vleLoad v e).count = e.count := rfl
@[simp] theorem vleLoad_index (v : BitVec 32) (e : Enc) : (vleLoad v e).index = e.index := rfl
@[simp] theorem vleLoad_bytes (v : BitVec 32) (e : Enc) : (vleLoad v e).bytes = e.bytes := rfl
@[simp] theorem vleLoad_run (v : BitVec 32) (e : Enc) : (vleLoad v e).run = e.run := rfl
@[simp] theorem vleLoad_pix (v : BitVec 32) (e : Enc) : (vleLoad v e).pix = e.pix := rfl
@[simp] theorem vleLoad_prev (v : BitVec 32) (e : Enc) : (vleLoad v e).prev = e.prev := rfl
@[simp] theorem vleLoad_vSrc (v : BitVec 32) (e : Enc) : (vleLoad v e).vSrc = v := rfl
@[simp] theorem vleLoad_vK (v : BitVec 32) (e : Enc) : (vleLoad v e).vK = BitVec.ofNat 4 (octLen v.toNat) := rfl
@[simp] theorem vleLoad_vJ (v : BitVec 32) (e : Enc) : (vleLoad v e).vJ = 0 := rfl
@[simp] theorem vleLoad_pPend (v : BitVec 32) (e : Enc) : (vleLoad v e).pPend = e.pPend := rfl
@[simp] theorem vleLoad_pHi (v : BitVec 32) (e : Enc) : (vleLoad v e).pHi = e.pHi := rfl
@[simp] theorem vleLoad_ob (v : BitVec 32) (e : Enc) : (vleLoad v e).ob = e.ob := rfl
@[simp] theorem vleLoad_obValid (v : BitVec 32) (e : Enc) : (vleLoad v e).obValid = e.obValid := rfl

@[simp] theorem encPrevUpdate_state (v : Pixel) (e : Enc) : (encPrevUpdate v e).state = e.state := rfl
@[simp] theorem encPrevUpdate_count (v : Pixel) (e : Enc) : (encPrevUpdate v e).count = e.count := rfl
@[simp] theorem encPrevUpdate_index (v : Pixel) (e : Enc) : (encPrevUpdate v e).index = e.index := rfl
@[simp] theorem encPrevUpdate_bytes (v : Pixel) (e : Enc) : (encPrevUpdate v e).bytes = e.bytes := rfl
@[simp] theorem encPrevUpdate_run (v : Pixel) (e : Enc) : (encPrevUpdate v e).run = e.run := rfl
@[simp] theorem encPrevUpdate_pix (v : Pixel) (e : Enc) : (encPrevUpdate v e).pix = e.pix := rfl
@[simp] theorem encPrevUpdate_prev (v : Pixel) (e : Enc) : (encPrevUpdate v e).prev = v := rfl
@[simp] theorem encPrevUpdate_vSrc (v : Pixel) (e : Enc) : (encPrevUpdate v e).vSrc = e.vSrc := rfl
@[simp] theorem encPrevUpdate_vK (v : Pixel) (e : Enc) : (encPrevUpdate v e).vK = e.vK := rfl
@[simp] theorem encPrevUpdate_vJ (v : Pixel) (e : Enc) : (encPrevUpdate v e).vJ = e.vJ := rfl
@[simp] theorem encPrevUpdate_pPend (v : Pixel) (e : Enc) : (encPrevUpdate v e).pPend = e.pPend := rfl
@[simp] theorem encPrevUpdate_pHi (v : Pixel) (e : Enc) : (encPrevUpdate v e).pHi = e.pHi := rfl
@[simp] theorem encPrevUpdate_ob (v : Pixel) (e : Enc) : (encPrevUpdate v e).ob = e.ob := rfl
@[simp] theorem encPrevUpdate_obValid (v : Pixel) (e : Enc) : (encPrevUpdate v e).obValid = e.obValid := rfl

@[simp] theorem pkClear_state (e : Enc) : (pkClear e).state = e.state := rfl
@[simp] theorem pkClear_count (e : Enc) : (pkClear e).count = e.count := rfl
@[simp] theorem pkClear_index (e : Enc) : (pkClear e).index = e.index := rfl
@[simp] theorem pkClear_bytes (e : Enc) : (pkClear e).bytes = e.bytes := rfl
@[simp] theorem pkClear_run (e : Enc) : (pkClear e).run = e.run := rfl
@[simp] theorem pkClear_pix (e : Enc) : (pkClear e).pix = e.pix := rfl
@[simp] theorem pkClear_prev (e : Enc) : (pkClear e).prev = e.prev := rfl
@[simp] theorem pkClear_vSrc (e : Enc) : (pkClear e).vSrc = e.vSrc := rfl
@[simp] theorem pkClear_vK (e : Enc) : (pkClear e).vK = e.vK := rfl
@[simp] theorem pkClear_vJ (e : Enc) : (pkClear e).vJ = e.vJ := rfl
@[simp] theorem pkClear_pPend (e : Enc) : (pkClear e).pPend = false := rfl
@[simp] theorem pkClear_pHi (e : Enc) : (pkClear e).pHi = 0 := rfl
@[simp] theorem pkClear_ob (e : Enc) : (pkClear e).ob = 0 := rfl
@[simp] theorem pkClear_obValid (e : Enc) : (pkClear e).obValid = false := rfl

@[simp] theorem raiseDecode_state (code : ErrCode) (d : Dec) : (raiseDecode code d).state = .drain := rfl
@[simp] theorem raiseDecode_err (code : ErrCode) (d : Dec) : (raiseDecode code d).err = some code := rfl
@[simp] theorem raiseDecode_count (code : ErrCode) (d : Dec) : (raiseDecode code d).count = d.count := rfl
@[simp] theorem raiseDecode_len (code : ErrCode) (d : Dec) : (raiseDecode code d).len = d.len := rfl
@[simp] theorem raiseDecode_produced (code : ErrCode) (d : Dec) : (raiseDecode code d).produced = d.produced := rfl
@[simp] theorem raiseDecode_bytesIn (code : ErrCode) (d : Dec) : (raiseDecode code d).bytesIn = d.bytesIn := rfl
@[simp] theorem raiseDecode_nibbles (code : ErrCode) (d : Dec) : (raiseDecode code d).nibbles = d.nibbles := rfl
@[simp] theorem raiseDecode_prev (code : ErrCode) (d : Dec) : (raiseDecode code d).prev = d.prev := rfl
@[simp] theorem raiseDecode_zrem (code : ErrCode) (d : Dec) : (raiseDecode code d).zrem = d.zrem := rfl
@[simp] theorem raiseDecode_val (code : ErrCode) (d : Dec) : (raiseDecode code d).val = d.val := rfl
@[simp] theorem raiseDecode_acc (code : ErrCode) (d : Dec) : (raiseDecode code d).acc = d.acc := rfl
@[simp] theorem raiseDecode_ovf (code : ErrCode) (d : Dec) : (raiseDecode code d).ovf = d.ovf := rfl
@[simp] theorem raiseDecode_loPend (code : ErrCode) (d : Dec) : (raiseDecode code d).loPend = d.loPend := rfl
@[simp] theorem raiseDecode_lo (code : ErrCode) (d : Dec) : (raiseDecode code d).lo = d.lo := rfl
@[simp] theorem raiseDecode_po (code : ErrCode) (d : Dec) : (raiseDecode code d).po = d.po := rfl
@[simp] theorem raiseDecode_poValid (code : ErrCode) (d : Dec) : (raiseDecode code d).poValid = false := rfl

@[simp] theorem decPrevUpdate_state (v : Pixel) (d : Dec) : (decPrevUpdate v d).state = d.state := rfl
@[simp] theorem decPrevUpdate_err (v : Pixel) (d : Dec) : (decPrevUpdate v d).err = d.err := rfl
@[simp] theorem decPrevUpdate_count (v : Pixel) (d : Dec) : (decPrevUpdate v d).count = d.count := rfl
@[simp] theorem decPrevUpdate_len (v : Pixel) (d : Dec) : (decPrevUpdate v d).len = d.len := rfl
@[simp] theorem decPrevUpdate_produced (v : Pixel) (d : Dec) : (decPrevUpdate v d).produced = d.produced := rfl
@[simp] theorem decPrevUpdate_bytesIn (v : Pixel) (d : Dec) : (decPrevUpdate v d).bytesIn = d.bytesIn := rfl
@[simp] theorem decPrevUpdate_nibbles (v : Pixel) (d : Dec) : (decPrevUpdate v d).nibbles = d.nibbles := rfl
@[simp] theorem decPrevUpdate_prev (v : Pixel) (d : Dec) : (decPrevUpdate v d).prev = v := rfl
@[simp] theorem decPrevUpdate_zrem (v : Pixel) (d : Dec) : (decPrevUpdate v d).zrem = d.zrem := rfl
@[simp] theorem decPrevUpdate_val (v : Pixel) (d : Dec) : (decPrevUpdate v d).val = d.val := rfl
@[simp] theorem decPrevUpdate_acc (v : Pixel) (d : Dec) : (decPrevUpdate v d).acc = d.acc := rfl
@[simp] theorem decPrevUpdate_ovf (v : Pixel) (d : Dec) : (decPrevUpdate v d).ovf = d.ovf := rfl
@[simp] theorem decPrevUpdate_loPend (v : Pixel) (d : Dec) : (decPrevUpdate v d).loPend = d.loPend := rfl
@[simp] theorem decPrevUpdate_lo (v : Pixel) (d : Dec) : (decPrevUpdate v d).lo = d.lo := rfl
@[simp] theorem decPrevUpdate_po (v : Pixel) (d : Dec) : (decPrevUpdate v d).po = d.po := rfl
@[simp] theorem decPrevUpdate_poValid (v : Pixel) (d : Dec) : (decPrevUpdate v d).poValid = d.poValid := rfl

@[simp] theorem upClear_state (d : Dec) : (upClear d).state = d.state := rfl
@[simp] theorem upClear_err (d : Dec) : (upClear d).err = d.err := rfl
@[simp] theorem upClear_count (d : Dec) : (upClear d).count = d.count := rfl
@[simp] theorem upClear_len (d : Dec) : (upClear d).len = d.len := rfl
@[simp] theorem upClear_produced (d : Dec) : (upClear d).produced = d.produced := rfl
@[simp] theorem upClear_bytesIn (d : Dec) : (upClear d).bytesIn = 0 := rfl
@[simp] theorem upClear_nibbles (d : Dec) : (upClear d).nibbles = d.nibbles := rfl
@[simp] theorem upClear_prev (d : Dec) : (upClear d).prev = d.prev := rfl
@[simp] theorem upClear_zrem (d : Dec) : (upClear d).zrem = d.zrem := rfl
@[simp] theorem upClear_val (d : Dec) : (upClear d).val = d.val := rfl
@[simp] theorem upClear_acc (d : Dec) : (upClear d).acc = d.acc := rfl
@[simp] theorem upClear_ovf (d : Dec) : (upClear d).ovf = d.ovf := rfl
@[simp] theorem upClear_loPend (d : Dec) : (upClear d).loPend = false := rfl
@[simp] theorem upClear_lo (d : Dec) : (upClear d).lo = 0 := rfl
@[simp] theorem upClear_po (d : Dec) : (upClear d).po = d.po := rfl
@[simp] theorem upClear_poValid (d : Dec) : (upClear d).poValid = d.poValid := rfl

@[simp] theorem vldStart_state (d : Dec) : (vldStart d).state = d.state := rfl
@[simp] theorem vldStart_err (d : Dec) : (vldStart d).err = d.err := rfl
@[simp] theorem vldStart_count (d : Dec) : (vldStart d).count = d.count := rfl
@[simp] theorem vldStart_len (d : Dec) : (vldStart d).len = d.len := rfl
@[simp] theorem vldStart_produced (d : Dec) : (vldStart d).produced = d.produced := rfl
@[simp] theorem vldStart_bytesIn (d : Dec) : (vldStart d).bytesIn = d.bytesIn := rfl
@[simp] theorem vldStart_nibbles (d : Dec) : (vldStart d).nibbles = d.nibbles := rfl
@[simp] theorem vldStart_prev (d : Dec) : (vldStart d).prev = d.prev := rfl
@[simp] theorem vldStart_zrem (d : Dec) : (vldStart d).zrem = d.zrem := rfl
@[simp] theorem vldStart_val (d : Dec) : (vldStart d).val = d.val := rfl
@[simp] theorem vldStart_acc (d : Dec) : (vldStart d).acc = 0 := rfl
@[simp] theorem vldStart_ovf (d : Dec) : (vldStart d).ovf = false := rfl
@[simp] theorem vldStart_loPend (d : Dec) : (vldStart d).loPend = d.loPend := rfl
@[simp] theorem vldStart_lo (d : Dec) : (vldStart d).lo = d.lo := rfl
@[simp] theorem vldStart_po (d : Dec) : (vldStart d).po = d.po := rfl
@[simp] theorem vldStart_poValid (d : Dec) : (vldStart d).poValid = d.poValid := rfl

@[simp] theorem vldStep_state (n : Nibble) (d : Dec) : (vldStep n d).state = d.state := rfl
@[simp] theorem vldStep_err (n : Nibble) (d : Dec) : (vldStep n d).err = d.err := rfl
@[simp] theorem vldStep_count (n : Nibble) (d : Dec) : (vldStep n d).count = d.count := rfl
@[simp] theorem vldStep_len (n : Nibble) (d : Dec) : (vldStep n d).len = d.len := rfl
@[simp] theorem vldStep_produced (n : Nibble) (d : Dec) : (vldStep n d).produced = d.produced := rfl
@[simp] theorem vldStep_bytesIn (n : Nibble) (d : Dec) : (vldStep n d).bytesIn = d.bytesIn := rfl
@[simp] theorem vldStep_nibbles (n : Nibble) (d : Dec) : (vldStep n d).nibbles = d.nibbles + 1 := rfl
@[simp] theorem vldStep_prev (n : Nibble) (d : Dec) : (vldStep n d).prev = d.prev := rfl
@[simp] theorem vldStep_zrem (n : Nibble) (d : Dec) : (vldStep n d).zrem = d.zrem := rfl
@[simp] theorem vldStep_val (n : Nibble) (d : Dec) : (vldStep n d).val = d.val := rfl
@[simp] theorem vldStep_acc (n : Nibble) (d : Dec) : (vldStep n d).acc = d.acc.extractLsb' 0 29 ++ payload n := rfl
@[simp] theorem vldStep_ovf (n : Nibble) (d : Dec) : (vldStep n d).ovf = accOverflow d.acc d.ovf := rfl
@[simp] theorem vldStep_loPend (n : Nibble) (d : Dec) : (vldStep n d).loPend = d.loPend := rfl
@[simp] theorem vldStep_lo (n : Nibble) (d : Dec) : (vldStep n d).lo = d.lo := rfl
@[simp] theorem vldStep_po (n : Nibble) (d : Dec) : (vldStep n d).po = d.po := rfl
@[simp] theorem vldStep_poValid (n : Nibble) (d : Dec) : (vldStep n d).poValid = d.poValid := rfl

@[simp] theorem State.withFetchWord_enc (s : State) (nbits w : Nat) :
    (s.withFetchWord nbits w).enc = s.enc := rfl
@[simp] theorem State.withFetchWord_dec (s : State) (nbits w : Nat) :
    (s.withFetchWord nbits w).dec = s.dec := rfl
@[simp] theorem State.withFetchWord_cmdErr (s : State) (nbits w : Nat) :
    (s.withFetchWord nbits w).cmdErr = s.cmdErr := rfl
@[simp] theorem State.withFetchWord_host (s : State) (nbits w : Nat) :
    (s.withFetchWord nbits w).host = s.host := rfl
@[simp] theorem State.withFetchWord_ret (s : State) (nbits w : Nat) :
    (s.withFetchWord nbits w).ret = s.ret := rfl
@[simp] theorem State.withFetchWord_agenda (s : State) (nbits w : Nat) :
    (s.withFetchWord nbits w).agenda = .item (tableItem nbits w) :: s.agenda := rfl
@[simp] theorem State.withFetchWord_turn (s : State) (nbits w : Nat) :
    (s.withFetchWord nbits w).turn = s.turn := rfl
@[simp] theorem State.withFetchWord_turnsTaken (s : State) (nbits w : Nat) :
    (s.withFetchWord nbits w).turnsTaken = s.turnsTaken := rfl
@[simp] theorem State.withFetchWord_resets (s : State) (nbits w : Nat) :
    (s.withFetchWord nbits w).resets = s.resets := rfl

/-! Taking the next move changes only the agenda and the counters of the turns. -/

@[simp] theorem freeTurn_enc (s : State) : (freeTurn s).2.enc = s.enc := by unfold freeTurn; split <;> rfl
@[simp] theorem freeTurn_dec (s : State) : (freeTurn s).2.dec = s.dec := by unfold freeTurn; split <;> rfl
@[simp] theorem freeTurn_cmdErr (s : State) : (freeTurn s).2.cmdErr = s.cmdErr := by unfold freeTurn; split <;> rfl
@[simp] theorem freeTurn_host (s : State) : (freeTurn s).2.host = s.host := by unfold freeTurn; split <;> rfl
@[simp] theorem freeTurn_ret (s : State) : (freeTurn s).2.ret = s.ret := by unfold freeTurn; split <;> rfl
@[simp] theorem freeTurn_resets (s : State) : (freeTurn s).2.resets = s.resets := by unfold freeTurn; split <;> rfl
@[simp] theorem freeTurn_agenda (s : State) : (freeTurn s).2.agenda = s.agenda := by unfold freeTurn; split <;> rfl

@[simp] theorem nextMove_enc (s : State) : (nextMove s).2.enc = s.enc := by unfold nextMove; split <;> simp
@[simp] theorem nextMove_dec (s : State) : (nextMove s).2.dec = s.dec := by unfold nextMove; split <;> simp
@[simp] theorem nextMove_cmdErr (s : State) : (nextMove s).2.cmdErr = s.cmdErr := by unfold nextMove; split <;> simp
@[simp] theorem nextMove_host (s : State) : (nextMove s).2.host = s.host := by unfold nextMove; split <;> simp
@[simp] theorem nextMove_ret (s : State) : (nextMove s).2.ret = s.ret := by unfold nextMove; split <;> simp
@[simp] theorem nextMove_resets (s : State) : (nextMove s).2.resets = s.resets := by unfold nextMove; split <;> simp

end Sys2Proof.Machine
end

