-- ==== Sys2Proof/Laws/Ops.lean ====
section
/-! SUPPORT. For each shared operation one lemma that says all it can do; the proofs cite these and do not unfold it. -/

namespace Sys2Proof.Machine

open Sys2Proof

/-! ## Channels -/

theorem takePixel_eq_some {s t : State} {p : Pixel} :
    takePixel s = some (p, t) ↔ s.host.encOffer = some p ∧
      t = { s with host := { s.host with encOffer := none, encSent := s.host.encSent ++ [p] } } := by
  unfold takePixel
  cases s.host.encOffer <;> simp +contextual [eq_comm]

theorem takePixel_eq_none {s : State} : takePixel s = none ↔ s.host.encOffer = none := by
  unfold takePixel
  cases s.host.encOffer <;> simp

theorem takeByte_eq_some {s t : State} {b : Byte} :
    takeByte s = some (b, t) ↔ s.host.decOffer = some b ∧
      t = { s with host := { s.host with decOffer := none, decSent := s.host.decSent ++ [b] } } := by
  unfold takeByte
  cases s.host.decOffer <;> simp +contextual [eq_comm]

theorem takeByte_eq_none {s : State} : takeByte s = none ↔ s.host.decOffer = none := by
  unfold takeByte
  cases s.host.decOffer <;> simp

theorem putPixel_cases (v : Pixel) (d : Dec) :
    (d.poValid = true ∧ putPixel v d = none) ∨
    (d.poValid = false ∧ putPixel v d = some { d with po := v, poValid := true }) := by
  unfold putPixel
  cases h : d.poValid <;> simp

theorem offerPixel_cases (v : Pixel) (h : HostSide) :
    (h.encOffer = none ∧ offerPixel v h = { h with encOffer := some v }) ∨
    (h.encOffer ≠ none ∧ offerPixel v h = h) := by
  unfold offerPixel
  cases h' : h.encOffer <;> simp

theorem offerByte_cases (b : Byte) (h : HostSide) :
    (h.decOffer = none ∧ offerByte b h = { h with decOffer := some b }) ∨
    (h.decOffer ≠ none ∧ offerByte b h = h) := by
  unfold offerByte
  cases h' : h.decOffer <;> simp

theorem hostTakeByte_cases (s : State) :
    (s.enc.obValid = false ∧ hostTakeByte s = s) ∨
    (s.enc.obValid = true ∧ hostTakeByte s =
      { s with
        enc := { s.enc with obValid := false, bytes := s.enc.bytes + 1 }
        host := { s.host with encGot := s.host.encGot ++ [s.enc.ob] } }) := by
  unfold hostTakeByte
  cases h : s.enc.obValid <;> simp

theorem hostTakePixel_cases (s : State) :
    (s.dec.poValid = false ∧ hostTakePixel s = s) ∨
    (s.dec.poValid = true ∧ hostTakePixel s =
      { s with
        dec := { s.dec with poValid := false }
        host := { s.host with decGot := s.host.decGot ++ [s.dec.po] } }) := by
  unfold hostTakePixel
  cases h : s.dec.poValid <;> simp

/-! ## Bit packer and nibble encoder -/

theorem pkWrite_cases (n : Nibble) (e : Enc) :
    (e.pPend = true ∧ e.obValid = true ∧ pkWrite n e = none) ∨
    (e.pPend = false ∧ pkWrite n e = some { e with pHi := n, pPend := true }) ∨
    (e.pPend = true ∧ e.obValid = false ∧
      pkWrite n e = some { e with ob := byteOf e.pHi n, obValid := true, pPend := false }) := by
  unfold pkWrite putByte
  cases h : e.pPend <;> cases h' : e.obValid <;> simp

theorem pkFlush_cases (e : Enc) :
    (e.state = .flush ∧ e.pPend = true ∧ e.obValid = false ∧
      pkFlush e = { e with ob := byteOf e.pHi 0, obValid := true, pPend := false }) ∨
    ((e.state ≠ .flush ∨ e.pPend = false ∨ e.obValid = true) ∧ pkFlush e = e) := by
  unfold pkFlush
  by_cases h : e.state = .flush <;> cases h1 : e.pPend <;> cases h2 : e.obValid <;> simp [h]

theorem vleEmit_cases (e : Enc) :
    (e.pPend = true ∧ e.obValid = true ∧ vleEmit e = none) ∨
    (e.pPend = false ∧
      vleEmit e = some ((vleNibble e, vleLast e), { e with vJ := e.vJ + 1, pHi := vleNibble e, pPend := true })) ∨
    (e.pPend = true ∧ e.obValid = false ∧
      vleEmit e = some ((vleNibble e, vleLast e),
        { e with vJ := e.vJ + 1, ob := byteOf e.pHi (vleNibble e), obValid := true, pPend := false })) := by
  unfold vleEmit
  rcases pkWrite_cases (vleNibble e) { e with vJ := e.vJ + 1 } with ⟨h1, h2, h3⟩ | ⟨h1, h3⟩ | ⟨h1, h2, h3⟩ <;>
    simp_all

theorem emitStep_cases (f : Enc → Enc) (e : Enc) :
    (pkEnabled e = false ∧ emitStep f e = e) ∨
    (pkEnabled e = true ∧ vleLast e = true ∧ emitStep f e = f (afterEmit e)) ∨
    (pkEnabled e = true ∧ vleLast e = false ∧ emitStep f e = afterEmit e) := by
  unfold emitStep pkEnabled afterEmit
  rcases vleEmit_cases e with ⟨h1, h2, h3⟩ | ⟨h1, h3⟩ | ⟨h1, h2, h3⟩ <;> cases h4 : vleLast e <;> simp_all

/-! ## Encoder steps -/

theorem acceptPixelStep_cases (s : State) :
    acceptPixelStep s = s ∨
    (s.enc.state = .accept ∧ s.enc.index < s.enc.count ∧ ∃ p, s.host.encOffer = some p ∧
      ((isZero p = true ∧ acceptPixelStep s =
        { s with
          enc := { s.enc with index := s.enc.index + 1, run := s.enc.run + 1 }
          host := { s.host with encOffer := none, encSent := s.host.encSent ++ [p] } }) ∨
       (isZero p = false ∧ acceptPixelStep s =
        { s with
          enc := { s.enc with index := s.enc.index + 1, pix := p, vSrc := s.enc.run,
                              vK := BitVec.ofNat 4 (octLen s.enc.run.toNat), vJ := 0, state := .emitRun }
          host := { s.host with encOffer := none, encSent := s.host.encSent ++ [p] } }))) := by
  unfold acceptPixelStep encWantsPixel
  by_cases hw : s.enc.state = .accept ∧ s.enc.index < s.enc.count
  · rcases ho : s.host.encOffer with _ | p
    · left; simp [takePixel_eq_none.mpr ho]
    · right
      refine ⟨hw.1, hw.2, p, rfl, ?_⟩
      simp only [hw.1, hw.2, takePixel_eq_some.mpr ⟨ho, rfl⟩]
      cases hz : isZero p <;> simp [vleLoad]
  · left
    have : (s.enc.state == .accept && decide (s.enc.index < s.enc.count)) = false := by
      simp only [Bool.and_eq_false_iff, beq_eq_false_iff_ne, decide_eq_false_iff_not]
      tauto
    simp [this]

theorem acceptEndStep_cases (e : Enc) :
    acceptEndStep e = e ∨
    (e.state = .accept ∧ e.index = e.count ∧
      ((e.run = 0 ∧ acceptEndStep e = { e with state := .flush }) ∨
       (e.run ≠ 0 ∧ acceptEndStep e =
        { e with vSrc := e.run, vK := BitVec.ofNat 4 (octLen e.run.toNat), vJ := 0, state := .emitTail }))) := by
  unfold acceptEndStep
  by_cases h : e.state = .accept ∧ e.index = e.count
  · right
    refine ⟨h.1, h.2, ?_⟩
    by_cases hr : e.run = 0
    · left; simp [h, hr]
    · right
      refine ⟨hr, ?_⟩
      rw [if_pos h, if_neg hr]; rfl
  · left; rw [if_neg h]

theorem flushStep_cases (e : Enc) :
    flushStep e = e ∨
    (e.state = .flush ∧ e.obValid = false ∧
      ((e.pPend = true ∧ flushStep e = { e with ob := byteOf e.pHi 0, obValid := true, pPend := false }) ∨
       (e.pPend = false ∧ flushStep e = { e with state := .done }))) := by
  unfold flushStep pkFlush
  by_cases h : e.state = .flush <;> cases h1 : e.pPend <;> cases h2 : e.obValid <;> simp_all

/-! ## Bit unpacker and group steps -/

theorem upRead_cases (s : State) :
    (s.dec.loPend = true ∧ upRead s = some (some s.dec.lo, { s with dec := { s.dec with loPend := false } })) ∨
    (s.dec.loPend = false ∧ s.dec.bytesIn < s.dec.len ∧ s.host.decOffer = none ∧ upRead s = none) ∨
    (s.dec.loPend = false ∧ s.dec.bytesIn < s.dec.len ∧ ∃ b, s.host.decOffer = some b ∧
      upRead s = some (some (hiNibble b),
        { s with
          dec := { s.dec with bytesIn := s.dec.bytesIn + 1, lo := loNibble b, loPend := true }
          host := { s.host with decOffer := none, decSent := s.host.decSent ++ [b] } })) ∨
    (s.dec.loPend = false ∧ ¬s.dec.bytesIn < s.dec.len ∧ upRead s = some (none, s)) := by
  unfold upRead
  cases h1 : s.dec.loPend
  · by_cases h2 : s.dec.bytesIn < s.dec.len
    · rcases h3 : s.host.decOffer with _ | b
      · simp [h2, takeByte_eq_none.mpr h3]
      · right; right; left
        refine ⟨rfl, h2, b, rfl, ?_⟩
        simp [h2, takeByte_eq_some.mpr ⟨h3, rfl⟩]
    · simp [h2]
  · simp

theorem upDiscard_cases (s : State) :
    ((s.dec.state ≠ .drain ∨ ¬s.dec.bytesIn < s.dec.len ∨ s.host.decOffer = none) ∧ upDiscard s = none) ∨
    (s.dec.state = .drain ∧ s.dec.bytesIn < s.dec.len ∧ ∃ b, s.host.decOffer = some b ∧
      upDiscard s = some
        { s with
          dec := { s.dec with bytesIn := s.dec.bytesIn + 1 }
          host := { s.host with decOffer := none, decSent := s.host.decSent ++ [b] } }) := by
  unfold upDiscard
  by_cases h1 : s.dec.state = .drain
  · by_cases h2 : s.dec.bytesIn < s.dec.len
    · rcases h3 : s.host.decOffer with _ | b
      · left; simp [takeByte_eq_none.mpr h3]
      · right
        refine ⟨h1, h2, b, rfl, ?_⟩
        simp [h1, h2, takeByte_eq_some.mpr ⟨h3, rfl⟩]
    · left; simp [h2]
  · left; simp [h1]

theorem groupStep_cases (finish : Dec → Dec) (s : State) :
    (groupStep finish s = s ∧ s.dec.loPend = false ∧ s.dec.bytesIn < s.dec.len ∧ s.host.decOffer = none) ∨
    (s.dec.loPend = false ∧ ¬s.dec.bytesIn < s.dec.len ∧
      groupStep finish s = { s with dec := raiseDecode .truncated s.dec }) ∨
    (s.dec.loPend = true ∧
      groupStep finish s = { s with dec := afterNibble finish s.dec.lo { s.dec with loPend := false } }) ∨
    (s.dec.loPend = false ∧ s.dec.bytesIn < s.dec.len ∧ ∃ b, s.host.decOffer = some b ∧
      groupStep finish s =
        { s with
          dec := afterNibble finish (hiNibble b)
            { s.dec with bytesIn := s.dec.bytesIn + 1, lo := loNibble b, loPend := true }
          host := { s.host with decOffer := none, decSent := s.host.decSent ++ [b] } }) := by
  unfold groupStep afterNibble
  rcases upRead_cases s with ⟨h1, h⟩ | ⟨h1, h2, h3, h⟩ | ⟨h1, h2, b, h3, h⟩ | ⟨h1, h2, h⟩
  · right; right; left; exact ⟨h1, by simp [h]⟩
  · left; exact ⟨by simp [h], h1, h2, h3⟩
  · right; right; right; exact ⟨h1, h2, b, h3, by simp [h]⟩
  · right; left; exact ⟨h1, h2, by simp [h]⟩

theorem overrunCheck_cases (d : Dec) :
    ((d.ovf = true ∨ d.count.toNat < d.produced.toNat + d.acc.toNat) ∧ overrunCheck d = raiseDecode .overrun d) ∨
    (d.ovf = false ∧ d.produced.toNat + d.acc.toNat ≤ d.count.toNat ∧
      overrunCheck d = { d with zrem := d.acc, state := .emitZeros }) := by
  unfold overrunCheck runOverruns
  cases h : d.ovf
  · by_cases h2 : d.count.toNat < d.produced.toNat + d.acc.toNat
    · left; simp [h2]
    · right; simp [h2]; omega
  · left; simp

theorem rangeCheck_cases (d : Dec) :
    (d.ovf = true ∧ rangeCheck d = raiseDecode .outOfRange d) ∨
    (d.ovf = false ∧ recon d.prev (unzz d.acc.toNat) = .error .outOfRange ∧
      rangeCheck d = raiseDecode .outOfRange d) ∨
    (d.ovf = false ∧ ∃ v, recon d.prev (unzz d.acc.toNat) = .ok v ∧
      rangeCheck d = { d with val := v, prev := v, state := .emitValue }) := by
  unfold rangeCheck
  cases h : d.ovf
  · rcases hr : recon d.prev (unzz d.acc.toNat) with e | v
    · right; left
      have he : e = .outOfRange := by
        simp only [recon] at hr
        split at hr <;> simp_all
      subst he
      simp
    · right; right
      exact ⟨rfl, v, rfl, rfl⟩
  · left; simp

/-! ## Decoder steps -/

theorem emitZerosStep_cases (d : Dec) :
    emitZerosStep d = d ∨
    (d.state = .emitZeros ∧
      ((d.zrem ≠ 0 ∧ d.poValid = false ∧ emitZerosStep d =
        { d with po := 0, poValid := true, produced := d.produced + 1, zrem := d.zrem - 1 }) ∨
       (d.zrem = 0 ∧ d.produced < d.count ∧
        emitZerosStep d = { d with acc := 0, ovf := false, state := .codeGroup }) ∨
       (d.zrem = 0 ∧ ¬d.produced < d.count ∧ emitZerosStep d = { d with state := .drain }))) := by
  unfold emitZerosStep
  by_cases h : d.state = .emitZeros
  · by_cases hz : d.zrem = 0
    · by_cases hp : d.produced < d.count
      · right; refine ⟨h, Or.inr (Or.inl ⟨hz, hp, ?_⟩)⟩; simp [h, hz, hp, vldStart]
      · right; refine ⟨h, Or.inr (Or.inr ⟨hz, hp, ?_⟩)⟩; simp [h, hz, hp]
    · rcases putPixel_cases 0 d with ⟨_, h2⟩ | ⟨h1, h2⟩
      · left; rw [if_pos h, if_pos hz, h2]
      · right; refine ⟨h, Or.inl ⟨hz, h1, ?_⟩⟩; rw [if_pos h, if_pos hz, h2]
  · left; simp [h]

theorem emitValueStep_cases (d : Dec) :
    emitValueStep d = d ∨
    (d.state = .emitValue ∧ d.poValid = false ∧
      ((d.produced + 1 < d.count ∧ emitValueStep d =
        { d with po := d.val, poValid := true, produced := d.produced + 1, acc := 0, ovf := false,
                 state := .runGroup }) ∨
       (¬d.produced + 1 < d.count ∧ emitValueStep d =
        { d with po := d.val, poValid := true, produced := d.produced + 1, state := .drain }))) := by
  unfold emitValueStep
  by_cases h : d.state = .emitValue
  · rcases putPixel_cases d.val d with ⟨_, h2⟩ | ⟨h1, h2⟩
    · left; simp [h, h2]
    · right
      refine ⟨h, h1, ?_⟩
      by_cases hp : d.produced + 1 < d.count
      · left; refine ⟨hp, ?_⟩; rw [if_pos h, h2]; exact if_pos hp
      · right; refine ⟨hp, ?_⟩; rw [if_pos h, h2]; exact if_neg hp
  · left; simp [h]

theorem drainStep_cases (s : State) :
    drainStep s = s ∨
    (s.dec.state = .drain ∧
      ((s.dec.bytesIn < s.dec.len ∧ ∃ b, s.host.decOffer = some b ∧ drainStep s =
        { s with
          dec := { s.dec with bytesIn := s.dec.bytesIn + 1 }
          host := { s.host with decOffer := none, decSent := s.host.decSent ++ [b] } }) ∨
       (¬s.dec.bytesIn < s.dec.len ∧ s.dec.poValid = false ∧ drainStep s =
        { s with dec := { s.dec with state := if s.dec.err = none then .done else .error } }))) := by
  unfold drainStep
  by_cases h : s.dec.state = .drain
  · by_cases hb : s.dec.bytesIn < s.dec.len
    · rcases upDiscard_cases s with ⟨_, h2⟩ | ⟨_, _, b, hb2, h2⟩
      · left; simp [hb, h2]
      · right; refine ⟨h, Or.inl ⟨hb, b, hb2, ?_⟩⟩; simp [h, hb, h2]
    · cases hp : s.dec.poValid
      · right; refine ⟨h, Or.inr ⟨hb, rfl, ?_⟩⟩; simp [h, hb]
      · left; simp [hb]
  · left; simp [h]

/-- The step of DEC's present state, whichever move takes it. -/
theorem byteStep_cases (s : State) :
    byteStep s = s ∨ (s.dec.state = .runGroup ∧ byteStep s = runGroupStep s) ∨
    (s.dec.state = .codeGroup ∧ byteStep s = codeGroupStep s) ∨ (s.dec.state = .drain ∧ byteStep s = drainStep s) := by
  unfold byteStep
  cases s.dec.state <;> simp

/-- A nibble item is the group step, when it is the nibble the unpacker holds next (log 9). -/
theorem nibbleStep_cases (n : Nibble) (s : State) :
    nibbleStep n s = s ∨ (decInGroup s.dec = true ∧ nextNibble s = some n ∧ nibbleStep n s = byteStep s) := by
  unfold nibbleStep
  split
  · rename_i h
    simp only [Bool.and_eq_true, beq_iff_eq] at h
    exact Or.inr ⟨h.1, h.2, rfl⟩
  · exact Or.inl rfl

/-- A byte transfer is an offer and DEC's step, in one (log 9). -/
theorem byteTransfer_cases (b : Byte) (s : State) :
    byteTransfer b s = s ∨
    (decWantsByte s.dec = true ∧ s.host.decOffer = none ∧
      byteTransfer b s = byteStep { s with host := offerByte b s.host }) := by
  unfold byteTransfer
  split
  · rename_i h
    simp only [Bool.and_eq_true, Option.isNone_iff_eq_none] at h
    exact Or.inr ⟨h.1, h.2, rfl⟩
  · exact Or.inl rfl

/-- A pixel transfer is an offer and ENC's step, in one (log 9). -/
theorem pixelTransfer_cases (v : Pixel) (s : State) :
    pixelTransfer v s = s ∨
    (encWantsPixel s.enc = true ∧ s.host.encOffer = none ∧
      pixelTransfer v s = acceptPixelStep { s with host := offerPixel v s.host }) := by
  unfold pixelTransfer
  split
  · rename_i h
    simp only [Bool.and_eq_true, Option.isNone_iff_eq_none] at h
    exact Or.inr ⟨h.1, h.2, rfl⟩
  · exact Or.inl rfl

/-! ## Reset and free turns -/

theorem offerAfterReset_cases {α : Type} (withdraws : Bool) (offer : Option α) :
    offerAfterReset withdraws offer = offer ∨ offerAfterReset withdraws offer = none := by
  cases offer <;> cases withdraws <;> simp [offerAfterReset]

theorem turnOf_cases (k : Nat) : turnOf k = .enc ∨ turnOf k = .dec := by unfold turnOf; split <;> simp

theorem turnOf_succ_ne (k : Nat) : turnOf (k + 1) ≠ turnOf k := by
  unfold turnOf
  rcases Nat.mod_two_eq_zero_or_one k with h | h
  · rw [if_neg (by omega), if_pos h]; exact Move.noConfusion
  · rw [if_pos (by omega), if_neg (by omega)]; exact Move.noConfusion

theorem freeTurn_cases (s : State) :
    (s.turnsTaken < turnsOf s.turn ∧ freeTurn s = (turnOf s.turn, { s with turnsTaken := s.turnsTaken + 1 })) ∨
    (¬s.turnsTaken < turnsOf s.turn ∧
      freeTurn s = (turnOf (s.turn + 1), { s with turn := s.turn + 1, turnsTaken := 1 })) := by
  unfold freeTurn
  split
  · exact .inl ⟨‹_›, rfl⟩
  · exact .inr ⟨‹_›, rfl⟩

end Sys2Proof.Machine
end

