-- ==== Sys2Proof/Laws/PerInstr.lean ====
section
/-! SUPPORT. Statements made per instruction, one lemma per constructor. -/

namespace Sys2Proof.Laws.ItemFitsItsFormat

open Sys2Proof

/-- The item of an instruction, if it has one, has no bit beyond its format's width (R68, R88, R90). -/
def Statement (i : Instr) : Prop := ∀ it, encode i = some it → it.bits.toNat < 2 ^ formatWidth it.format

/-- A command word has 68 bits. -/
theorem encodeCommand_lt (op : BitVec 2) (count : Count) (len : Length) : (encodeCommand op count len).toNat < 2 ^ 68 := by
  have ho := op.isLt
  have hc := count.isLt
  have hl := len.isLt
  have h1 : op.toNat * 2 ^ 32 ||| count.toNat < 2 ^ 34 := Nat.or_lt_two_pow (by omega) (by omega)
  have h2 : (op.toNat * 2 ^ 32 ||| count.toNat) * 2 ^ 34 ||| len.toNat < 2 ^ 68 :=
    Nat.or_lt_two_pow (by omega) (by omega)
  have e : (encodeCommand op count len).toNat = (op.toNat * 2 ^ 32 ||| count.toNat) * 2 ^ 34 ||| len.toNat := by
    unfold encodeCommand
    rw [BitVec.toNat_append, BitVec.toNat_append, BitVec.toNat_append, Nat.shiftLeft_eq, Nat.shiftLeft_eq,
      Nat.shiftLeft_eq, BitVec.toNat_ofNat, Nat.zero_mod, Nat.zero_mul, Nat.zero_or]
  rw [e]
  exact h2

/-- An item of w bits, widened, has w bits. -/
theorem setWidth_lt {w : Nat} (b : BitVec w) (h : w ≤ 72) : (b.setWidth 72).toNat < 2 ^ w := by
  rw [BitVec.toNat_setWidth, Nat.mod_eq_of_lt (Nat.lt_of_lt_of_le b.isLt (Nat.pow_le_pow_right (by decide) h))]
  exact b.isLt

/-- An instruction with no item. -/
theorem of_none {i : Instr} (h : encode i = none) : Statement i := by
  intro it hit
  rw [h] at hit
  cases hit

theorem encStart (count : Count) (len : Length) : Statement (.encStart count len) := by
  rintro it ⟨⟩
  exact encodeCommand_lt _ _ _
theorem decStart (count : Count) (len : Length) : Statement (.decStart count len) := by
  rintro it ⟨⟩
  exact encodeCommand_lt _ _ _
theorem cmdReserved10 (count : Count) (len : Length) : Statement (.cmdReserved10 count len) := by
  rintro it ⟨⟩
  exact encodeCommand_lt _ _ _
theorem cmdReserved11 (count : Count) (len : Length) : Statement (.cmdReserved11 count len) := by
  rintro it ⟨⟩
  exact encodeCommand_lt _ _ _
theorem nibTerm (p : BitVec 3) : Statement (.nibTerm p) := by
  rintro it ⟨⟩
  exact setWidth_lt _ (by decide)
theorem nibCont (p : BitVec 3) : Statement (.nibCont p) := by
  rintro it ⟨⟩
  exact setWidth_lt _ (by decide)
theorem streamByte (hi lo : Nibble) : Statement (.streamByte hi lo) := by
  rintro it ⟨⟩
  exact setWidth_lt _ (by decide)
theorem pixel (v : Pixel) : Statement (.pixel v) := by
  rintro it ⟨⟩
  exact setWidth_lt _ (by decide)
theorem statusSel (sel : BitVec 4) : Statement (.statusSel sel) := by
  rintro it ⟨⟩
  exact setWidth_lt _ (by decide)
theorem encPixelIn (v : Pixel) : Statement (.encPixelIn v) := by
  rintro it ⟨⟩
  exact setWidth_lt _ (by decide)
theorem decByteIn (b : Byte) : Statement (.decByteIn b) := by
  rintro it ⟨⟩
  exact setWidth_lt _ (by decide)
theorem encTake : Statement .encTake := by
  rintro it ⟨⟩
  decide
theorem decTake : Statement .decTake := by
  rintro it ⟨⟩
  decide
theorem statusRead (sel : BitVec 4) : Statement (.statusRead sel) := by
  rintro it ⟨⟩
  exact setWidth_lt _ (by decide)
theorem statusReadUnused (sel : BitVec 4) : Statement (.statusReadUnused sel) := by
  rintro it ⟨⟩
  exact setWidth_lt _ (by decide)
theorem reset : Statement .reset := by
  rintro it ⟨⟩
  decide
theorem vle (v : Nat) : Statement (.vle v) := of_none rfl
theorem pack (l : List Nibble) : Statement (.pack l) := of_none rfl
theorem unpack (b : List Byte) : Statement (.unpack b) := of_none rfl
theorem vld (l : List Nibble) (p : Nat) : Statement (.vld l p) := of_none rfl
theorem zz (d : Int) : Statement (.zz d) := of_none rfl
theorem unzz (c : Nat) : Statement (.unzz c) := of_none rfl
theorem delta (p prev : Pixel) : Statement (.delta p prev) := of_none rfl
theorem recon (prev : Pixel) (delta : Int) : Statement (.recon prev delta) := of_none rfl
theorem rvlEncode (pixels : List Pixel) : Statement (.rvlEncode pixels) := of_none rfl
theorem rvlDecode (bytes : List Byte) (count : Count) : Statement (.rvlDecode bytes count) := of_none rfl
theorem vleLoad (v : BitVec 32) : Statement (.vleLoad v) := of_none rfl
theorem vleEmit : Statement .vleEmit := of_none rfl
theorem pkWrite (n : Nibble) : Statement (.pkWrite n) := of_none rfl
theorem pkFlush : Statement .pkFlush := of_none rfl
theorem pkClear : Statement .pkClear := of_none rfl
theorem upRead : Statement .upRead := of_none rfl
theorem upDiscard : Statement .upDiscard := of_none rfl
theorem upClear : Statement .upClear := of_none rfl
theorem vldStart : Statement .vldStart := of_none rfl
theorem vldStep (n : Nibble) : Statement (.vldStep n) := of_none rfl
theorem prevUpdate (side : Side) (v : Pixel) : Statement (.prevUpdate side v) := of_none rfl
theorem isZero (p : Pixel) : Statement (.isZero p) := of_none rfl
theorem overrunCheck : Statement .overrunCheck := of_none rfl
theorem rangeCheck : Statement .rangeCheck := of_none rfl
theorem encAcceptPixel : Statement .encAcceptPixel := of_none rfl
theorem encAcceptEnd : Statement .encAcceptEnd := of_none rfl
theorem encEmitRun : Statement .encEmitRun := of_none rfl
theorem encEmitCode : Statement .encEmitCode := of_none rfl
theorem encEmitTail : Statement .encEmitTail := of_none rfl
theorem encFlush : Statement .encFlush := of_none rfl
theorem decRunGroup : Statement .decRunGroup := of_none rfl
theorem decEmitZeros : Statement .decEmitZeros := of_none rfl
theorem decCodeGroup : Statement .decCodeGroup := of_none rfl
theorem decEmitValue : Statement .decEmitValue := of_none rfl
theorem decDrain : Statement .decDrain := of_none rfl
theorem decErrorEntry (code : ErrCode) : Statement (.decErrorEntry code) := of_none rfl

end Sys2Proof.Laws.ItemFitsItsFormat
end

