-- ==== Sys2Proof/Laws/Step.lean ====
section
/-! SUPPORT. What one step can do, once: which instructions a step can run, and the packaging of "every operation keeps P,
so every step keeps P". -/

namespace Sys2Proof.Machine

open Sys2Proof

/-- The decoder yields only instructions that have an encoding. -/
theorem decode_encodable {it : Item} {i : Instr} (h : decode it = .ok i) : (encode i).isSome = true := by
  unfold decode at h
  split at h
  · injection h with h
    subst h
    cases it.format <;> simp only [decodeBits, decodeCommand, decodeNibble, decodeStatus]
    case cmd68 => split <;> [rfl; split <;> [rfl; split <;> rfl]]
    case nibble4 => split <;> rfl
    case status => split <;> rfl
    all_goals rfl
  · cases h

theorem encNext_cases {e : Enc} {i : Instr} (h : encNext e = some i) :
    i = .encAcceptPixel ∨ i = .encAcceptEnd ∨ i = .encEmitRun ∨ i = .encEmitCode ∨ i = .encEmitTail ∨ i = .encFlush := by
  unfold encNext at h
  cases hs : e.state <;> simp only [hs] at h <;> try split at h
  all_goals try split at h
  all_goals simp_all

theorem decNext_cases {d : Dec} {i : Instr} (h : decNext d = some i) :
    i = .decRunGroup ∨ i = .decEmitZeros ∨ i = .decCodeGroup ∨ i = .decEmitValue ∨ i = .decDrain := by
  unfold decNext at h
  cases hs : d.state <;> simp_all

/-- Every operation a step can run keeps P. The first field says that P reads nothing but the engines, the host's side
of their channels and CMD_ERR's engines; the others are the operations, one each. -/
structure KeptByOps (P : State → Prop) : Prop where
  parts : ∀ s t, P s → encPart t = encPart s → decPart t = decPart s → P t
  encStart : ∀ s c, P s → encBusy s.enc.state = false →
    P { s with enc := encJobStart c, host := { s.host with encSent := [], encGot := [] } }
  decStart : ∀ s c l, P s → decBusy s.dec.state = false →
    P { s with dec := decJobStart c l, host := { s.host with decSent := [], decGot := [] } }
  encOffer : ∀ s o, P s → P { s with host := { s.host with encOffer := o } }
  decOffer : ∀ s o, P s → P { s with host := { s.host with decOffer := o } }
  takeByte : ∀ s, P s → P (hostTakeByte s)
  takePixel : ∀ s, P s → P (hostTakePixel s)
  reset : ∀ s, P s → P (resetEvent s)
  acceptPixel : ∀ s, P s → P (acceptPixelStep s)
  acceptEnd : ∀ s, P s → P { s with enc := acceptEndStep s.enc }
  emitRun : ∀ s, P s → P { s with enc := emitRunStep s.enc }
  emitCode : ∀ s, P s → P { s with enc := emitCodeStep s.enc }
  emitTail : ∀ s, P s → P { s with enc := emitTailStep s.enc }
  flush : ∀ s, P s → P { s with enc := flushStep s.enc }
  runGroup : ∀ s, P s → P (runGroupStep s)
  emitZeros : ∀ s, P s → P { s with dec := emitZerosStep s.dec }
  codeGroup : ∀ s, P s → P (codeGroupStep s)
  emitValue : ∀ s, P s → P { s with dec := emitValueStep s.dec }
  drain : ∀ s, P s → P (drainStep s)

theorem KeptByOps.byteStep {P : State → Prop} (k : KeptByOps P) (s : State) (h : P s) : P (byteStep s) := by
  rcases byteStep_cases s with h' | ⟨_, h'⟩ | ⟨_, h'⟩ | ⟨_, h'⟩ <;> rw [h']
  · exact h
  · exact k.runGroup s h
  · exact k.codeGroup s h
  · exact k.drain s h

theorem KeptByOps.nibbleStep {P : State → Prop} (k : KeptByOps P) (n : Nibble) (s : State) (h : P s) :
    P (nibbleStep n s) := by
  rcases nibbleStep_cases n s with h' | ⟨_, _, h'⟩ <;> rw [h']
  · exact h
  · exact k.byteStep s h

theorem KeptByOps.byteTransfer {P : State → Prop} (k : KeptByOps P) (b : Byte) (s : State) (h : P s) :
    P (byteTransfer b s) := by
  rcases byteTransfer_cases b s with h' | ⟨_, h1, h'⟩ <;> rw [h']
  · exact h
  · refine k.byteStep _ ?_
    rcases offerByte_cases b s.host with ⟨_, h2⟩ | ⟨h2, _⟩
    · rw [h2]; exact k.decOffer s _ h
    · exact absurd h1 h2

theorem KeptByOps.pixelTransfer {P : State → Prop} (k : KeptByOps P) (v : Pixel) (s : State) (h : P s) :
    P (pixelTransfer v s) := by
  rcases pixelTransfer_cases v s with h' | ⟨_, h1, h'⟩ <;> rw [h']
  · exact h
  · refine k.acceptPixel _ ?_
    rcases offerPixel_cases v s.host with ⟨_, h2⟩ | ⟨h2, _⟩
    · rw [h2]; exact k.encOffer s _ h
    · exact absurd h1 h2

theorem KeptByOps.execItem {P : State → Prop} (k : KeptByOps P) {i : Instr} {s t : State}
    (hi : (encode i).isSome = true) (h : P s) (ht : exec i s = .next t) : P t := by
  cases i <;> simp only [encode, Option.isSome_none, Bool.false_eq_true] at hi <;> simp only [exec] at ht
  case encStart c l =>
    unfold execEncStart at ht
    split at ht <;> injection ht with ht <;> subst ht
    · exact k.parts s _ h rfl rfl
    · exact k.parts _ _ (k.encStart s c h (eq_false_of_ne_true ‹_›)) rfl rfl
  case decStart c l =>
    unfold execDecStart at ht
    split at ht <;> injection ht with ht <;> subst ht
    · exact k.parts s _ h rfl rfl
    · exact k.parts _ _ (k.decStart s c l h (eq_false_of_ne_true ‹_›)) rfl rfl
  case encPixelIn v =>
    injection ht with ht; subst ht
    rcases offerPixel_cases v s.host with ⟨_, h2⟩ | ⟨_, h2⟩ <;> rw [h2]
    · exact k.encOffer s _ h
    · exact h
  case decByteIn b =>
    injection ht with ht; subst ht
    rcases offerByte_cases b s.host with ⟨_, h2⟩ | ⟨_, h2⟩ <;> rw [h2]
    · exact k.decOffer s _ h
    · exact h
  case nibTerm p => injection ht with ht; subst ht; exact k.nibbleStep _ s h
  case nibCont p => injection ht with ht; subst ht; exact k.nibbleStep _ s h
  case streamByte hi lo => injection ht with ht; subst ht; exact k.byteTransfer _ s h
  case pixel v => injection ht with ht; subst ht; exact k.pixelTransfer _ s h
  case encTake => injection ht with ht; subst ht; exact k.takeByte s h
  case decTake => injection ht with ht; subst ht; exact k.takePixel s h
  case reset => injection ht with ht; subst ht; exact k.reset s h
  all_goals injection ht with ht; subst ht; exact k.parts s _ h rfl rfl

/-- If every operation keeps P, every step keeps P. -/
theorem KeptByOps.step {P : State → Prop} (k : KeptByOps P) {s t : State} (h : P s) (ht : step s = .next t) : P t := by
  have h1 : P (nextMove s).2 := k.parts s _ h (by simp [encPart]) (by simp [decPart])
  unfold Machine.step at ht
  generalize (nextMove s).2 = u at h1 ht
  generalize (nextMove s).1 = m at ht
  cases m with
  | item it =>
    simp only [runMove] at ht
    split at ht
    · rename_i i hd; exact k.execItem (decode_encodable hd) h1 ht
    · cases ht
  | enc =>
    simp only [runMove, runTurn] at ht
    split at ht
    · rename_i i hn
      rcases encNext_cases hn with rfl | rfl | rfl | rfl | rfl | rfl <;> injection ht with ht <;> subst ht
      · exact k.acceptPixel u h1
      · exact k.acceptEnd u h1
      · exact k.emitRun u h1
      · exact k.emitCode u h1
      · exact k.emitTail u h1
      · exact k.flush u h1
    · injection ht with ht; subst ht; exact h1
  | dec =>
    simp only [runMove, runTurn] at ht
    split at ht
    · rename_i i hn
      rcases decNext_cases hn with rfl | rfl | rfl | rfl | rfl <;> injection ht with ht <;> subst ht
      · exact k.runGroup u h1
      · exact k.emitZeros u h1
      · exact k.codeGroup u h1
      · exact k.emitValue u h1
      · exact k.drain u h1
    · injection ht with ht; subst ht; exact h1

/-- If every step keeps P, every run keeps P. -/
theorem runSteps_keeps {P : State → Prop} (hstep : ∀ s t, P s → step s = .next t → P t) :
    ∀ (k : Nat) (s t : State), P s → runSteps k s = .next t → P t
  | 0, s, t, h, ht => by injection ht with ht; exact ht ▸ h
  | k + 1, s, t, h, ht => by
    simp only [runSteps] at ht
    cases hs : step s with
    | next s' => rw [hs] at ht; exact runSteps_keeps hstep k s' t (hstep s s' h hs) ht
    | fault r => rw [hs] at ht; cases ht
    | refused r => rw [hs] at ht; cases ht

/-- A run of j + k steps is one of j and then one of k. -/
theorem runSteps_add (k : Nat) : ∀ (j : Nat) (s t : State), runSteps j s = .next t → runSteps (j + k) s = runSteps k t
  | 0, s, t, h => by injection h with h; rw [h, Nat.zero_add]
  | j + 1, s, t, h => by
    rw [Nat.add_right_comm]
    simp only [runSteps] at h ⊢
    cases hs : step s with
    | next u => rw [hs] at h; exact runSteps_add k j u t h
    | fault r => rw [hs] at h; cases h
    | refused r => rw [hs] at h; cases h

end Sys2Proof.Machine
end

