-- ==== Sys2Proof/Laws/Walk.lean ====
section
/-! SUPPORT. Laws of the walks that the engines' invariants speak of: the encoder's loop pixel by pixel, the decoder's
nibble by nibble, and what one emitted or one read nibble does to the records they are compared with. -/

namespace Sys2Proof.Machine

open Sys2Proof

/-! ## Numbers of bit fields -/

theorem byteOf_toNat (hi lo : Nibble) : (byteOf hi lo).toNat = 16 * hi.toNat + lo.toNat := by revert hi lo; decide

theorem hiNibble_toNat (b : Byte) : (hiNibble b).toNat = b.toNat / 16 := by
  simp [hiNibble, Nat.shiftRight_eq_div_pow]; omega

theorem loNibble_toNat (b : Byte) : (loNibble b).toNat = b.toNat % 16 := by simp [loNibble]

theorem payload_lt (n : Nibble) : (payload n).toNat < 8 := (payload n).isLt

/-- bitlen (R10) is Mathlib's size. -/
theorem bitlen_eq_size (v : Nat) : bitlen v = Nat.size v := by
  unfold bitlen
  split
  · simp_all
  · rename_i h
    exact le_antisymm (Nat.lt_size.mpr (Nat.log2_self_le h)) (Nat.size_le.mpr Nat.lt_log2_self)

/-- V_K holds the number of digits of any value VLE_LOAD gets (R113). -/
theorem octLen_toNat {v : Nat} (h : octLen v ≤ 11) : (BitVec.ofNat 4 (octLen v)).toNat = octLen v := by
  rw [BitVec.toNat_ofNat, Nat.mod_eq_of_lt (by omega)]

/-- An encoder's code has at most 17 bits (R192). -/
theorem zz_delta_lt (p prev : Pixel) : zz (delta p prev) < 2 ^ 17 := by
  have hp := p.isLt
  have hq := prev.isLt
  rcases zz_even_odd (delta p prev) with h | h <;> unfold delta at h ⊢ <;> omega

/-- A run of r ≥ 1 zeros costs at most r nibbles (R8). -/
theorem octLen_le_self {v : Nat} (h : 0 < v) : octLen v ≤ v := by
  by_cases h1 : 1 < octLen v
  · have h0 := pow_octLen_pred_le h1
    have h2 : octLen v - 1 < 2 ^ (octLen v - 1) := Nat.lt_two_pow_self
    have h3 : 2 ^ (octLen v - 1) ≤ 2 ^ (3 * (octLen v - 1)) := Nat.pow_le_pow_right (by decide) (by omega)
    omega
  · omega

/-! ## Groups and the decoder's position -/

/-- Reading through continuation nibbles only accumulates (R86, R170). -/
theorem vldFrom_continue : ∀ (g rest : List Nibble) (acc p : Nat), (∀ m ∈ g, contBit m = true) →
    vldFrom (g ++ rest) acc p =
      vldFrom rest (g.foldl (fun acc m => acc * 8 + (payload m).toNat) acc) (p + g.length)
  | [], rest, acc, p, _ => by simp
  | n :: g, rest, acc, p, h => by
    simp only [List.cons_append, vldFrom, h n (by simp), if_true]
    rw [vldFrom_continue g rest _ _ (fun m hm => h m (by simp [hm]))]
    simp only [List.foldl_cons, List.length_cons]
    congr 1
    omega

theorem vldFrom_pos : ∀ (l : List Nibble) (acc p v q : Nat), vldFrom l acc p = .ok (v, q) → p < q ∧ q ≤ p + l.length
  | [], _, _, _, _, h => by simp [vldFrom] at h
  | n :: t, acc, p, v, q, h => by
    simp only [vldFrom] at h
    split at h
    · have := vldFrom_pos t _ _ _ _ h
      simp only [List.length_cons]
      omega
    · injection h with h
      injection h with _ h
      simp only [List.length_cons]
      omega

/-- A group takes at least one nibble and stays in the list. -/
theorem vld_pos {l : List Nibble} {p v q : Nat} (hp : p ≤ l.length) (h : vld l p = .ok (v, q)) : p < q ∧ q ≤ l.length := by
  have := vldFrom_pos _ _ _ _ _ h
  rw [List.length_drop] at this
  omega

/-! ## The encoder's loop -/

theorem encodeNibs_zeros (prev : Pixel) : ∀ (run r : Nat) (rest : List Pixel),
    encodeNibs prev r (List.replicate run 0 ++ rest) = encodeNibs prev (r + run) rest
  | 0, r, rest => by simp
  | run + 1, r, rest => by
    simp only [List.replicate_succ, List.cons_append, encodeNibs, isZero, beq_self_eq_true, if_true]
    rw [encodeNibs_zeros prev run (r + 1) rest]
    congr 1
    omega

/-- The lone run group at the end, when the walk ends in a run of zeros (R232). -/
def walkEnd (w : EncWalk) : List Nibble := if 0 < w.run then vle w.run else []

theorem encodeNibs_eq_walk (l : List Pixel) : ∀ w : EncWalk,
    w.nibs ++ encodeNibs w.prev w.run l = (l.foldl encWalkStep w).nibs ++ walkEnd (l.foldl encWalkStep w) := by
  induction l with
  | nil => intro w; rfl
  | cons p t ih =>
    intro w
    simp only [encodeNibs, List.foldl_cons, encWalkStep]
    split
    · exact ih { w with run := w.run + 1 }
    · rw [← ih { nibs := w.nibs ++ vle w.run ++ vle (zz (delta p w.prev)), prev := p, run := 0 }]
      simp [List.append_assoc]

/-- RVL_Encode is the packed walk. -/
theorem rvlEncode_eq_walk (l : List Pixel) : rvlEncode l = pack ((encWalk l).nibs ++ walkEnd (encWalk l)) :=
  congrArg pack (encodeNibs_eq_walk l { nibs := [], prev := 0, run := 0 })

theorem encWalk_append (l : List Pixel) (p : Pixel) : encWalk (l ++ [p]) = encWalkStep (encWalk l) p := by simp [encWalk]

theorem afterEmit_written (s : State) (h : pkEnabled s.enc = true) :
    encWritten { s with enc := afterEmit s.enc } = encWritten s ++ [vleNibble s.enc] := by
  unfold encWritten afterEmit pkEnabled at *
  cases hp : s.enc.pPend <;> cases ho : s.enc.obValid <;> simp_all

/-- The job's bytes so far are its nibbles so far, packed (R134). -/
theorem encBytes_eq_pack (s : State) : encBytes s = pack (encWritten s) := by
  unfold encBytes encWritten
  rw [List.append_assoc, List.append_assoc, pack_unpack_append]
  congr 1
  cases hp : s.enc.pPend <;> cases ho : s.enc.obValid <;> simp [pack]

/-- The nibble VLE_EMIT gives is the next one of the group (R115). -/
theorem vleNibble_eq {e : Enc} {v : Nat} (h : vleAt e v) : vleNibble e = (vle v)[e.vJ.toNat]'(by simpa using h.2.2) := by
  obtain ⟨h1, h2, h3⟩ := h
  rw [vle_getElem]
  unfold vleNibble
  rw [h2, if_pos h3]
  congr 1
  apply BitVec.eq_of_toNat_eq
  simp [BitVec.extractLsb'_toNat, h1]

theorem vleLast_iff {e : Enc} {v : Nat} (h : vleAt e v) : vleLast e = true ↔ e.vJ.toNat + 1 = octLen v := by
  simp [vleLast, h.2.1]

theorem vleAt_vleLoad {v : BitVec 32} {e : Enc} : vleAt (vleLoad v e) v.toNat :=
  ⟨rfl, octLen_toNat (octLen_le_eleven v.isLt), octLen_pos _⟩

/-! ## The decoder's loop -/

theorem decWalk_append (n : Nat) (l : List Nibble) (x : Nibble) :
    decWalk n (l ++ [x]) = decWalkStep n (decWalk n l) x := by simp [decWalk]

theorem vldStep_acc_toNat (n : Nibble) (d : Dec) :
    (vldStep n d).acc.toNat = d.acc.toNat % 2 ^ 29 * 8 + (payload n).toNat := by
  rw [vldStep_acc]
  simp only [BitVec.toNat_append, BitVec.extractLsb'_toNat, Nat.shiftRight_zero]
  rw [Nat.shiftLeft_eq, Nat.mul_comm, ← Nat.two_pow_add_eq_or_of_lt (payload_lt n)]

theorem vldStep_ovf_iff (n : Nibble) (d : Dec) : (vldStep n d).ovf = (d.ovf || decide (2 ^ 29 ≤ d.acc.toNat)) := by
  rw [vldStep_ovf]
  unfold accOverflow
  congr 1
  have hf : (d.acc.extractLsb' 29 3).toNat = d.acc.toNat / 2 ^ 29 := by
    rw [BitVec.extractLsb'_toNat, Nat.shiftRight_eq_div_pow]
    have := d.acc.isLt
    exact Nat.mod_eq_of_lt (by omega)
  by_cases h : 2 ^ 29 ≤ d.acc.toNat
  · rw [decide_eq_true h, bne_iff_ne]
    intro h0
    rw [h0] at hf
    simp at hf
    omega
  · rw [decide_eq_false h, bne_eq_false_iff_eq]
    apply BitVec.eq_of_toNat_eq
    rw [hf]
    simp
    omega

/-- A code of 2^32 or more is out of range, whatever the predictor (R173). -/
theorem recon_of_big (prev : Pixel) {v : Nat} (h : 2 ^ 32 ≤ v) : recon prev (unzz v) = .error .outOfRange := by
  have hp := prev.isLt
  have hu := unzz_even_odd v
  unfold recon
  rw [if_pos (by omega)]

end Sys2Proof.Machine
end

