-- ==== Sys2Proof/Tests/Slice0.lean ====
section
/-! SUPPORT. The model's own tests: well-formedness, words written out from the spec's encodings, the spec's worked
examples (spec/95_test_vectors.md and the rules' examples), and witnesses for the hypotheses of the statements. -/

namespace Sys2Proof.Tests

open Sys2Proof Sys2Proof.Machine

/-! ## Small states -/

/-- The next state of an outcome. -/
def nextOf (o : Host.Outcome State Fault Refusal) : Option State :=
  match o with
  | .next t => some t
  | .fault _ => none
  | .refused _ => none

/-- What an instruction returned. -/
def retOf (i : Instr) (s : State) : Option Ret := (nextOf (exec i s)).map State.ret

/-- ENC's registers after an instruction. -/
def encOf (i : Instr) (s : State) : Option Enc := (nextOf (exec i s)).map State.enc

/-- DEC's registers after an instruction. -/
def decOf (i : Instr) (s : State) : Option Dec := (nextOf (exec i s)).map State.dec

/-- After reset, but for ENC's registers and the offer on enc_in. -/
def encAt (e : Enc) (o : Option Pixel) : State :=
  { State.reset with enc := e, host := { State.reset.host with encOffer := o } }

/-- After reset, but for DEC's registers and the offer on dec_in. -/
def decAt (d : Dec) (o : Option Byte) : State :=
  { State.reset with dec := d, host := { State.reset.host with decOffer := o } }

/-- ENC in a state with nothing else set. -/
def encIn (st : EncState) : State := encAt { encReset with state := st } none

/-- DEC in a state with nothing else set. -/
def decIn (st : DecState) : State := decAt { decReset with state := st } none

/-! ## WellFormed refuses an ill-formed term of each check -/

theorem test_wf_status_number : WellFormed (.statusRead 11) = true ∧ WellFormed (.statusRead 12) = false := by decide
theorem test_wf_unused_number :
    WellFormed (.statusReadUnused 12) = true ∧ WellFormed (.statusReadUnused 11) = false := by decide
theorem test_wf_vle : WellFormed (.vle 4294967295) = true ∧ WellFormed (.vle 4294967296) = false := by decide
theorem test_wf_vld : WellFormed (.vld [0] 1) = true ∧ WellFormed (.vld [0] 2) = false := by decide
theorem test_wf_delta : WellFormed (.delta 1 0) = true ∧ WellFormed (.delta 0 1) = false := by decide
theorem test_wf_encode_length : WellFormed (.rvlEncode (List.replicate (2 ^ 32) 0)) = false := by
  simp [WellFormed, -List.reduceReplicate]
theorem test_wf_decode_length : WellFormed (.rvlDecode (List.replicate (2 ^ 34) 0) 0) = false := by
  simp [WellFormed, -List.reduceReplicate]

/-! ## Decode: words from spec/30_encoding.md R80, R85, R88, R90 and spec/48_host_interface.md -/

theorem test_decode_encStart : decode ⟨.cmd68, 0x00000003400000000⟩ = .ok (.encStart 13 0) := by decide
theorem test_decode_decStart : decode ⟨.cmd68, 0x40000003400000006⟩ = .ok (.decStart 13 6) := by decide
theorem test_decode_reserved10 :
    decode ⟨.cmd68, 0x80000000400000002⟩ = .ok (.cmdReserved10 1 2) := by decide
theorem test_decode_reserved11 :
    decode ⟨.cmd68, 0xFFFFFFFFFFFFFFFFF⟩ = .ok (.cmdReserved11 0xFFFFFFFF 0x3FFFFFFFF) := by decide
theorem test_decode_nibTerm : decode ⟨.nibble4, 0b0110⟩ = .ok (.nibTerm 0b110) := by decide
theorem test_decode_nibCont : decode ⟨.nibble4, 0b1001⟩ = .ok (.nibCont 0b001) := by decide
theorem test_decode_streamByte : decode ⟨.byte8, 0b10010010⟩ = .ok (.streamByte 0b1001 0b0010) := by decide
theorem test_decode_pixel : decode ⟨.pixel16, 0xFFFE⟩ = .ok (.pixel 65534) := by decide
theorem test_decode_statusSel : decode ⟨.sel4, 0b1100⟩ = .ok (.statusSel 12) := by decide
theorem test_decode_encPixelIn : decode ⟨.encIn, 0x0005⟩ = .ok (.encPixelIn 5) := by decide
theorem test_decode_decByteIn : decode ⟨.decIn, 0x92⟩ = .ok (.decByteIn 0x92) := by decide
theorem test_decode_takes : decode ⟨.encOut, 0⟩ = .ok .encTake ∧ decode ⟨.decOut, 0⟩ = .ok .decTake := by decide
theorem test_decode_status :
    decode ⟨.status, 0b1011⟩ = .ok (.statusRead 11) ∧ decode ⟨.status, 0b1100⟩ = .ok (.statusReadUnused 12) := by
  decide
theorem test_decode_reset : decode ⟨.resetEvent, 0⟩ = .ok .reset := by decide
theorem test_decode_refuses_wide :
    decode ⟨.cmd68, 0x100000000000000000⟩ = .error (.tooWide .cmd68) ∧
    decode ⟨.nibble4, 16⟩ = .error (.tooWide .nibble4) ∧ decode ⟨.encOut, 1⟩ = .error (.tooWide .encOut) := by decide
theorem test_table_words :
    decodeTableWord 72 0x40000003400000006 = some (.decStart 13 6) ∧ decodeTableWord 8 0xA = some (.nibCont 2) ∧
    decodeTableWord 8 0x92 = some (.streamByte 9 2) ∧ decodeTableWord 16 0x1234 = some (.pixel 0x1234) ∧
    decodeTableWord 0 0 = none ∧ decodeTableWord 72 0x100000000000000000 = none := by decide
theorem test_fetch_word_runs : (nextOf (step (State.reset.withFetchWord 72 0x40000003400000006))).map State.dec =
    some { decReset with state := .runGroup, count := 13, len := 6 } := by decide

/-! ## The functions (spec/95_test_vectors.md L2) -/

theorem test_vle_131070 : retOf (.vle 131070) State.reset = some (.nibbles [0xB, 0xF, 0xF, 0xF, 0xF, 0x6]) := by decide
theorem test_vle_zero_and_largest :
    retOf (.vle 0) State.reset = some (.nibbles [0]) ∧
    retOf (.vle 4294967295) State.reset =
      some (.nibbles [0xB, 0xF, 0xF, 0xF, 0xF, 0xF, 0xF, 0xF, 0xF, 0xF, 0x7]) := by decide
theorem test_pack_odd : retOf (.pack [0x0, 0x9, 0x2]) State.reset = some (.bytes [0x09, 0x20]) := by decide
theorem test_unpack : retOf (.unpack [0x02, 0x1F]) State.reset = some (.nibbles [0x0, 0x2, 0x1, 0xF]) := by decide
theorem test_vld_stops_at_terminal : retOf (.vld [0x9, 0x2, 0x7] 0) State.reset = some (.group 10 2) := by decide
theorem test_vld_truncated : retOf (.vld [0x3, 0x9] 1) State.reset = some (.failed .truncated) := by decide
theorem test_zz_negative : retOf (.zz (-6)) State.reset = some (.code 11) := by decide
theorem test_zz_positive : retOf (.zz 65535) State.reset = some (.code 131070) := by decide
theorem test_unzz_odd : retOf (.unzz 131071) State.reset = some (.int (-65536)) := by decide
theorem test_unzz_even : retOf (.unzz 131070) State.reset = some (.int 65535) := by decide
theorem test_delta : retOf (.delta 3 5) State.reset = some (.int (-2)) := by decide
theorem test_recon_out_of_range : retOf (.recon 5 (-6)) State.reset = some (.failed .outOfRange) := by decide
theorem test_recon_zero : retOf (.recon 1 (-1)) State.reset = some (.recon 0) := by decide
theorem test_rvlEncode_scenario : retOf (.rvlEncode [0, 0, 1, 2, 0, 0, 3, 4, 5, 0, 0, 0, 6]) State.reset =
    some (.bytes [0x22, 0x02, 0x22, 0x02, 0x02, 0x32]) := by decide
theorem test_rvlEncode_padding : retOf (.rvlEncode [5]) State.reset = some (.bytes [0x09, 0x20]) := by decide
theorem test_rvlDecode_scenario : retOf (.rvlDecode [0x22, 0x02, 0x22, 0x02, 0x02, 0x32] 13) State.reset =
    some (.pixels [0, 0, 1, 2, 0, 0, 3, 4, 5, 0, 0, 0, 6]) := by decide
theorem test_rvlDecode_overrun : retOf (.rvlDecode [0x30] 2) State.reset = some (.failed .overrun) := by decide

/-! ## The internal operations (the rules' examples) -/

theorem test_vleLoad : encOf (.vleLoad 131070) State.reset =
    some { encReset with vSrc := 131070, vK := 6, vJ := 0 } := by decide
theorem test_vleEmit_first : retOf .vleEmit (encAt { encReset with vSrc := 8, vK := 2 } none) =
    some (.emitted 0x9 false) := by decide
theorem test_vleEmit_last : encOf .vleEmit (encAt { encReset with vSrc := 8, vK := 2, vJ := 1, pPend := true, pHi := 9 } none) =
    some { encReset with vSrc := 8, vK := 2, vJ := 2, pHi := 9, ob := 0x90, obValid := true } := by decide
theorem test_pkWrite_pair : encOf (.pkWrite 0x9) (encAt { encReset with pPend := true } none) =
    some { encReset with ob := 0x09, obValid := true } := by decide
theorem test_pkWrite_stalls : encOf (.pkWrite 1) (encAt { encReset with pPend := true, pHi := 2, obValid := true } none) =
    some { encReset with pPend := true, pHi := 2, obValid := true } := by decide
theorem test_pkFlush : encOf .pkFlush (encAt { encReset with state := .flush, pPend := true, pHi := 2 } none) =
    some { encReset with state := .flush, pHi := 2, ob := 0x20, obValid := true } := by decide
theorem test_pkFlush_only_in_flush :
    encOf .pkFlush (encAt { encReset with state := .accept, pPend := true, pHi := 2 } none) =
    some { encReset with state := .accept, pPend := true, pHi := 2 } := by decide
theorem test_pkClear : encOf .pkClear (encAt { encReset with pPend := true, pHi := 2, ob := 7, obValid := true, run := 3 } none) =
    some { encReset with run := 3 } := by decide
theorem test_upRead_high : retOf .upRead (decAt { decReset with len := 1 } (some 0x92)) = some (.nibble 0x9) := by decide
theorem test_upRead_low : retOf .upRead (decAt { decReset with len := 1, bytesIn := 1, loPend := true, lo := 2 } none) =
    some (.nibble 0x2) := by decide
theorem test_upDiscard : decOf .upDiscard (decAt { decReset with state := .drain, len := 7, bytesIn := 6 } (some 0xFF)) =
    some { decReset with state := .drain, len := 7, bytesIn := 7 } := by decide
theorem test_upDiscard_only_in_drain :
    nextOf (exec .upDiscard (decAt { decReset with state := .runGroup, len := 7, bytesIn := 6 } (some 0xFF))) =
    some (decAt { decReset with state := .runGroup, len := 7, bytesIn := 6 } (some 0xFF)) := by decide
theorem test_upClear : decOf .upClear (decAt { decReset with loPend := true, lo := 2, bytesIn := 3, nibbles := 5 } none) =
    some { decReset with nibbles := 5 } := by decide
theorem test_vldStart : decOf .vldStart (decAt { decReset with acc := 5, ovf := true, nibbles := 3 } none) =
    some { decReset with nibbles := 3 } := by decide
theorem test_vldStep_accumulates : decOf (.vldStep 0x0) (decAt { decReset with acc := 1, nibbles := 1 } none) =
    some { decReset with acc := 8, nibbles := 2 } := by decide
theorem test_vldStep_overflows : decOf (.vldStep 0x8) (decAt { decReset with acc := 0x20000000 } none) =
    some { decReset with acc := 0, ovf := true, nibbles := 1 } := by decide
theorem test_prevUpdate :
    encOf (.prevUpdate .enc 6) State.reset = some { encReset with prev := 6 } ∧
    decOf (.prevUpdate .dec 6) State.reset = some { decReset with prev := 6 } := by decide
theorem test_isZero :
    retOf (.isZero 0) State.reset = some (.truth true) ∧ retOf (.isZero 65535) State.reset = some (.truth false) := by
  decide
theorem test_overrunCheck_passes :
    decOf .overrunCheck (decAt { decReset with produced := 9, count := 13, acc := 3 } none) =
    some { decReset with produced := 9, count := 13, acc := 3, zrem := 3, state := .emitZeros } := by decide
theorem test_overrunCheck_fails :
    decOf .overrunCheck (decAt { decReset with produced := 9, count := 13, acc := 5, poValid := true } none) =
    some { decReset with produced := 9, count := 13, acc := 5, err := some .overrun, state := .drain } := by decide
theorem test_rangeCheck_passes : decOf .rangeCheck (decAt { decReset with prev := 5, acc := 3 } none) =
    some { decReset with prev := 3, val := 3, acc := 3, state := .emitValue } := by decide
theorem test_rangeCheck_fails : decOf .rangeCheck (decAt { decReset with prev := 5, acc := 11 } none) =
    some { decReset with prev := 5, acc := 11, err := some .outOfRange, state := .drain } := by decide

/-! ## Commands, the host's moves, reset -/

theorem test_encStart_busy : (nextOf (exec (.encStart 1 0) (encIn .flush))).map State.cmdErr = some .busy := by decide
theorem test_encStart : encOf (.encStart 13 9) (encAt { encReset with state := .done, prev := 6, bytes := 6 } none) =
    some { encReset with state := .accept, count := 13 } := by decide
theorem test_decStart_clears_error :
    decOf (.decStart 0 2) (decAt { decReset with state := .error, err := some .overrun, acc := 4 } none) =
    some { decReset with state := .drain, len := 2 } := by decide
theorem test_decStart_busy : (nextOf (exec (.decStart 1 0) (decIn .drain))).map State.cmdErr = some .busy := by decide
theorem test_cmdReserved10 : nextOf (exec (.cmdReserved10 3 4) (encIn .accept)) =
    some { encIn .accept with cmdErr := .reservedOp } := by decide
theorem test_cmdReserved11 : nextOf (exec (.cmdReserved11 0 0) State.reset) =
    some { State.reset with cmdErr := .reservedOp } := by decide
theorem test_offers :
    (nextOf (exec (.encPixelIn 5) State.reset)).map (fun s => s.host.encOffer) = some (some 5) ∧
    (nextOf (exec (.decByteIn 0x92) State.reset)).map (fun s => s.host.decOffer) = some (some 0x92) := by decide
theorem test_encTake : (nextOf (exec .encTake (encAt { encReset with ob := 0x22, obValid := true } none))).map
    (fun s => (s.host.encGot, s.enc.bytes, s.enc.obValid)) = some ([0x22], 1, false) := by decide
theorem test_decTake : (nextOf (exec .decTake (decAt { decReset with po := 5, poValid := true } none))).map
    (fun s => (s.host.decGot, s.dec.poValid)) = some ([5], false) := by decide
theorem test_statusRead : (nextOf (exec (.statusRead 4) (encAt { encReset with bytes := 6 } none))).map
    (fun s => s.host.status) = some 6 := by decide
theorem test_statusReadUnused : (nextOf (exec (.statusReadUnused 13) (encAt { encReset with bytes := 6 } none))).map
    (fun s => s.host.status) = some 0 := by decide
theorem test_statusSel : (nextOf (exec (.statusSel 1) (encIn .done))).map (fun s => s.host.status) = some 6 := by decide
theorem test_reset : nextOf (exec .reset (encAt { encReset with state := .emitRun, obValid := true, ob := 3 } none)) =
    some { State.reset with resets := 1 } := by decide
theorem test_reset_takes_no_offer :
    (nextOf (exec .reset (encAt { encReset with state := .accept, count := 1 } (some 5)))).map
      (fun s => (s.enc, s.host.encSent)) = some (encReset, []) := by decide
theorem test_nibTerm :
    decOf (.nibTerm 3) (decAt { decReset with state := .runGroup, len := 1, count := 2 } (some 0x30)) =
    some { decReset with
      state := .drain, err := some .overrun, len := 1, count := 2, bytesIn := 1, loPend := true, acc := 3,
      nibbles := 1 } := by decide
theorem test_nibCont :
    decOf (.nibCont 1) (decAt { decReset with state := .codeGroup, loPend := true, lo := 9 } none) =
    some { decReset with state := .codeGroup, lo := 9, acc := 1, nibbles := 1 } := by decide
theorem test_streamByte : decOf (.streamByte 9 2) (decAt { decReset with state := .runGroup, len := 1, count := 2 } none) =
    some { decReset with
      state := .runGroup, len := 1, count := 2, bytesIn := 1, loPend := true, lo := 2, acc := 1, nibbles := 1 } := by
  decide
theorem test_pixel : encOf (.pixel 1) (encAt { encReset with state := .accept, count := 3, index := 2, run := 2 } none) =
    some { encReset with state := .emitRun, count := 3, index := 3, run := 2, pix := 1, vSrc := 2, vK := 1 } := by decide

/-! ## The host's sequences -/

/-- The result of a sequence that ended. -/
def resultOf {α : Type} (r : HostEnd α) : Option α :=
  match r with
  | .finished a _ => some a
  | .failed _ _ => none
  | .rejected _ => none
  | .unfinished _ => none
  | .stopped => none

/-- The error kind a sequence failed with. -/
def kindOf {α : Type} (r : HostEnd α) : Option (BitVec 36) :=
  match r with
  | .finished _ _ => none
  | .failed v _ => some v
  | .rejected _ => none
  | .unfinished _ => none
  | .stopped => none

theorem test_compress_empty : resultOf (compress [] State.reset) = some [] := by decide
theorem test_decompress_truncated : kindOf (decompress [] 1 State.reset) = some 1 := by decide

/-! ## Engine steps (the rules' examples) -/

theorem test_acceptPixel_zero :
    encOf .encAcceptPixel (encAt { encReset with state := .accept, count := 3 } (some 0)) =
    some { encReset with state := .accept, count := 3, index := 1, run := 1 } := by decide
theorem test_acceptEnd_tail : encOf .encAcceptEnd (encAt { encReset with state := .accept, run := 8 } none) =
    some { encReset with state := .emitTail, run := 8, vSrc := 8, vK := 2 } := by decide
theorem test_emitRun_last :
    encOf .encEmitRun (encAt { encReset with state := .emitRun, vSrc := 2, vK := 1, pix := 1, run := 2 } none) =
    some { encReset with
      state := .emitCode, pix := 1, prev := 1, vSrc := 2, vK := 1, pPend := true, pHi := 2 } := by decide
theorem test_emitCode : encOf .encEmitCode (encAt { encReset with state := .emitCode, vSrc := 10, vK := 2, vJ := 1 } none) =
    some { encReset with state := .accept, vSrc := 10, vK := 2, vJ := 2, pPend := true, pHi := 2 } := by decide
theorem test_emitTail : encOf .encEmitTail (encAt { encReset with state := .emitTail, run := 8, vSrc := 8, vK := 2 } none) =
    some { encReset with state := .emitTail, run := 8, vSrc := 8, vK := 2, vJ := 1, pPend := true, pHi := 9 } := by decide
theorem test_flush_pads : encOf .encFlush (encAt { encReset with state := .flush, pPend := true, pHi := 2 } none) =
    some { encReset with state := .flush, pHi := 2, ob := 0x20, obValid := true } := by decide
theorem test_flush_done : encOf .encFlush (encIn .flush) = some { encReset with state := .done } := by decide
theorem test_runGroup_truncated : decOf .decRunGroup (decAt { decReset with state := .runGroup, count := 1, poValid := true } none) =
    some { decReset with state := .drain, count := 1, err := some .truncated } := by decide
theorem test_emitZeros : decOf .decEmitZeros (decAt { decReset with state := .emitZeros, zrem := 2, count := 13, po := 9 } none) =
    some { decReset with state := .emitZeros, zrem := 1, count := 13, produced := 1, poValid := true } := by decide
theorem test_codeGroup :
    decOf .decCodeGroup (decAt { decReset with state := .codeGroup, count := 13, produced := 2, loPend := true, lo := 2 } none) =
    some { decReset with
      state := .emitValue, count := 13, produced := 2, lo := 2, acc := 2, nibbles := 1, val := 1, prev := 1 } := by decide
theorem test_emitValue_last :
    decOf .decEmitValue (decAt { decReset with state := .emitValue, count := 13, produced := 12, val := 6 } none) =
    some { decReset with state := .drain, count := 13, produced := 13, val := 6, po := 6, poValid := true } := by decide
theorem test_drain_error : decOf .decDrain (decAt { decReset with state := .drain, err := some .overrun } none) =
    some { decReset with state := .error, err := some .overrun } := by decide
theorem test_decErrorEntry : decOf (.decErrorEntry .outOfRange) (decAt { decReset with state := .codeGroup, poValid := true, po := 4 } none) =
    some { decReset with state := .drain, err := some .outOfRange, po := 4 } := by decide

/-! ## Witnesses: states and operands that meet the hypotheses of the statements -/

theorem wit_DecodeInvertsEncode :
    (WellFormed (.encStart 0xFFFFFFFF 0x3FFFFFFFF) = true ∧
      encode (.encStart 0xFFFFFFFF 0x3FFFFFFFF) = some ⟨.cmd68, 0x3FFFFFFFFFFFFFFFF⟩) ∧
    (WellFormed (.statusReadUnused 15) = true ∧ encode (.statusReadUnused 15) = some ⟨.status, 15⟩) := by decide
theorem wit_DecodeIsExact :
    decode ⟨.pixel16, 65535⟩ = .ok (.pixel 65535) ∧ decode ⟨.pixel16, 65536⟩ = .error (.tooWide .pixel16) := by decide
theorem wit_StepRunsDecodedItem :
    State.agenda { State.reset with agenda := [.item ⟨.encOut, 0⟩, .enc] } = .item ⟨.encOut, 0⟩ :: [.enc] ∧
    decode ⟨.encOut, 0⟩ = .ok .encTake := by decide
theorem wit_StepTakesEngineTurns :
    State.agenda { State.reset with agenda := [.enc] } = .enc :: [] ∧
    State.agenda { State.reset with agenda := [.dec] } = .dec :: [] ∧
    State.reset.agenda = [] ∧ ¬State.turnsTaken { State.reset with turnsTaken := turnsOf 0 } < turnsOf 0 ∧
    State.turnsTaken { State.reset with turn := 1 } < turnsOf 1 :=
  ⟨rfl, rfl, rfl, Nat.lt_irrefl _, Nat.succ_pos _⟩
theorem wit_OnlyAnOverwideItemStops :
    State.agenda { State.reset with agenda := [.item ⟨.nibble4, 16⟩] } = .item ⟨.nibble4, 16⟩ :: [] ∧
    2 ^ formatWidth .nibble4 ≤ (16 : BitVec 72).toNat := by decide
theorem wit_EncStartBeginsAJob :
    (encIn .accept).enc.state = .accept ∧ (encIn .emitRun).enc.state = .emitRun ∧
    (encIn .emitCode).enc.state = .emitCode ∧ (encIn .emitTail).enc.state = .emitTail ∧
    (encIn .flush).enc.state = .flush ∧ State.reset.enc.state = .idle ∧ (encIn .done).enc.state = .done := by decide
theorem wit_DecStartBeginsAJob :
    (decIn .runGroup).dec.state = .runGroup ∧ (decIn .emitZeros).dec.state = .emitZeros ∧
    (decIn .codeGroup).dec.state = .codeGroup ∧ (decIn .emitValue).dec.state = .emitValue ∧
    (decIn .drain).dec.state = .drain ∧ State.reset.dec.state = .idle ∧ (decIn .done).dec.state = .done ∧
    (decIn .error).dec.state = .error ∧ 0 < (1 : Count).toNat := by decide
theorem wit_OffersAreHeld :
    State.reset.host.encOffer = none ∧ (encAt encReset (some 0)).host.encOffer ≠ none ∧
    State.reset.host.decOffer = none ∧ (decAt decReset (some 0)).host.decOffer ≠ none ∧
    (let s := { encAt { encReset with state := .accept, count := 1 } (some 0) with agenda := [.enc] };
      s.host.encOffer = some 0 ∧ (nextOf (step s)).map (fun t => t.host.encOffer) = some none) ∧
    (let s := { decAt { decReset with state := .drain, len := 1 } (some 7) with agenda := [.enc] };
      s.host.decOffer = some 7 ∧ (nextOf (step s)).map (fun t => t.host.decOffer) = some (some 7)) := by decide
theorem wit_OffersAreHeld_not_reset (rest : List Move) : [Move.enc] ≠ sendItem .reset ++ rest :=
  fun h => Move.noConfusion (List.cons.inj h).1
theorem wit_TakesDeliver :
    (encAt { encReset with obValid := true } none).enc.obValid = true ∧ State.reset.enc.obValid = false ∧
    (decAt { decReset with poValid := true } none).dec.poValid = true ∧ State.reset.dec.poValid = false ∧
    decodeResult (decIn .done) = some (.ok []) := ⟨rfl, rfl, rfl, rfl, rfl⟩
theorem wit_NibbleItemsAreReadByDec_pending :
    let s := decAt { decReset with state := .codeGroup, loPend := true, lo := 7 } none
    s.dec.state = .codeGroup ∧ s.dec.loPend = true ∧ s.dec.lo = mkNibble false 7 := by decide
theorem wit_NibbleItemsAreReadByDec_fetched :
    let s := decAt { decReset with state := .runGroup, len := 1 } (some 0x97)
    s.dec.state = .runGroup ∧ s.dec.loPend = false ∧ s.dec.bytesIn < s.dec.len ∧ s.host.decOffer = some 0x97 ∧
      hiNibble 0x97 = mkNibble true 1 := by decide
theorem wit_NibbleItemsAreReadByDec_none : nextNibble State.reset = none := by decide
theorem wit_ByteAndPixelItemsTransfer_group :
    let s := decAt { decReset with state := .codeGroup, len := 1 } none
    s.dec.state = .codeGroup ∧ s.dec.loPend = false ∧ s.dec.bytesIn < s.dec.len ∧ s.host.decOffer = none := by decide
theorem wit_ByteAndPixelItemsTransfer_drain :
    let s := decAt { decReset with state := .drain, len := 1 } none
    s.dec.state = .drain ∧ s.dec.bytesIn < s.dec.len ∧ s.host.decOffer = none := by decide
theorem wit_ByteAndPixelItemsTransfer_stall : decWantsByte State.reset.dec = false := by decide
theorem wit_ByteAndPixelItemsTransfer_pixel :
    let s := encAt { encReset with state := .accept, count := 1 } none
    s.enc.state = .accept ∧ s.enc.index < s.enc.count ∧ s.host.encOffer = none ∧
      ¬(State.reset.enc.state = .accept) := by decide
theorem wit_VleGivesTheDigits : 4294967295 < 2 ^ 32 ∧ (vle 8)[1]? = some 0 := by decide
theorem wit_PackAndUnpackKeepNibbleOrder : (pack [1])[0]? = some 0x10 ∧ [(0xA5 : Byte)][0]? = some 0xA5 := by decide
theorem wit_VldReadsOneGroup :
    (0 ≤ 3 ∧ [(0x9 : Nibble), 0x0, 0x2].drop 0 = [0x9] ++ 0x0 :: [0x2] ∧ (∀ m ∈ [(0x9 : Nibble)], contBit m = true) ∧
      contBit 0x0 = false) ∧
    (1 ≤ [(0x3 : Nibble), 0x9].length ∧ ∀ m ∈ [(0x3 : Nibble), 0x9].drop 1, contBit m = true) ∧
    (0 ≤ ([] : List Nibble).length ∧ ∀ m ∈ ([] : List Nibble).drop 0, contBit m = true) := by decide
theorem wit_PredictorArithmeticIsExact :
    (1 : Pixel) ≠ 0 ∧
    ((((5 : Pixel).toNat : Int) + -6 < 0) ∧ 65535 < (((65535 : Pixel).toNat : Int) + 1)) ∧
    (0 ≤ (((1 : Pixel).toNat : Int) + -1) ∧ (((65535 : Pixel).toNat : Int) + 0) ≤ 65535) := by decide
theorem wit_RvlEncodeIsTheLoop : 0 < 1 ∧ (1 : Pixel) ≠ 0 := by decide
theorem wit_RvlDecodeIsTheLoop : 2 ≤ (unpack [0x10]).length := by decide
theorem wit_VleEmitGivesTheNextNibble :
    let s := encAt { encReset with vSrc := 4294967295, vK := 11 } none
    s.enc.vJ.toNat < s.enc.vK.toNat ∧ s.enc.vSrc.toNat = 4294967295 ∧ s.enc.vK.toNat = octLen 4294967295 ∧
      s.enc.vJ.toNat < octLen 4294967295 ∧ s.enc.pPend = false := by decide
theorem wit_VleEmitGivesTheNextNibble_room :
    (encAt { encReset with pPend := true } none).enc.pPend = true ∧
    (encAt { encReset with pPend := true } none).enc.obValid = false ∧
    (encAt { encReset with pPend := true, obValid := true } none).enc.obValid = true := by decide
theorem wit_PkWritePairsNibbles :
    State.reset.enc.pPend = false ∧
    (let e := (encAt { encReset with pPend := true } none).enc; e.pPend = true ∧ e.obValid = false) ∧
    (let e := (encAt { encReset with pPend := true, obValid := true } none).enc; e.pPend = true ∧ e.obValid = true) := by
  decide
theorem wit_PkFlushPadsAndPkClearClears :
    (let e := (encAt { encReset with state := .flush, pPend := true } none).enc;
      e.state = .flush ∧ e.pPend = true ∧ e.obValid = false) ∧
    State.reset.enc.state ≠ .flush ∧ State.reset.enc.pPend = false ∧ (encAt { encReset with obValid := true } none).enc.obValid = true ∧
    (encIn .done).enc.state = .done ∧ (nextOf (exec (.encStart 0 0) (encIn .done))).isSome = true := by decide
theorem wit_UpReadReturnsTheNextNibble :
    (decAt { decReset with loPend := true } none).dec.loPend = true ∧
    (let s := decAt { decReset with len := 1 } (some 0x92);
      s.dec.loPend = false ∧ s.dec.bytesIn < s.dec.len ∧ s.host.decOffer = some 0x92) ∧
    (let s := decAt { decReset with len := 1 } none;
      s.dec.loPend = false ∧ s.dec.bytesIn < s.dec.len ∧ s.host.decOffer = none) ∧
    (State.reset.dec.loPend = false ∧ ¬State.reset.dec.bytesIn < State.reset.dec.len) := by decide
theorem wit_UpDiscardDropsAndUpClearClears :
    (let s := decAt { decReset with state := .drain, len := 7, bytesIn := 6 } (some 0xFF);
      s.dec.state = .drain ∧ s.dec.bytesIn < s.dec.len ∧ s.host.decOffer = some 0xFF) ∧
    State.reset.dec.state ≠ .drain ∧
    (let s := decAt { decReset with len := 7, bytesIn := 7 } (some 0xFF); ¬s.dec.bytesIn < s.dec.len) ∧
    (decIn .error).dec.state = .error ∧ (nextOf (exec (.decStart 0 0) (decIn .error))).isSome = true := by decide
theorem wit_PredictorIsWrittenInTheValuePhase :
    (let s := encAt { encReset with state := .emitRun, vSrc := 2, vK := 1, pix := 1, run := 2 } none;
      (nextOf (step { s with agenda := [.enc] })).map (fun t => t.enc.prev) = some 1 ∧ s.enc.prev ≠ 1) ∧
    (let s := decAt { decReset with state := .codeGroup, count := 1, loPend := true, lo := 2 } none;
      (nextOf (step { s with agenda := [.dec] })).map (fun t => t.dec.prev) = some 1 ∧ s.dec.prev ≠ 1) := by decide
theorem wit_PredictorIsWrittenInTheValuePhase_cleared :
    (let s := encAt { encReset with state := .done, prev := 6 } none;
      (nextOf (step { s with agenda := sendItem (.encStart 1 0) })).map (fun t => t.enc.prev) = some 0 ∧
      (nextOf (step { s with agenda := sendItem .reset })).map (fun t => t.enc.prev) = some 0 ∧ s.enc.prev ≠ 0) ∧
    (let s := decAt { decReset with state := .done, prev := 6 } none;
      (nextOf (step { s with agenda := sendItem (.decStart 1 0) })).map (fun t => t.dec.prev) = some 0 ∧
      (nextOf (step { s with agenda := sendItem .reset })).map (fun t => t.dec.prev) = some 0 ∧ s.dec.prev ≠ 0) := by
  decide
theorem wit_OverrunCheckBoundsTheRun :
    (let d := (decAt { decReset with produced := 10, count := 13, acc := 4 } none).dec;
      d.count.setWidth 34 < d.produced.setWidth 34 + d.acc.setWidth 34) ∧
    (let d := (decAt { decReset with produced := 10, count := 13, acc := 3 } none).dec;
      d.ovf = false ∧ ¬d.count.setWidth 34 < d.produced.setWidth 34 + d.acc.setWidth 34) := by decide
theorem wit_RangeCheckBoundsTheValue :
    (let v : BitVec 33 := (2#32).signExtend 33 + (65535#16).setWidth 33; 65535 < v.toInt) ∧
    (let v : BitVec 33 := (0xFFFFFFFF#32).signExtend 33 + (0#16).setWidth 33; v.toInt < 0) ∧
    (let v : BitVec 33 := (0xFFFFFFFF#32).signExtend 33 + (1#16).setWidth 33; 0 ≤ v.toInt ∧ v.toInt ≤ 65535) := by decide
theorem wit_DecodeErrorEntryDrains :
    (decIn .drain).dec.state = .drain ∧
    (let d := (decAt { decReset with state := .error, err := some .overrun } none).dec;
      d.state = .error ∧ d.err = some .overrun) := by decide
theorem wit_EncAcceptsAPixel :
    (let s := encAt { encReset with state := .accept, count := 1 } (some 65535);
      s.enc.state = .accept ∧ s.enc.index < s.enc.count ∧ s.host.encOffer = some 65535 ∧ (65535 : Pixel) ≠ 0) ∧
    (let s := encAt { encReset with state := .accept, count := 1 } (some 0);
      s.enc.state = .accept ∧ s.enc.index < s.enc.count ∧ s.host.encOffer = some 0) ∧
    (let s := encAt { encReset with state := .accept, count := 1, index := 1 } (some 0);
      ¬(s.enc.state = .accept ∧ s.enc.index < s.enc.count ∧ s.host.encOffer ≠ none)) := by decide
theorem wit_EncAcceptsTheEnd :
    (let e := (encIn .accept).enc; e.state = .accept ∧ e.index = e.count ∧ e.run = 0) ∧
    (let e := (encAt { encReset with state := .accept, count := 1, index := 1, run := 1 } none).enc;
      e.state = .accept ∧ e.index = e.count ∧ e.run ≠ 0) ∧
    ¬((encIn .flush).enc.state = .accept) := by decide
theorem wit_EncEmitsOneNibble :
    (let e := (encIn .emitRun).enc; e.state = .emitRun ∧ e.pPend = false) ∧
    (let e := (encIn .emitCode).enc; e.state = .emitCode ∧ e.obValid = false) ∧
    (let e := (encIn .emitTail).enc; e.state = .emitTail ∧ e.pPend = false) ∧
    (let e := (encAt { encReset with state := .emitTail, pPend := true, obValid := true } none).enc;
      e.pPend = true ∧ e.obValid = true) := by decide
theorem wit_EncFlushesAndFinishes :
    (let e := (encAt { encReset with state := .flush, pPend := true } none).enc;
      e.state = .flush ∧ e.pPend = true ∧ e.obValid = false) ∧
    (let e := (encIn .flush).enc; e.state = .flush ∧ e.pPend = false ∧ e.obValid = false) ∧
    (encAt { encReset with state := .flush, obValid := true } none).enc.obValid = true := by decide
theorem wit_DecReadsOneNibbleOfAGroup :
    (let s := decAt { decReset with state := .runGroup, loPend := true } none;
      s.dec.state = .runGroup ∧ s.dec.loPend = true) ∧
    (let s := decAt { decReset with state := .codeGroup, len := 1 } (some 0);
      s.dec.state = .codeGroup ∧ s.dec.loPend = false ∧ s.dec.bytesIn < s.dec.len ∧ s.host.decOffer = some 0) ∧
    (let s := decIn .runGroup;
      s.dec.state = .runGroup ∧ s.dec.loPend = false ∧ ¬s.dec.bytesIn < s.dec.len) ∧
    (let s := decAt { decReset with state := .codeGroup, len := 1 } none;
      s.dec.loPend = false ∧ s.dec.bytesIn < s.dec.len ∧ s.host.decOffer = none) := by decide
theorem wit_DecDeliversTheZeros :
    (let d := (decAt { decReset with state := .emitZeros, zrem := 1 } none).dec;
      d.state = .emitZeros ∧ d.zrem ≠ 0 ∧ d.poValid = false) ∧
    (let d := (decAt { decReset with state := .emitZeros, count := 1 } none).dec;
      d.state = .emitZeros ∧ d.zrem = 0 ∧ d.produced < d.count) ∧
    (let d := (decIn .emitZeros).dec; d.state = .emitZeros ∧ d.zrem = 0 ∧ ¬d.produced < d.count) ∧
    (let d := (decAt { decReset with state := .emitZeros, zrem := 1, poValid := true } none).dec;
      d.zrem ≠ 0 ∧ d.poValid = true) := by decide
theorem wit_DecDeliversTheValue :
    (let d := (decAt { decReset with state := .emitValue, count := 2 } none).dec;
      d.state = .emitValue ∧ d.poValid = false ∧ d.produced + 1 < d.count) ∧
    (let d := (decAt { decReset with state := .emitValue, count := 1 } none).dec;
      d.state = .emitValue ∧ d.poValid = false ∧ ¬d.produced + 1 < d.count) ∧
    (decAt { decReset with state := .emitValue, poValid := true } none).dec.poValid = true := by decide
theorem wit_DecDrainsAndFinishes :
    (let s := decAt { decReset with state := .drain, len := 1 } (some 7);
      s.dec.state = .drain ∧ s.dec.bytesIn < s.dec.len ∧ s.host.decOffer = some 7) ∧
    (let d := (decIn .drain).dec; d.state = .drain ∧ ¬d.bytesIn < d.len ∧ d.poValid = false ∧ d.err = none) ∧
    (let d := (decAt { decReset with state := .drain, err := some .overrun } none).dec;
      d.state = .drain ∧ ¬d.bytesIn < d.len ∧ d.poValid = false ∧ d.err ≠ none) ∧
    (let s := decAt { decReset with state := .drain, len := 1 } none;
      s.dec.bytesIn < s.dec.len ∧ s.host.decOffer = none) ∧
    (let d := (decAt { decReset with state := .drain, poValid := true } none).dec;
      ¬d.bytesIn < d.len ∧ d.poValid = true) := by decide

/-- ENC in EMIT_TAIL for the one zero pixel it has taken, with its turn to come. -/
def midEncode : State :=
  { State.reset with
    enc := { encReset with state := .emitTail, count := 1, index := 1, run := 1, vSrc := 1, vK := 1 }
    host := { State.reset.host with encSent := [0] }
    agenda := [.enc] }

/-- DEC in CODE_GROUP of the byte 0x02, its high nibble read, with its turn to come. -/
def midDecode : State :=
  { State.reset with
    dec := { decReset with state := .codeGroup, count := 1, len := 1, bytesIn := 1, nibbles := 1, loPend := true, lo := 2 }
    host := { State.reset.host with decSent := [0x02] }
    agenda := [.dec] }

theorem wit_EveryStepKeepsEncInv : EncInv midEncode ∧ (nextOf (step midEncode)).isSome = true := by
  refine ⟨⟨rfl, rfl, by decide, ?_⟩, by decide⟩
  exact ⟨rfl, by decide, by unfold vleAt; decide, by decide⟩
theorem wit_EveryStepKeepsDecInv : DecInv midDecode ∧ (nextOf (step midDecode)).isSome = true := by
  refine ⟨⟨rfl, by decide, ?_⟩, by decide⟩
  exact ⟨rfl, by unfold unpackerAt; decide, by decide, by unfold accHolds; decide, by decide, by decide, by decide,
    by decide⟩
theorem wit_EveryStepKeepsCounterInv :
    CounterInv { midEncode with dec := midDecode.dec } ∧
    (nextOf (step { midEncode with dec := midDecode.dec })).isSome = true := by
  refine ⟨⟨?_, ?_⟩, by decide⟩
  · unfold EncCounters encEmitting; decide
  · unfold DecCounters
    exact ⟨by decide, by decide, by decide, rfl, by decide⟩

/-- An agenda that runs an empty encode job and a decode job that ends in ERROR, and a decode job that ends in DONE. -/
def shortJobs (count : Count) : List Move :=
  sendItem (.encStart 0 0) ++ sendItem (.decStart count 0) ++ [.enc, .enc, .dec, .dec]

theorem wit_EncodeJobGivesRvlEncode :
    (nextOf (runSteps 6 { State.reset with agenda := shortJobs 1 })).map
      (fun t => (t.enc.state, t.host.encSent.length + ([] : List Pixel).length, t.enc.count.toNat)) =
    some (.done, 0, 0) := by decide
theorem wit_DecodeJobGivesRvlDecode :
    (nextOf (runSteps 6 { State.reset with agenda := shortJobs 1 })).map (fun t => t.dec.state) = some .error ∧
    (nextOf (runSteps 6 { State.reset with agenda := shortJobs 0 })).map (fun t => t.dec.state) = some .done := by decide
theorem wit_CountersStayInTheirBounds :
    (nextOf (runSteps 3 { State.reset with agenda := shortJobs 1 })).isSome = true := by decide
theorem wit_RoundTripIsLossless : [(5 : Pixel), 0].length < 2 ^ 32 := by decide
theorem wit_TruncationIsDetected : [(5 : Pixel)] ≠ [] ∧ [(5 : Pixel)].length < 2 ^ 32 := by decide
theorem wit_CompressSequenceEnds :
    State.reset.enc.state = .idle ∧ (encIn .done).enc.state = .done ∧ State.reset.host.encOffer = none ∧
    encBusy (encIn .flush).enc.state = true ∧ [(5 : Pixel)].length < 2 ^ 32 := by decide
theorem wit_DecompressSequenceEnds :
    [(0x09 : Byte), 0x20].length < 2 ^ 34 ∧ 1 < 2 ^ 32 ∧ State.reset.dec.state = .idle ∧
    (decIn .error).dec.state = .error ∧ (decIn .done).dec.state = .done ∧ State.reset.host.decOffer = none ∧
    decBusy (decIn .drain).dec.state = true := by decide
theorem wit_EnginesAreIndependent :
    (nextOf (exec (.encStart 1 0) State.reset)).isSome = true ∧ sideOf (.encStart 1 0) = some .enc ∧
    sideOf (.decStart 1 0) = some .dec ∧ sideOf (.vle 0) = none ∧
    (nextOf (runSteps 6 { State.reset with agenda := shortJobs 1 })).isSome = true ∧ (shortJobs 1).length = 6 := by decide
theorem wit_InstancesShareNothing :
    (instancesReset 2)[1]? = some State.reset ∧
    (nextOf (step { State.reset with agenda := [.enc] })).isSome = true ∧ State.reset ∈ instancesReset 2 := by decide
theorem wit_AccumulatorLosesNothing :
    2 ^ 32 ≤ [(0xC : Nibble), 8, 8, 8, 8, 8, 8, 8, 8, 8, 0].foldl (fun acc n => acc * 8 + (payload n).toNat) 0 ∧
    ((([0xB, 0xF, 0xF, 0xF, 0xF, 0xF, 0xF, 0xF, 0xF, 0xF, 7] : List Nibble).foldl (fun d n => vldStep n d)
      (vldStart decReset)).ovf = false) := by decide
theorem wit_GroupsReadBack : 4294967295 < 2 ^ 32 ∧ 0 < 4294967295 ∧ (0xB : Nibble) ∈ (vle 4294967295).head? := by decide
theorem wit_ZigzagAndPredictorInvert :
    (65535 : Pixel) ≠ 0 ∧ (-65536 : Int) ≤ -65536 ∧ (-65536 : Int) ≤ 65535 ∧ 4294967295 < 2 ^ 32 := by decide
theorem wit_EncodingSizeIsBounded : [(1 : Pixel)].length ≤ 2 ^ 32 - 1 := by decide
theorem wit_EnabledTurnsMakeProgress :
    encWaits (encAt { encReset with state := .accept, count := 1 } none) = true ∧
    (encWaits midEncode = false ∧ encNext midEncode.enc ≠ none) ∧
    decWaits (decAt { decReset with state := .drain, poValid := true } none) = true ∧
    (decWaits midDecode = false ∧ decNext midDecode.dec ≠ none) := by decide

/-- An empty encode job and an empty decode job at their last steps, then at rest. -/
def lastTurns : Nat → State
  | 0 => { encIn .flush with dec := { decReset with state := .drain } }
  | 1 => { encIn .done with dec := { decReset with state := .drain } }
  | _ + 2 => { encIn .done with dec := { decReset with state := .done } }

/-- ENC's turn, then DEC's, then ENC's for ever. -/
def lastMoves : Nat → Move
  | 0 => .enc
  | 1 => .dec
  | _ + 2 => .enc

theorem wit_EnabledTurnsMakeProgress_fair :
    EndlessRun lastMoves lastTurns ∧ WeaklyFair lastMoves lastTurns ∧ CounterInv (lastTurns 0) ∧
    HostServesEnc lastMoves lastTurns ∧ HostServesDec lastMoves lastTurns ∧
    encBusy (lastTurns 0).enc.state = true ∧ decBusy (lastTurns 0).dec.state = true := by
  have never (P : State → Prop) (Q : Move → Prop) (h : ∀ k, ¬P (lastTurns (k + 2))) :
      EventuallyTaken P Q lastMoves lastTurns := fun k hk => absurd (hk (k + 2) (by omega)) (h k)
  refine ⟨fun k => ?_, ⟨never _ _ fun _ h => h.1 rfl, never _ _ fun _ h => h.1 rfl⟩, ⟨?_, ?_⟩,
    ⟨never _ _ fun _ h => Bool.noConfusion h, never _ _ fun _ h => Bool.noConfusion h.1⟩,
    ⟨never _ _ fun _ h => Bool.noConfusion h, never _ _ fun _ h => Bool.noConfusion h.1⟩, rfl, rfl⟩
  · match k with
    | 0 => rfl
    | 1 => rfl
    | _ + 2 => rfl
  · unfold EncCounters encEmitting; decide
  · unfold DecCounters
    exact ⟨by decide, by decide, by decide, fun _ => rfl⟩
theorem wit_FinalStatesAreLeftOnlyByCommands :
    (nextOf (step { State.reset with agenda := sendItem (.encStart 1 0) })).map (fun t => t.enc.state) = some .accept ∧
    (nextOf (step { State.reset with agenda := sendItem (.decStart 1 0) })).map (fun t => t.dec.state) = some .runGroup ∧
    (nextOf (step { decIn .error with agenda := sendItem .reset })).map (fun t => t.dec.state) = some .idle := by decide

end Sys2Proof.Tests
end

section
/-! The bound on the encoded size (R8): nibbles by induction along the encoder's loop, then bytes by packing. -/

namespace Sys2Proof.Machine

open Sys2Proof

/-- A run group costs its zeros and one nibble at most; the one is needed for the group of an empty run (R8). -/
theorem octLen_le_succ_self (run : Nat) : octLen run ≤ run + 1 := by
  rcases Nat.eq_zero_or_pos run with rfl | hrun
  · decide
  · exact Nat.le_succ_of_le (octLen_le_self hrun)

/-- The group of an encoder's code has at most 6 nibbles (R113, R192). -/
theorem octLen_code_le_six (p prev : Pixel) : octLen (zz (delta p prev)) ≤ 6 := octLen_le_six (zz_delta_lt p prev)

/-- The zeros already counted are still to be paid for, with a nibble each: the generalisation R8's bound needs. -/
theorem encodeNibs_length_le (pixels : List Pixel) :
    ∀ (prev : Pixel) (run : Nat), (encodeNibs prev run pixels).length ≤ run + 7 * pixels.length := by
  induction pixels with
  | nil =>
    intro prev run
    unfold encodeNibs
    split
    · next hrun => simpa using octLen_le_self hrun
    · simp
  | cons p rest ih =>
    intro prev run
    unfold encodeNibs
    split
    · have hrest := ih prev (run + 1)
      simp only [List.length_cons]
      omega
    · have hrun := octLen_le_succ_self run
      have hcode := octLen_code_le_six p prev
      have hrest := ih p 0
      simp only [List.length_append, vle_length, List.length_cons]
      omega

theorem rvlEncode_length_le (pixels : List Pixel) : (rvlEncode pixels).length ≤ (7 * pixels.length + 1) / 2 := by
  have hnibs := encodeNibs_length_le pixels 0 0
  rw [rvlEncode, pack_length]
  omega

/-- Settles O58: R8's bound on the nibbles with the loop's start (no zeros counted), and the bytes from it. -/
theorem encodingSizeIsBounded : Obligations.EncodingSizeIsBounded := by
  intro pixels
  have hbytes := rvlEncode_length_le pixels
  refine ⟨?_, hbytes, fun hN => ?_⟩
  · simpa using encodeNibs_length_le pixels 0 0
  · omega

end Sys2Proof.Machine
end

section
/-! Independence of the engines (R33, R376). The idea is one equation: an operation of one engine commutes with
replacing that engine's part of the state by another one. It says both that the operation leaves everything else alone
and that what it does there depends on nothing else. -/

namespace Sys2Proof.Machine

open Sys2Proof

/-! ## The part of an engine, replaced -/

/-- The state s with the part of one engine (its registers and the host's side of its channels) taken from p. -/
def graft : Side → State → State → State
  | .enc, p, s =>
    { s with
      enc := p.enc
      host := { s.host with encOffer := p.host.encOffer, encSent := p.host.encSent, encGot := p.host.encGot } }
  | .dec, p, s =>
    { s with
      dec := p.dec
      host := { s.host with decOffer := p.host.decOffer, decSent := p.host.decSent, decGot := p.host.decGot } }

@[simp] theorem graft_self (side : Side) (s : State) : graft side s s = s := by cases side <;> rfl
@[simp] theorem graft_agenda (side : Side) (p s : State) : (graft side p s).agenda = s.agenda := by cases side <;> rfl
@[simp] theorem graft_resets (side : Side) (p s : State) : (graft side p s).resets = s.resets := by cases side <;> rfl
@[simp] theorem graft_cmdErr (side : Side) (p s : State) : (graft side p s).cmdErr = s.cmdErr := by cases side <;> rfl
@[simp] theorem graft_enc_enc (p s : State) : (graft .enc p s).enc = p.enc := rfl
@[simp] theorem graft_dec_dec (p s : State) : (graft .dec p s).dec = p.dec := rfl
@[simp] theorem graft_dec_enc (p s : State) : (graft .dec p s).enc = s.enc := rfl
@[simp] theorem graft_enc_dec (p s : State) : (graft .enc p s).dec = s.dec := rfl
@[simp] theorem encPart_graft_enc (p s : State) : encPart (graft .enc p s) = encPart p := rfl
@[simp] theorem decPart_graft_dec (p s : State) : decPart (graft .dec p s) = decPart p := rfl
@[simp] theorem encPart_graft_dec (p s : State) : encPart (graft .dec p s) = encPart s := rfl
@[simp] theorem decPart_graft_enc (p s : State) : decPart (graft .enc p s) = decPart s := rfl

/-- Two states with the same part of an engine, and the same count of resets, which fixes the host's free choices at
the next one (log 5). -/
def Agree (side : Side) (s u : State) : Prop :=
  (match side with
    | .enc => encPart s = encPart u
    | .dec => decPart s = decPart u) ∧ s.resets = u.resets

theorem Agree.refl (side : Side) (s : State) : Agree side s s := by cases side <;> exact ⟨rfl, rfl⟩

theorem Agree.symm {side : Side} {s u : State} (h : Agree side s u) : Agree side u s := by
  cases side <;> exact ⟨h.1.symm, h.2.symm⟩

theorem Agree.trans {side : Side} {s u v : State} (h : Agree side s u) (h' : Agree side u v) : Agree side s v := by
  cases side <;> exact ⟨h.1.trans h'.1, h.2.trans h'.2⟩

theorem agree_withAgenda (side : Side) (s : State) (moves : List Move) : Agree side { s with agenda := moves } s := by
  cases side <;> exact ⟨rfl, rfl⟩

theorem agree_graft {side : Side} {p s : State} (h : p.resets = s.resets) : Agree side (graft side p s) p := by
  cases side <;> exact ⟨rfl, h.symm⟩

/-- Where two states agree on an engine's part, putting the one's part in the other changes nothing. -/
theorem Agree.graft_eq {side : Side} {p s : State} (h : Agree side p s) : graft side p s = s := by
  cases side with
  | enc =>
    obtain ⟨hregs, hoffer, hsent, hgot⟩ := EncPart.mk.inj h.1
    simp only [graft, hregs, hoffer, hsent, hgot]
  | dec =>
    obtain ⟨hregs, hoffer, hsent, hgot⟩ := DecPart.mk.inj h.1
    simp only [graft, hregs, hoffer, hsent, hgot]

/-! ## Operations of one engine -/

/-- An operation of one engine. -/
def ActsWithin (side : Side) (f : State → State) : Prop := ∀ p s, f (graft side p s) = graft side (f p) s

section
variable {side : Side} {f g : State → State}

/-- Nothing outside the engine's part changes. -/
theorem ActsWithin.frame (hf : ActsWithin side f) (s : State) : f s = graft side (f s) s := by
  simpa using hf s s

/-- What becomes of the engine's part depends on that part alone. -/
theorem ActsWithin.congr (hf : ActsWithin side f) {s u : State} (h : Agree side s u) : Agree side (f s) (f u) := by
  have hu : f u = graft side (f s) u := by rw [← hf s u, h.graft_eq]
  have hs : (f s).resets = u.resets := by rw [hf.frame s, graft_resets, h.2]
  rw [hu]
  exact (agree_graft hs).symm

theorem ActsWithin.id : ActsWithin side fun s => s := fun _ _ => rfl

theorem ActsWithin.comp (hf : ActsWithin side f) (hg : ActsWithin side g) : ActsWithin side fun s => f (g s) :=
  fun p s => by simp only [hg p s, hf (g p) s]

theorem ActsWithin.ite {c : State → Prop} [DecidablePred c] (hc : ∀ p s, c (graft side p s) = c p)
    (hf : ActsWithin side f) (hg : ActsWithin side g) : ActsWithin side fun s => if c s then f s else g s :=
  fun p s => by by_cases h : c p <;> simp only [hc p s, h, if_true, if_false, hf p s, hg p s]

/-- An operation that may be not enabled, and then changes nothing (R12). -/
theorem ActsWithin.enabled {o : State → Option State}
    (ho : ∀ p s, o (graft side p s) = (o p).map fun t => graft side t s) : ActsWithin side fun s => (o s).getD s :=
  fun p s => by simp only [ho p s]; cases o p <;> rfl

end

theorem ActsWithin.dec_eq {f : State → State} (hf : ActsWithin .enc f) (s : State) : (f s).dec = s.dec := by
  rw [hf.frame s, graft_enc_dec]

theorem ActsWithin.enc_eq {f : State → State} (hf : ActsWithin .dec f) (s : State) : (f s).enc = s.enc := by
  rw [hf.frame s, graft_dec_enc]

/-! ## The operations of ENC -/

theorem actsWithin_encRegs (h : Enc → Enc) : ActsWithin .enc fun s => { s with enc := h s.enc } := fun _ _ => rfl

theorem actsWithin_acceptPixelStep : ActsWithin .enc acceptPixelStep := by
  refine .ite (c := fun s => encWantsPixel s.enc = true) (fun _ _ => rfl) (fun p s => ?_) .id
  cases h : p.host.encOffer with
  | none => simp only [takePixel, graft, h]
  | some v => cases hz : isZero v <;> simp [takePixel, graft, h, hz]

theorem actsWithin_offerPixel (v : Pixel) : ActsWithin .enc fun s => { s with host := offerPixel v s.host } := by
  intro p s
  cases h : p.host.encOffer <;> simp only [graft, offerPixel, h]

theorem actsWithin_pixelTransfer (v : Pixel) : ActsWithin .enc (pixelTransfer v) :=
  .ite (c := fun s => (encWantsPixel s.enc && s.host.encOffer.isNone) = true) (fun _ _ => rfl)
    (actsWithin_acceptPixelStep.comp (actsWithin_offerPixel v)) .id

theorem actsWithin_hostTakeByte : ActsWithin .enc hostTakeByte :=
  .ite (c := fun s => s.enc.obValid = true) (fun _ _ => rfl) (fun _ _ => rfl) .id

/-- What ENC_START does to ENC, its verdict in CMD_ERR left out (R301). -/
def encStarted (count : Count) (s : State) : State :=
  if encBusy s.enc.state then s
  else { s with enc := encJobStart count, host := { s.host with encSent := [], encGot := [] } }

theorem actsWithin_encStarted (count : Count) : ActsWithin .enc (encStarted count) :=
  .ite (c := fun s => encBusy s.enc.state = true) (fun _ _ => rfl) .id fun _ _ => rfl

/-! ## The operations of DEC -/

theorem actsWithin_decRegs (h : Dec → Dec) : ActsWithin .dec fun s => { s with dec := h s.dec } := fun _ _ => rfl

theorem takeByte_graft (p s : State) :
    takeByte (graft .dec p s) = (takeByte p).map fun r => (r.1, graft .dec r.2 s) := by
  cases h : p.host.decOffer <;> simp [takeByte, graft, h]

theorem upRead_graft (p s : State) : upRead (graft .dec p s) = (upRead p).map fun r => (r.1, graft .dec r.2 s) := by
  simp only [upRead, graft_dec_dec, takeByte_graft]
  split
  · rfl
  · split
    · cases takeByte p <;> rfl
    · rfl

theorem upDiscard_graft (p s : State) : upDiscard (graft .dec p s) = (upDiscard p).map fun t => graft .dec t s := by
  simp only [upDiscard, graft_dec_dec, takeByte_graft]
  split
  · cases takeByte p <;> rfl
  · rfl

theorem actsWithin_groupStep (finish : Dec → Dec) : ActsWithin .dec (groupStep finish) := by
  intro p s
  simp only [groupStep, upRead_graft]
  match upRead p with
  | none => rfl
  | some (none, _) => rfl
  | some (some _, _) => rfl

theorem actsWithin_runGroupStep : ActsWithin .dec runGroupStep :=
  .ite (c := fun s => s.dec.state = .runGroup) (fun _ _ => rfl) (actsWithin_groupStep overrunCheck) .id

theorem actsWithin_codeGroupStep : ActsWithin .dec codeGroupStep :=
  .ite (c := fun s => s.dec.state = .codeGroup) (fun _ _ => rfl) (actsWithin_groupStep rangeCheck) .id

theorem actsWithin_drainStep : ActsWithin .dec drainStep := by
  refine .ite (c := fun s => s.dec.state = .drain) (fun _ _ => rfl) ?_ .id
  refine .ite (c := fun s => s.dec.bytesIn < s.dec.len) (fun _ _ => rfl) (fun p s => ?_) ?_
  · simp only [upDiscard_graft]
    cases upDiscard p <;> rfl
  · exact .ite (c := fun s => s.dec.poValid = true) (fun _ _ => rfl) .id fun _ _ => rfl

theorem actsWithin_byteStep : ActsWithin .dec byteStep := by
  intro p s
  simp only [byteStep, graft_dec_dec, actsWithin_runGroupStep p s, actsWithin_codeGroupStep p s,
    actsWithin_drainStep p s]
  cases p.dec.state <;> rfl

theorem actsWithin_nibbleStep (n : Nibble) : ActsWithin .dec (nibbleStep n) :=
  .ite (c := fun s => (decInGroup s.dec && nextNibble s == some n) = true) (fun _ _ => rfl) actsWithin_byteStep .id

theorem actsWithin_offerByte (b : Byte) : ActsWithin .dec fun s => { s with host := offerByte b s.host } := by
  intro p s
  cases h : p.host.decOffer <;> simp only [graft, offerByte, h]

theorem actsWithin_byteTransfer (b : Byte) : ActsWithin .dec (byteTransfer b) :=
  .ite (c := fun s => (decWantsByte s.dec && s.host.decOffer.isNone) = true) (fun _ _ => rfl)
    (actsWithin_byteStep.comp (actsWithin_offerByte b)) .id

theorem actsWithin_hostTakePixel : ActsWithin .dec hostTakePixel :=
  .ite (c := fun s => s.dec.poValid = true) (fun _ _ => rfl) (fun _ _ => rfl) .id

/-- What UP_READ does to the state, the nibble it returns left out (R151). -/
def upReadState (s : State) : State :=
  match upRead s with
  | none => s
  | some (_, t) => t

theorem actsWithin_upReadState : ActsWithin .dec upReadState := by
  intro p s
  simp only [upReadState, upRead_graft]
  cases upRead p <;> rfl

theorem actsWithin_upDiscard : ActsWithin .dec fun s => (upDiscard s).getD s := .enabled upDiscard_graft

/-- What DEC_START does to DEC, its verdict in CMD_ERR left out (R302). -/
def decStarted (count : Count) (len : Length) (s : State) : State :=
  if decBusy s.dec.state then s
  else { s with dec := decJobStart count len, host := { s.host with decSent := [], decGot := [] } }

theorem actsWithin_decStarted (count : Count) (len : Length) : ActsWithin .dec (decStarted count len) :=
  .ite (c := fun s => decBusy s.dec.state = true) (fun _ _ => rfl) .id fun _ _ => rfl

/-! ## Instructions of one engine -/

/-- The state with other values in what no engine reads: CMD_ERR, the returned value, the latest status. -/
def State.noting (c : CmdErr) (r : Ret) (v : BitVec 36) (s : State) : State :=
  { s with cmdErr := c, ret := r, host := { s.host with status := v } }

theorem agree_noting (side : Side) (c : CmdErr) (r : Ret) (v : BitVec 36) (s : State) :
    Agree side (s.noting c r v) s := by cases side <;> exact ⟨rfl, rfl⟩

/-- The four command words, which alone write CMD_ERR beside reset. -/
def IsCommand (i : Instr) : Prop :=
  ∃ count len, i = .encStart count len ∨ i = .decStart count len ∨ i = .cmdReserved10 count len ∨
    i = .cmdReserved11 count len

/-- An instruction that always has a next state: that of an operation of the engine, but for what no engine reads; and
CMD_ERR is another one only after a command. -/
def RunsOn (side : Side) (i : Instr) : Prop :=
  ∃ f, ActsWithin side f ∧
    ∀ s, ∃ c r v, (c = (f s).cmdErr ∨ IsCommand i) ∧ exec i s = .next ((f s).noting c r v)

section
variable {side : Side} {i : Instr} {f : State → State}

theorem runsOn_of_ret (hf : ActsWithin side f) (h : ∀ s, ∃ r, exec i s = .next { f s with ret := r }) :
    RunsOn side i :=
  ⟨f, hf, fun s => (h s).elim fun r hr => ⟨(f s).cmdErr, r, (f s).host.status, .inl rfl, hr⟩⟩

theorem runsOn_of_eq (hf : ActsWithin side f) (h : ∀ s, exec i s = .next (f s)) : RunsOn side i :=
  runsOn_of_ret hf fun s => ⟨(f s).ret, h s⟩

theorem runsOn_of_command (hi : IsCommand i) (hf : ActsWithin side f)
    (h : ∀ s, ∃ c, exec i s = .next { f s with cmdErr := c }) : RunsOn side i :=
  ⟨f, hf, fun s => (h s).elim fun c hc => ⟨c, (f s).ret, (f s).host.status, .inr hi, hc⟩⟩

theorem runsOn_of_readStatus {sel : BitVec 4} (h : ∀ s, exec i s = .next (readStatus sel s)) : RunsOn side i :=
  ⟨fun s => s, .id, fun s => ⟨s.cmdErr, s.ret, statusValue s sel, .inl rfl, h s⟩⟩

end

theorem runsOn_encStart (count : Count) (len : Length) : RunsOn .enc (.encStart count len) := by
  refine runsOn_of_command ⟨count, len, .inl rfl⟩ (actsWithin_encStarted count) fun s => ?_
  simp only [exec, execEncStart, encStarted]
  split
  · exact ⟨.busy, rfl⟩
  · exact ⟨.ok, rfl⟩

theorem runsOn_decStart (count : Count) (len : Length) : RunsOn .dec (.decStart count len) := by
  refine runsOn_of_command ⟨count, len, .inr (.inl rfl)⟩ (actsWithin_decStarted count len) fun s => ?_
  simp only [exec, execDecStart, decStarted]
  split
  · exact ⟨.busy, rfl⟩
  · exact ⟨.ok, rfl⟩

theorem runsOn_vleEmit : RunsOn .enc .vleEmit := by
  refine runsOn_of_ret (actsWithin_encRegs fun e => ((vleEmit e).map Prod.snd).getD e) fun s => ?_
  simp only [exec, execVleEmit]
  match vleEmit s.enc with
  | none => exact ⟨s.ret, rfl⟩
  | some ((n, last), _) => exact ⟨.emitted n last, rfl⟩

theorem runsOn_pkWrite (n : Nibble) : RunsOn .enc (.pkWrite n) := by
  refine runsOn_of_eq (actsWithin_encRegs fun e => (pkWrite n e).getD e) fun s => ?_
  simp only [exec, execPkWrite]
  cases pkWrite n s.enc <;> rfl

theorem runsOn_upRead : RunsOn .dec .upRead := by
  refine runsOn_of_ret actsWithin_upReadState fun s => ?_
  simp only [exec, execUpRead, upReadState]
  match upRead s with
  | none => exact ⟨s.ret, rfl⟩
  | some (some n, _) => exact ⟨.nibble n, rfl⟩
  | some (none, _) => exact ⟨.endOfBuffer, rfl⟩

theorem runsOn_upDiscard : RunsOn .dec .upDiscard := by
  refine runsOn_of_eq actsWithin_upDiscard fun s => ?_
  simp only [exec, execUpDiscard]
  cases upDiscard s <;> rfl

theorem runsOn_prevUpdate (side : Side) (v : Pixel) : RunsOn side (.prevUpdate side v) := by
  cases side with
  | enc => exact runsOn_of_eq (actsWithin_encRegs (encPrevUpdate v)) fun _ => rfl
  | dec => exact runsOn_of_eq (actsWithin_decRegs (decPrevUpdate v)) fun _ => rfl

/-- An instruction of ENC is an operation of ENC. -/
theorem runsOn_enc {i : Instr} (h : sideOf i = some .enc) : RunsOn .enc i := by
  cases i with
  | encStart count len => exact runsOn_encStart count len
  | pixel v => exact runsOn_of_eq (actsWithin_pixelTransfer v) fun _ => rfl
  | encPixelIn v => exact runsOn_of_eq (actsWithin_offerPixel v) fun _ => rfl
  | encTake => exact runsOn_of_eq actsWithin_hostTakeByte fun _ => rfl
  | vleLoad v => exact runsOn_of_eq (actsWithin_encRegs (vleLoad v)) fun _ => rfl
  | vleEmit => exact runsOn_vleEmit
  | pkWrite n => exact runsOn_pkWrite n
  | pkFlush => exact runsOn_of_eq (actsWithin_encRegs pkFlush) fun _ => rfl
  | pkClear => exact runsOn_of_eq (actsWithin_encRegs pkClear) fun _ => rfl
  | prevUpdate side v => injection h with h; subst h; exact runsOn_prevUpdate .enc v
  | encAcceptPixel => exact runsOn_of_eq actsWithin_acceptPixelStep fun _ => rfl
  | encAcceptEnd => exact runsOn_of_eq (actsWithin_encRegs acceptEndStep) fun _ => rfl
  | encEmitRun => exact runsOn_of_eq (actsWithin_encRegs emitRunStep) fun _ => rfl
  | encEmitCode => exact runsOn_of_eq (actsWithin_encRegs emitCodeStep) fun _ => rfl
  | encEmitTail => exact runsOn_of_eq (actsWithin_encRegs emitTailStep) fun _ => rfl
  | encFlush => exact runsOn_of_eq (actsWithin_encRegs flushStep) fun _ => rfl
  | _ => cases h

/-- An instruction of DEC is an operation of DEC. -/
theorem runsOn_dec {i : Instr} (h : sideOf i = some .dec) : RunsOn .dec i := by
  cases i with
  | decStart count len => exact runsOn_decStart count len
  | nibTerm p => exact runsOn_of_eq (actsWithin_nibbleStep _) fun _ => rfl
  | nibCont p => exact runsOn_of_eq (actsWithin_nibbleStep _) fun _ => rfl
  | streamByte hi lo => exact runsOn_of_eq (actsWithin_byteTransfer _) fun _ => rfl
  | decByteIn b => exact runsOn_of_eq (actsWithin_offerByte b) fun _ => rfl
  | decTake => exact runsOn_of_eq actsWithin_hostTakePixel fun _ => rfl
  | upRead => exact runsOn_upRead
  | upDiscard => exact runsOn_upDiscard
  | upClear => exact runsOn_of_eq (actsWithin_decRegs upClear) fun _ => rfl
  | vldStart => exact runsOn_of_eq (actsWithin_decRegs vldStart) fun _ => rfl
  | vldStep n => exact runsOn_of_ret (actsWithin_decRegs (vldStep n)) fun _ => ⟨.groupDone (vldDone n), rfl⟩
  | prevUpdate side v => injection h with h; subst h; exact runsOn_prevUpdate .dec v
  | overrunCheck => exact runsOn_of_eq (actsWithin_decRegs overrunCheck) fun _ => rfl
  | rangeCheck => exact runsOn_of_eq (actsWithin_decRegs rangeCheck) fun _ => rfl
  | decRunGroup => exact runsOn_of_eq actsWithin_runGroupStep fun _ => rfl
  | decEmitZeros => exact runsOn_of_eq (actsWithin_decRegs emitZerosStep) fun _ => rfl
  | decCodeGroup => exact runsOn_of_eq actsWithin_codeGroupStep fun _ => rfl
  | decEmitValue => exact runsOn_of_eq (actsWithin_decRegs emitValueStep) fun _ => rfl
  | decDrain => exact runsOn_of_eq actsWithin_drainStep fun _ => rfl
  | decErrorEntry code => exact runsOn_of_eq (actsWithin_decRegs (raiseDecode code)) fun _ => rfl
  | _ => cases h

/-- An instruction of neither engine, but RESET, does nothing to either: it is an operation of each. -/
theorem runsOn_of_no_side {i : Instr} (side : Side) (h : sideOf i = none) (hr : i ≠ .reset) : RunsOn side i := by
  cases i with
  | reset => exact absurd rfl hr
  | cmdReserved10 count len =>
    exact runsOn_of_command ⟨count, len, .inr (.inr (.inl rfl))⟩ .id fun _ => ⟨.reservedOp, rfl⟩
  | cmdReserved11 count len =>
    exact runsOn_of_command ⟨count, len, .inr (.inr (.inr rfl))⟩ .id fun _ => ⟨.reservedOp, rfl⟩
  | statusSel sel => exact runsOn_of_readStatus fun _ => rfl
  | statusRead sel => exact runsOn_of_readStatus fun _ => rfl
  | statusReadUnused sel => exact runsOn_of_readStatus fun _ => rfl
  | vle | pack | unpack | vld | zz | unzz | delta | recon | rvlEncode | rvlDecode | isZero =>
    exact runsOn_of_ret .id fun _ => ⟨_, rfl⟩
  | _ => cases h

theorem runsOn_of_sideOf {side : Side} {i : Instr} (h : sideOf i = some side) : RunsOn side i := by
  cases side with
  | enc => exact runsOn_enc h
  | dec => exact runsOn_dec h

theorem exists_runsOn {i : Instr} (hr : i ≠ .reset) : ∃ side, RunsOn side i := by
  cases h : sideOf i with
  | none => exact ⟨.enc, runsOn_of_no_side .enc h hr⟩
  | some side => exact ⟨side, runsOn_of_sideOf h⟩

section
variable {side : Side} {i : Instr} {s t : State}

/-- What the instruction can have changed. -/
theorem RunsOn.frame (h : RunsOn side i) (ht : exec i s = .next t) :
    ∃ p c r v, (c = s.cmdErr ∨ IsCommand i) ∧ t = (graft side p s).noting c r v := by
  obtain ⟨f, hf, hexec⟩ := h
  obtain ⟨c, r, v, hc, hs⟩ := hexec s
  injection hs.symm.trans ht with ht
  rw [hf.frame s] at hc ht
  exact ⟨f s, c, r, v, by simpa using hc, ht.symm⟩

theorem RunsOn.decPart_eq (h : RunsOn .enc i) (ht : exec i s = .next t) : decPart t = decPart s := by
  obtain ⟨p, c, r, v, -, rfl⟩ := h.frame ht
  rfl

theorem RunsOn.encPart_eq (h : RunsOn .dec i) (ht : exec i s = .next t) : encPart t = encPart s := by
  obtain ⟨p, c, r, v, -, rfl⟩ := h.frame ht
  rfl

theorem RunsOn.agenda_eq (h : RunsOn side i) (ht : exec i s = .next t) : t.agenda = s.agenda := by
  obtain ⟨p, c, r, v, -, rfl⟩ := h.frame ht
  exact graft_agenda side p s

theorem RunsOn.resets_eq (h : RunsOn side i) (ht : exec i s = .next t) : t.resets = s.resets := by
  obtain ⟨p, c, r, v, -, rfl⟩ := h.frame ht
  exact graft_resets side p s

theorem RunsOn.cmdErr_eq (h : RunsOn side i) (ht : exec i s = .next t) : t.cmdErr = s.cmdErr ∨ IsCommand i := by
  obtain ⟨p, c, r, v, hc, rfl⟩ := h.frame ht
  exact hc

/-- In a state that agrees on the engine's part, the instruction does the same to it. -/
theorem RunsOn.congr {u : State} (h : RunsOn side i) (hsu : Agree side s u) (ht : exec i s = .next t) :
    ∃ t', exec i u = .next t' ∧ Agree side t t' := by
  obtain ⟨f, hf, hexec⟩ := h
  obtain ⟨c, r, v, -, hs⟩ := hexec s
  obtain ⟨c', r', v', -, hu⟩ := hexec u
  injection hs.symm.trans ht with ht
  refine ⟨_, hu, ?_⟩
  rw [← ht]
  exact ((agree_noting side c r v (f s)).trans (hf.congr hsu)).trans (agree_noting side c' r' v' (f u)).symm

end

/-- Each offer stands after a reset as the count of resets says, whatever the other engine's part (log 5). -/
theorem Agree.resetEvent {side : Side} {s u : State} (h : Agree side s u) :
    Agree side (resetEvent s) (resetEvent u) := by
  have hresets : s.resets + 1 = u.resets + 1 := congrArg (· + 1) h.2
  cases side with
  | enc =>
    obtain ⟨-, hoffer, -, -⟩ := EncPart.mk.inj h.1
    refine ⟨?_, hresets⟩
    simp only [encPart, resetEvent_enc, resetEvent_host, hoffer, h.2]
  | dec =>
    obtain ⟨-, hoffer, -, -⟩ := DecPart.mk.inj h.1
    refine ⟨?_, hresets⟩
    simp only [decPart, resetEvent_dec, resetEvent_host, hoffer, h.2]

theorem exec_agenda {i : Instr} {s t : State} (ht : exec i s = .next t) : t.agenda = s.agenda := by
  by_cases hr : i = .reset
  · subst hr
    injection ht with ht
    rw [← ht, resetEvent_agenda]
  · obtain ⟨side, h⟩ := exists_runsOn hr
    exact h.agenda_eq ht

/-- An instruction of the other engine, or of none, leaves an engine's part alone. -/
theorem exec_agree_of_not_sideOf {side : Side} {i : Instr} {s t : State} (h : sideOf i ≠ some side) (hr : i ≠ .reset)
    (ht : exec i s = .next t) : Agree side t s := by
  cases side with
  | enc =>
    have hdec : RunsOn .dec i := by
      rcases hi : sideOf i with _ | _ | _
      · exact runsOn_of_no_side .dec hi hr
      · exact absurd hi h
      · exact runsOn_dec hi
    exact ⟨hdec.encPart_eq ht, hdec.resets_eq ht⟩
  | dec =>
    have henc : RunsOn .enc i := by
      rcases hi : sideOf i with _ | _ | _
      · exact runsOn_of_no_side .enc hi hr
      · exact runsOn_enc hi
      · exact absurd hi h
    exact ⟨henc.decPart_eq ht, henc.resets_eq ht⟩

/-- An instruction of an engine, or RESET, does to the engine's part what that part says. -/
theorem exec_congr {side : Side} {i : Instr} {s u t : State} (h : sideOf i = some side ∨ i = .reset)
    (hsu : Agree side s u) (ht : exec i s = .next t) : ∃ t', exec i u = .next t' ∧ Agree side t t' := by
  rcases h with h | rfl
  · exact (runsOn_of_sideOf h).congr hsu ht
  · injection ht with ht
    subst ht
    exact ⟨resetEvent u, rfl, hsu.resetEvent⟩

/-! ## Moves and runs -/

/-- The engine step that a turn takes is one of the engine's instructions. -/
theorem sideOf_encNext {e : Enc} {i : Instr} (h : encNext e = some i) : sideOf i = some .enc := by
  rcases encNext_cases h with rfl | rfl | rfl | rfl | rfl | rfl <;> rfl

theorem sideOf_decNext {d : Dec} {i : Instr} (h : decNext d = some i) : sideOf i = some .dec := by
  rcases decNext_cases h with rfl | rfl | rfl | rfl | rfl <;> rfl

theorem runMove_agenda {m : Move} {s t : State} (ht : runMove m s = .next t) : t.agenda = s.agenda := by
  have hturn (o : Option Instr) (ho : runTurn o s = .next t) : t.agenda = s.agenda := by
    cases o with
    | none => injection ho with ho; rw [ho]
    | some i => exact exec_agenda ho
  cases m with
  | item it =>
    simp only [runMove] at ht
    split at ht
    · exact exec_agenda ht
    · cases ht
  | enc => exact hturn _ ht
  | dec => exact hturn _ ht

/-- A turn of the other engine leaves an engine's part alone. -/
theorem runTurn_agree {side other : Side} (hne : other ≠ side) {o : Option Instr} {s t : State}
    (ho : ∀ i, o = some i → sideOf i = some other) (ht : runTurn o s = .next t) : Agree side t s := by
  cases o with
  | none => injection ht with ht; exact ht ▸ Agree.refl side s
  | some i =>
    have hi := ho i rfl
    exact exec_agree_of_not_sideOf (by simpa [hi] using hne) (by rintro rfl; cases hi) ht

/-- A turn of an engine does to its part what that part says. -/
theorem runTurn_congr {side : Side} {o : Option Instr} {s u t : State} (ho : ∀ i, o = some i → sideOf i = some side)
    (hsu : Agree side s u) (ht : runTurn o s = .next t) : ∃ t', runTurn o u = .next t' ∧ Agree side t t' := by
  cases o with
  | none => injection ht with ht; exact ⟨u, rfl, ht ▸ hsu⟩
  | some i => exact exec_congr (.inl (ho i rfl)) hsu ht

/-- A move that cannot act on an engine leaves its part alone. -/
theorem runMove_agree {side : Side} {m : Move} {s t : State} (hm : moveActsOn side m = false)
    (ht : runMove m s = .next t) : Agree side t s := by
  cases m with
  | item it =>
    simp only [runMove] at ht
    split at ht
    · next i hd =>
      simp only [moveActsOn, hd, Bool.or_eq_false_iff, beq_eq_false_iff_ne] at hm
      exact exec_agree_of_not_sideOf hm.1 hm.2 ht
    · cases ht
  | enc =>
    cases side with
    | enc => cases hm
    | dec => exact runTurn_agree (other := .enc) Side.noConfusion (fun _ => sideOf_encNext) ht
  | dec =>
    cases side with
    | enc => exact runTurn_agree (other := .dec) Side.noConfusion (fun _ => sideOf_decNext) ht
    | dec => cases hm

/-- A move that can act on an engine does to its part what that part says. -/
theorem runMove_congr {side : Side} {m : Move} {s u t : State} (hm : moveActsOn side m = true)
    (hsu : Agree side s u) (ht : runMove m s = .next t) : ∃ t', runMove m u = .next t' ∧ Agree side t t' := by
  cases m with
  | item it =>
    simp only [runMove] at ht ⊢
    split at ht
    · next i hd =>
      simp only [moveActsOn, hd, Bool.or_eq_true, beq_iff_eq] at hm
      exact exec_congr hm hsu ht
    · cases ht
  | enc =>
    cases side with
    | enc =>
      obtain ⟨hregs, -⟩ := EncPart.mk.inj hsu.1
      simp only [runMove, ← hregs] at ht ⊢
      exact runTurn_congr (fun _ => sideOf_encNext) hsu ht
    | dec => cases hm
  | dec =>
    cases side with
    | enc => cases hm
    | dec =>
      obtain ⟨hregs, -⟩ := DecPart.mk.inj hsu.1
      simp only [runMove, ← hregs] at ht ⊢
      exact runTurn_congr (fun _ => sideOf_decNext) hsu ht

/-- One step of a run that its agenda names. -/
theorem runSteps_cons {m : Move} {moves : List Move} {k : Nat} {s t : State} :
    runSteps (k + 1) { s with agenda := m :: moves } = .next t ↔
      ∃ s', runMove m { s with agenda := moves } = .next s' ∧ runSteps k { s' with agenda := moves } = .next t := by
  have hstep : step { s with agenda := m :: moves } = runMove m { s with agenda := moves } := rfl
  simp only [runSteps, hstep]
  cases h : runMove m { s with agenda := moves } with
  | next s' =>
    have hs' : { s' with agenda := moves } = s' := by rw [← show s'.agenda = moves from runMove_agenda h]
    simp [hs']
  | fault r => simp
  | refused r => simp

/-- What an engine does in a run is what it does without the moves that cannot act on it (R376). -/
theorem run_without_other_moves (side : Side) (moves : List Move) : ∀ {s u t : State}, Agree side s u →
    runSteps moves.length { s with agenda := moves } = .next t →
    ∃ t', runSteps (moves.filter (moveActsOn side)).length { u with agenda := moves.filter (moveActsOn side) } =
      .next t' ∧ Agree side t t' := by
  induction moves with
  | nil =>
    intro s u t hsu ht
    injection ht with ht
    subst ht
    exact ⟨_, rfl, ((agree_withAgenda side s []).trans hsu).trans (agree_withAgenda side u []).symm⟩
  | cons m rest ih =>
    intro s u t hsu ht
    obtain ⟨s', hm, hrest⟩ := runSteps_cons.mp ht
    cases hacts : moveActsOn side m with
    | true =>
      rw [List.filter_cons_of_pos hacts]
      have hsu' : Agree side { s with agenda := rest } { u with agenda := rest.filter (moveActsOn side) } :=
        ((agree_withAgenda side s _).trans hsu).trans (agree_withAgenda side u _).symm
      obtain ⟨u', hu', hagree⟩ := runMove_congr hacts hsu' hm
      obtain ⟨t', ht', hend⟩ := ih hagree hrest
      exact ⟨t', runSteps_cons.mpr ⟨u', hu', ht'⟩, hend⟩
    | false =>
      rw [List.filter_cons_of_neg (by simp [hacts])]
      exact ih (((runMove_agree hacts hm).trans (agree_withAgenda side s rest)).trans hsu) hrest

/-- RESET acts on both engines; beside it only commands write CMD_ERR (R334). -/
theorem exec_cmdErr {i : Instr} {s t : State} (ht : exec i s = .next t) (hne : t.cmdErr ≠ s.cmdErr) :
    i = .reset ∨ IsCommand i := by
  by_cases hr : i = .reset
  · exact .inl hr
  · obtain ⟨side, h⟩ := exists_runsOn hr
    exact .inr ((h.cmdErr_eq ht).resolve_left hne)

/-- Settles O53: each instruction by the engine it runs on, each run by induction on its agenda. -/
theorem enginesAreIndependent : Obligations.EnginesAreIndependent := by
  refine ⟨fun i s t ht => ⟨fun h => (runsOn_enc h).decPart_eq ht, fun h => (runsOn_dec h).encPart_eq ht,
    fun h hr => ⟨?_, ?_⟩, exec_cmdErr ht⟩, fun moves s t ht => ⟨?_, ?_⟩⟩
  · exact (runsOn_of_no_side .dec h hr).encPart_eq ht
  · exact (runsOn_of_no_side .enc h hr).decPart_eq ht
  · obtain ⟨u, hu, hpart, -⟩ := run_without_other_moves .enc moves (Agree.refl .enc s) ht
    exact ⟨u, hu, hpart.symm⟩
  · obtain ⟨u, hu, hpart, -⟩ := run_without_other_moves .dec moves (Agree.refl .dec s) ht
    exact ⟨u, hu, hpart.symm⟩

end Sys2Proof.Machine
end

section
/-! The counters' bounds (R28). Two invariants of ENC and one of DEC, each kept by every operation: the counters' bounds
themselves, and for E_BYTES a budget of seven nibbles a pixel (R8). -/

namespace Sys2Proof.Machine

open Sys2Proof

/-! ## Counting up at a width -/

theorem toNat_add_one {w : Nat} (a : BitVec w) : (a + 1).toNat = (a.toNat + 1) % 2 ^ w := by
  change (a + 1#w).toNat = _
  rw [BitVec.toNat_add, BitVec.toNat_ofNat, Nat.add_mod_mod]

/-- A counter below another value of its width does not wrap. -/
theorem toNat_add_one_of_lt {w : Nat} {a b : BitVec w} (h : a < b) : (a + 1).toNat = a.toNat + 1 := by
  have hab := BitVec.lt_def.mp h
  have hb := b.isLt
  rw [toNat_add_one, Nat.mod_eq_of_lt (by omega)]

theorem toNat_add_one_le {w : Nat} (a : BitVec w) : (a + 1).toNat ≤ a.toNat + 1 :=
  (toNat_add_one a).trans_le (Nat.mod_le _ _)

/-! ## Invariants of one engine's registers -/

/-- Every change that a step can make to ENC's registers keeps P (R240 to R246, R301, R310, R360). -/
structure KeptByEncChanges (P : Enc → Prop) : Prop where
  reset : P encReset
  start : ∀ count, P (encJobStart count)
  byteTaken : ∀ e, P e → e.obValid = true → P { e with obValid := false, bytes := e.bytes + 1 }
  zeroPixel : ∀ e, P e → e.state = .accept → e.index < e.count →
    P { e with index := e.index + 1, run := e.run + 1 }
  codedPixel : ∀ e pix, P e → e.state = .accept → e.index < e.count →
    P { vleLoad e.run { e with index := e.index + 1, pix := pix } with state := .emitRun }
  noTail : ∀ e, P e → e.state = .accept → e.index = e.count → e.run = 0 → P { e with state := .flush }
  tail : ∀ e, P e → e.state = .accept → e.index = e.count → e.run ≠ 0 →
    P { vleLoad e.run e with state := .emitTail }
  emitted : ∀ e, P e → encEmitting e.state → pkEnabled e = true → vleLast e = false → P (afterEmit e)
  runEmitted : ∀ e, P e → e.state = .emitRun → pkEnabled e = true → vleLast e = true → P (startCode (afterEmit e))
  codeEmitted : ∀ e, P e → e.state = .emitCode → pkEnabled e = true → vleLast e = true →
    P { afterEmit e with state := .accept }
  tailEmitted : ∀ e, P e → e.state = .emitTail → pkEnabled e = true → vleLast e = true →
    P { afterEmit e with run := 0, state := .flush }
  padded : ∀ e, P e → e.state = .flush → e.pPend = true → e.obValid = false →
    P { e with ob := byteOf e.pHi 0, obValid := true, pPend := false }
  finished : ∀ e, P e → e.state = .flush → e.pPend = false → e.obValid = false → P { e with state := .done }

section
variable {P : Enc → Prop}

theorem KeptByEncChanges.emitStep (k : KeptByEncChanges P) {e : Enc} {onLast : Enc → Enc} (h : P e)
    (he : encEmitting e.state) (hlast : pkEnabled e = true → vleLast e = true → P (onLast (afterEmit e))) :
    P (emitStep onLast e) := by
  rcases emitStep_cases onLast e with ⟨-, h'⟩ | ⟨hp, hl, h'⟩ | ⟨hp, hl, h'⟩ <;> rw [h']
  · exact h
  · exact hlast hp hl
  · exact k.emitted e h he hp hl

theorem KeptByEncChanges.emitRunStep (k : KeptByEncChanges P) {e : Enc} (h : P e) : P (emitRunStep e) := by
  unfold Machine.emitRunStep
  split
  · next hs => exact k.emitStep h (.inl hs) (k.runEmitted e h hs)
  · exact h

theorem KeptByEncChanges.emitCodeStep (k : KeptByEncChanges P) {e : Enc} (h : P e) : P (emitCodeStep e) := by
  unfold Machine.emitCodeStep
  split
  · next hs => exact k.emitStep h (.inr (.inl hs)) (k.codeEmitted e h hs)
  · exact h

theorem KeptByEncChanges.emitTailStep (k : KeptByEncChanges P) {e : Enc} (h : P e) : P (emitTailStep e) := by
  unfold Machine.emitTailStep
  split
  · next hs => exact k.emitStep h (.inr (.inr hs)) (k.tailEmitted e h hs)
  · exact h

theorem KeptByEncChanges.hostTakeByte (k : KeptByEncChanges P) {s : State} (h : P s.enc) : P (hostTakeByte s).enc := by
  rcases hostTakeByte_cases s with ⟨-, h'⟩ | ⟨hv, h'⟩ <;> rw [h']
  · exact h
  · exact k.byteTaken _ h hv

theorem KeptByEncChanges.acceptPixelStep (k : KeptByEncChanges P) {s : State} (h : P s.enc) :
    P (acceptPixelStep s).enc := by
  rcases acceptPixelStep_cases s with h' | ⟨hs, hlt, p, -, ⟨-, h'⟩ | ⟨-, h'⟩⟩ <;> rw [h']
  · exact h
  · exact k.zeroPixel _ h hs hlt
  · exact k.codedPixel _ p h hs hlt

theorem KeptByEncChanges.acceptEndStep (k : KeptByEncChanges P) {e : Enc} (h : P e) : P (acceptEndStep e) := by
  rcases acceptEndStep_cases e with h' | ⟨hs, hn, ⟨hr, h'⟩ | ⟨hr, h'⟩⟩ <;> rw [h']
  · exact h
  · exact k.noTail e h hs hn hr
  · exact k.tail e h hs hn hr

theorem KeptByEncChanges.flushStep (k : KeptByEncChanges P) {e : Enc} (h : P e) : P (flushStep e) := by
  rcases flushStep_cases e with h' | ⟨hs, hv, ⟨hp, h'⟩ | ⟨hp, h'⟩⟩ <;> rw [h']
  · exact h
  · exact k.padded e h hs hp hv
  · exact k.finished e h hs hp hv

theorem KeptByEncChanges.keptByOps (k : KeptByEncChanges P) : KeptByOps fun s => P s.enc where
  parts s t h hp _ := by
    obtain ⟨hregs, -⟩ := EncPart.mk.inj hp
    exact hregs ▸ h
  encStart _ count _ _ := k.start count
  decStart _ _ _ h _ := h
  encOffer _ _ h := h
  decOffer _ _ h := h
  takeByte _ h := k.hostTakeByte h
  takePixel s h := by rw [actsWithin_hostTakePixel.enc_eq s]; exact h
  reset _ _ := k.reset
  acceptPixel _ h := k.acceptPixelStep h
  acceptEnd _ h := k.acceptEndStep h
  emitRun _ h := k.emitRunStep h
  emitCode _ h := k.emitCodeStep h
  emitTail _ h := k.emitTailStep h
  flush _ h := k.flushStep h
  runGroup s h := by rw [actsWithin_runGroupStep.enc_eq s]; exact h
  emitZeros _ h := h
  codeGroup s h := by rw [actsWithin_codeGroupStep.enc_eq s]; exact h
  emitValue _ h := h
  drain s h := by rw [actsWithin_drainStep.enc_eq s]; exact h

end

theorem KeptByOps.and {P Q : State → Prop} (hP : KeptByOps P) (hQ : KeptByOps Q) : KeptByOps fun s => P s ∧ Q s where
  parts s t h he hd := ⟨hP.parts s t h.1 he hd, hQ.parts s t h.2 he hd⟩
  encStart s c h hb := ⟨hP.encStart s c h.1 hb, hQ.encStart s c h.2 hb⟩
  decStart s c l h hb := ⟨hP.decStart s c l h.1 hb, hQ.decStart s c l h.2 hb⟩
  encOffer s o h := ⟨hP.encOffer s o h.1, hQ.encOffer s o h.2⟩
  decOffer s o h := ⟨hP.decOffer s o h.1, hQ.decOffer s o h.2⟩
  takeByte s h := ⟨hP.takeByte s h.1, hQ.takeByte s h.2⟩
  takePixel s h := ⟨hP.takePixel s h.1, hQ.takePixel s h.2⟩
  reset s h := ⟨hP.reset s h.1, hQ.reset s h.2⟩
  acceptPixel s h := ⟨hP.acceptPixel s h.1, hQ.acceptPixel s h.2⟩
  acceptEnd s h := ⟨hP.acceptEnd s h.1, hQ.acceptEnd s h.2⟩
  emitRun s h := ⟨hP.emitRun s h.1, hQ.emitRun s h.2⟩
  emitCode s h := ⟨hP.emitCode s h.1, hQ.emitCode s h.2⟩
  emitTail s h := ⟨hP.emitTail s h.1, hQ.emitTail s h.2⟩
  flush s h := ⟨hP.flush s h.1, hQ.flush s h.2⟩
  runGroup s h := ⟨hP.runGroup s h.1, hQ.runGroup s h.2⟩
  emitZeros s h := ⟨hP.emitZeros s h.1, hQ.emitZeros s h.2⟩
  codeGroup s h := ⟨hP.codeGroup s h.1, hQ.codeGroup s h.2⟩
  emitValue s h := ⟨hP.emitValue s h.1, hQ.emitValue s h.2⟩
  drain s h := ⟨hP.drain s h.1, hQ.drain s h.2⟩

/-! ## What one emitted nibble, and the start of a code, change -/

section
variable (e : Enc)

@[simp] theorem afterEmit_state : (afterEmit e).state = e.state := by unfold afterEmit; split <;> rfl
@[simp] theorem afterEmit_count : (afterEmit e).count = e.count := by unfold afterEmit; split <;> rfl
@[simp] theorem afterEmit_index : (afterEmit e).index = e.index := by unfold afterEmit; split <;> rfl
@[simp] theorem afterEmit_bytes : (afterEmit e).bytes = e.bytes := by unfold afterEmit; split <;> rfl
@[simp] theorem afterEmit_run : (afterEmit e).run = e.run := by unfold afterEmit; split <;> rfl
@[simp] theorem afterEmit_pix : (afterEmit e).pix = e.pix := by unfold afterEmit; split <;> rfl
@[simp] theorem afterEmit_prev : (afterEmit e).prev = e.prev := by unfold afterEmit; split <;> rfl
@[simp] theorem afterEmit_vK : (afterEmit e).vK = e.vK := by unfold afterEmit; split <;> rfl
@[simp] theorem afterEmit_vJ : (afterEmit e).vJ = e.vJ + 1 := by unfold afterEmit; split <;> rfl

@[simp] theorem startCode_state : (startCode e).state = .emitCode := rfl
@[simp] theorem startCode_count : (startCode e).count = e.count := rfl
@[simp] theorem startCode_index : (startCode e).index = e.index := rfl
@[simp] theorem startCode_run : (startCode e).run = 0 := rfl
@[simp] theorem startCode_vJ : (startCode e).vJ = 0 := rfl

end

/-- V_K after a load is the number of the value's digits (R114). -/
theorem vleLoad_vK_toNat (v : BitVec 32) (e : Enc) : (vleLoad v e).vK.toNat = octLen v.toNat :=
  octLen_toNat (octLen_le_eleven v.isLt)

/-- The encoder's code fits V_SRC (R192). -/
theorem startCode_vK_toNat (e : Enc) : (startCode e).vK.toNat = octLen (zz (delta e.pix e.prev)) := by
  have hcode := zz_delta_lt e.pix e.prev
  have hfits : (BitVec.ofNat 32 (zz (delta e.pix e.prev))).toNat = zz (delta e.pix e.prev) := by
    rw [BitVec.toNat_ofNat, Nat.mod_eq_of_lt (by omega)]
  calc (startCode e).vK.toNat = octLen (BitVec.ofNat 32 (zz (delta e.pix e.prev))).toNat :=
      vleLoad_vK_toNat _ (encPrevUpdate e.pix { e with run := 0 })
    _ = octLen (zz (delta e.pix e.prev)) := by rw [hfits]

theorem vleLast_eq_true {e : Enc} : vleLast e = true ↔ e.vJ.toNat + 1 = e.vK.toNat := by simp [vleLast]

theorem vleLast_eq_false {e : Enc} : vleLast e = false ↔ e.vJ.toNat + 1 ≠ e.vK.toNat := by simp [vleLast]

/-! ## The bounds of ENC's counters -/

theorem encCounters_kept : KeptByEncChanges EncCounters where
  reset := by simp [EncCounters, encReset, encEmitting]
  start count := by simp [EncCounters, encJobStart, encReset, encEmitting]
  byteTaken e h _ := h
  zeroPixel e h hs hlt := by
    obtain ⟨-, hrun, -, -, -⟩ := h
    have hindex := toNat_add_one_of_lt hlt
    have hrun' := toNat_add_one_le e.run
    have hlt' := BitVec.lt_def.mp hlt
    simp only [EncCounters, encEmitting, hs, hindex]
    refine ⟨by omega, by omega, ?_, ?_, ?_⟩ <;> simp
  codedPixel e pix h hs hlt := by
    obtain ⟨-, hrun, -, -, -⟩ := h
    have hindex := toNat_add_one_of_lt hlt
    have hlt' := BitVec.lt_def.mp hlt
    have hpos := octLen_pos e.run.toNat
    have hle := octLen_le_eleven e.run.isLt
    have hK := vleLoad_vK_toNat e.run e
    rw [vleLoad_vK] at hK
    simp only [EncCounters, encEmitting, hindex, vleLoad_vK, vleLoad_vJ, vleLoad_index, vleLoad_count, vleLoad_run, hK]
    refine ⟨by omega, by omega, fun _ => ⟨hpos, hle⟩, ?_, ?_⟩ <;> simp
  noTail e h hs hn hr := by
    obtain ⟨hindex, hrun, -, -, -⟩ := h
    refine ⟨hindex, hrun, ?_, ?_, fun _ => hn⟩ <;> simp [encEmitting]
  tail e h hs hn hr := by
    obtain ⟨hindex, hrun, -, -, -⟩ := h
    refine ⟨hindex, hrun, fun _ => ?_, by simp, fun _ => hn⟩
    exact ⟨(octLen_pos _).trans_eq (vleLoad_vK_toNat e.run e).symm,
      (vleLoad_vK_toNat e.run e).trans_le (octLen_le_eleven e.run.isLt)⟩
  emitted e h he hp hl := by
    obtain ⟨hindex, hrun, hemit, hcode, hend⟩ := h
    obtain ⟨hJ, hK⟩ := hemit he
    have hJ' := toNat_add_one_of_lt (BitVec.lt_def.mpr hJ)
    rw [vleLast_eq_false] at hl
    simp only [EncCounters, afterEmit_state, afterEmit_index, afterEmit_count, afterEmit_run, afterEmit_vJ,
      afterEmit_vK, hJ']
    exact ⟨hindex, hrun, fun _ => ⟨by omega, hK⟩, hcode, hend⟩
  runEmitted e h hs hp hl := by
    obtain ⟨hindex, -, -, -, -⟩ := h
    have hpos := octLen_pos (zz (delta e.pix e.prev))
    have hle := octLen_code_le_six e.pix e.prev
    have hK := startCode_vK_toNat (afterEmit e)
    rw [afterEmit_pix, afterEmit_prev] at hK
    simp only [EncCounters, startCode_index, startCode_count, startCode_run, startCode_vJ, hK, afterEmit_index,
      afterEmit_count]
    refine ⟨hindex, Nat.zero_le _, fun _ => ⟨hpos, by omega⟩, fun _ => hle, ?_⟩
    simp
  codeEmitted e h hs hp hl := by
    obtain ⟨hindex, hrun, -, -, -⟩ := h
    refine ⟨?_, ?_, ?_, ?_, ?_⟩ <;> simp [encEmitting, hindex, hrun]
  tailEmitted e h hs hp hl := by
    obtain ⟨hindex, hrun, -, -, hend⟩ := h
    refine ⟨?_, ?_, ?_, ?_, ?_⟩ <;> simp [encEmitting, hend (.inl hs)]
  padded e h hs hp hv := h
  finished e h hs hp hv := by
    obtain ⟨hindex, hrun, -, -, hend⟩ := h
    refine ⟨hindex, hrun, ?_, ?_, fun _ => hend (.inr (.inl hs))⟩ <;> simp [encEmitting]

/-! ## The budget of nibbles -/

/-- The nibbles ENC's job has written so far: those of the bytes the host took and of OB, and the pending one. -/
def encNibblesOut (e : Enc) : Nat :=
  2 * e.bytes.toNat + (if e.obValid then 2 else 0) + (if e.pPend then 1 else 0)

/-- Seven nibbles a pixel pay for all that is written and all that is owed: a zero pixel owes one nibble, a coded pixel
what is left of its run group and six for its code, and the end a padding nibble (R8, R113, R132). -/
def NibbleBudget (e : Enc) : Prop :=
  match e.state with
  | .idle => encNibblesOut e ≤ 7 * e.index.toNat
  | .accept => encNibblesOut e + e.run.toNat ≤ 7 * e.index.toNat
  | .emitRun => encNibblesOut e + e.vK.toNat + 6 ≤ 7 * e.index.toNat + e.vJ.toNat
  | .emitCode => encNibblesOut e + e.vK.toNat + e.run.toNat ≤ 7 * e.index.toNat + e.vJ.toNat
  | .emitTail => encNibblesOut e + e.vK.toNat ≤ 7 * e.index.toNat + e.vJ.toNat
  | .flush => encNibblesOut e + (if e.pPend then 1 else 0) ≤ 7 * e.index.toNat + 1
  | .done => encNibblesOut e ≤ 7 * e.index.toNat + 1

section
variable {e : Enc}

theorem nibbleBudget_accept (hs : e.state = .accept) :
    NibbleBudget e ↔ encNibblesOut e + e.run.toNat ≤ 7 * e.index.toNat := by simp only [NibbleBudget, hs]

theorem nibbleBudget_emitRun (hs : e.state = .emitRun) :
    NibbleBudget e ↔ encNibblesOut e + e.vK.toNat + 6 ≤ 7 * e.index.toNat + e.vJ.toNat := by
  simp only [NibbleBudget, hs]

theorem nibbleBudget_emitCode (hs : e.state = .emitCode) :
    NibbleBudget e ↔ encNibblesOut e + e.vK.toNat + e.run.toNat ≤ 7 * e.index.toNat + e.vJ.toNat := by
  simp only [NibbleBudget, hs]

theorem nibbleBudget_emitTail (hs : e.state = .emitTail) :
    NibbleBudget e ↔ encNibblesOut e + e.vK.toNat ≤ 7 * e.index.toNat + e.vJ.toNat := by
  simp only [NibbleBudget, hs]

theorem nibbleBudget_flush (hs : e.state = .flush) :
    NibbleBudget e ↔ encNibblesOut e + (if e.pPend then 1 else 0) ≤ 7 * e.index.toNat + 1 := by
  simp only [NibbleBudget, hs]

end

theorem ite_le_one (b : Bool) : (if b then 1 else 0) ≤ 1 := by cases b <;> decide

theorem encNibblesOut_afterEmit {e : Enc} (h : pkEnabled e = true) :
    encNibblesOut (afterEmit e) = encNibblesOut e + 1 := by
  unfold encNibblesOut afterEmit
  cases hp : e.pPend with
  | false => simp
  | true =>
    have hv : e.obValid = false := by simpa [pkEnabled, hp] using h
    simp [hv]

theorem encNibblesOut_byteTaken {e : Enc} (h : e.obValid = true) :
    encNibblesOut { e with obValid := false, bytes := e.bytes + 1 } ≤ encNibblesOut e := by
  have hbytes := toNat_add_one_le e.bytes
  simp only [encNibblesOut, h, if_true, Bool.false_eq_true, if_false]
  omega

theorem NibbleBudget.byteTaken {e : Enc} (h : NibbleBudget e) (hv : e.obValid = true) :
    NibbleBudget { e with obValid := false, bytes := e.bytes + 1 } := by
  have hout := encNibblesOut_byteTaken hv
  unfold NibbleBudget at h ⊢
  cases hs : e.state <;> simp only [hs] at h ⊢ hout <;> omega

/-- While one more nibble of the group is to be written, its emission moves it from owed to written. -/
theorem NibbleBudget.afterEmit {e : Enc} (h : NibbleBudget e) (he : encEmitting e.state) (hp : pkEnabled e = true)
    (hJ : e.vJ.toNat < e.vK.toNat) : NibbleBudget (afterEmit e) := by
  have hout := encNibblesOut_afterEmit hp
  have hJ' := toNat_add_one_of_lt (BitVec.lt_def.mpr hJ)
  unfold NibbleBudget at h ⊢
  simp only [afterEmit_state, afterEmit_index, afterEmit_run, afterEmit_vK, afterEmit_vJ, hJ', hout]
  rcases he with hs | hs | hs <;> simp only [hs] at h ⊢ <;> omega

/-- The bound R28 gives E_BYTES, from the budget. -/
theorem NibbleBudget.bytes_le {e : Enc} (h : NibbleBudget e) (hc : EncCounters e) :
    e.bytes.toNat ≤ (7 * e.count.toNat + 1) / 2 := by
  obtain ⟨hindex, -, hemit, -, -⟩ := hc
  have hout : 2 * e.bytes.toNat ≤ encNibblesOut e := by unfold encNibblesOut; omega
  unfold NibbleBudget at h
  cases hs : e.state <;> simp only [hs] at h hemit
  case emitRun => have := hemit (.inl rfl); omega
  case emitCode => have := hemit (.inr (.inl rfl)); omega
  case emitTail => have := hemit (.inr (.inr rfl)); omega
  all_goals omega

theorem nibbleBudget_kept : KeptByEncChanges fun e => EncCounters e ∧ NibbleBudget e where
  reset := ⟨encCounters_kept.reset, by simp [NibbleBudget, encReset, encNibblesOut]⟩
  start count := ⟨encCounters_kept.start count, by simp [NibbleBudget, encJobStart, encReset, encNibblesOut]⟩
  byteTaken e h hv := ⟨encCounters_kept.byteTaken e h.1 hv, h.2.byteTaken hv⟩
  zeroPixel e h hs hlt := by
    refine ⟨encCounters_kept.zeroPixel e h.1 hs hlt, ?_⟩
    have hbudget := (nibbleBudget_accept hs).mp h.2
    have hrun := toNat_add_one_le e.run
    rw [nibbleBudget_accept (by exact hs)]
    change encNibblesOut e + (e.run + 1).toNat ≤ 7 * (e.index + 1).toNat
    rw [toNat_add_one_of_lt hlt]
    omega
  codedPixel e pix h hs hlt := by
    refine ⟨encCounters_kept.codedPixel e pix h.1 hs hlt, ?_⟩
    have hbudget := (nibbleBudget_accept hs).mp h.2
    have hgroup := octLen_le_succ_self e.run.toNat
    change encNibblesOut e + (vleLoad e.run e).vK.toNat + 6 ≤ 7 * (e.index + 1).toNat + 0
    rw [vleLoad_vK_toNat, toNat_add_one_of_lt hlt]
    omega
  noTail e h hs hn hr := by
    refine ⟨encCounters_kept.noTail e h.1 hs hn hr, ?_⟩
    have hbudget := (nibbleBudget_accept hs).mp h.2
    have hpad := ite_le_one e.pPend
    change encNibblesOut e + (if e.pPend then 1 else 0) ≤ 7 * e.index.toNat + 1
    omega
  tail e h hs hn hr := by
    refine ⟨encCounters_kept.tail e h.1 hs hn hr, ?_⟩
    have hbudget := (nibbleBudget_accept hs).mp h.2
    have hgroup := octLen_le_self (v := e.run.toNat) (by bv_omega)
    change encNibblesOut e + (vleLoad e.run e).vK.toNat ≤ 7 * e.index.toNat + 0
    rw [vleLoad_vK_toNat]
    omega
  emitted e h he hp hl := by
    obtain ⟨hcounters, hbudget⟩ := h
    have ⟨_, _, hemit, _, _⟩ := hcounters
    exact ⟨encCounters_kept.emitted e hcounters he hp hl, hbudget.afterEmit he hp (hemit he).1⟩
  runEmitted e h hs hp hl := by
    refine ⟨encCounters_kept.runEmitted e h.1 hs hp hl, ?_⟩
    have hbudget := (nibbleBudget_emitRun hs).mp h.2
    have hcode := octLen_code_le_six (afterEmit e).pix (afterEmit e).prev
    rw [vleLast_eq_true] at hl
    change encNibblesOut (afterEmit e) + (startCode (afterEmit e)).vK.toNat + 0 ≤ 7 * (afterEmit e).index.toNat + 0
    rw [encNibblesOut_afterEmit hp, startCode_vK_toNat, afterEmit_index]
    omega
  codeEmitted e h hs hp hl := by
    refine ⟨encCounters_kept.codeEmitted e h.1 hs hp hl, ?_⟩
    have hbudget := (nibbleBudget_emitCode hs).mp h.2
    rw [vleLast_eq_true] at hl
    change encNibblesOut (afterEmit e) + (afterEmit e).run.toNat ≤ 7 * (afterEmit e).index.toNat
    rw [encNibblesOut_afterEmit hp, afterEmit_index, afterEmit_run]
    omega
  tailEmitted e h hs hp hl := by
    refine ⟨encCounters_kept.tailEmitted e h.1 hs hp hl, ?_⟩
    have hbudget := (nibbleBudget_emitTail hs).mp h.2
    have hpad := ite_le_one (afterEmit e).pPend
    rw [vleLast_eq_true] at hl
    change encNibblesOut (afterEmit e) + (if (afterEmit e).pPend then 1 else 0) ≤ 7 * (afterEmit e).index.toNat + 1
    rw [encNibblesOut_afterEmit hp, afterEmit_index]
    omega
  padded e h hs hp hv := by
    refine ⟨encCounters_kept.padded e h.1 hs hp hv, ?_⟩
    have hbudget := (nibbleBudget_flush hs).mp h.2
    rw [nibbleBudget_flush (by exact hs)]
    simp only [encNibblesOut, hp, hv, if_true, Bool.false_eq_true, if_false] at hbudget ⊢
    omega
  finished e h hs hp hv := by
    refine ⟨encCounters_kept.finished e h.1 hs hp hv, ?_⟩
    have hbudget := (nibbleBudget_flush hs).mp h.2
    change encNibblesOut e ≤ 7 * e.index.toNat + 1
    omega

/-! ## The bounds of DEC's counters -/

theorem decCounters_reset : DecCounters decReset := by simp [DecCounters, decReset]

theorem decCounters_start (count : Count) (len : Length) : DecCounters (decJobStart count len) := by
  refine ⟨Nat.zero_le _, Nat.zero_le _, Nat.zero_le _, ?_⟩
  by_cases hc : count = 0
  · have hs : (decJobStart count len).state = .drain := if_pos hc
    rw [hs]
    exact fun _ => rfl
  · have hs : (decJobStart count len).state = .runGroup := if_neg hc
    have hpos : 0 < count.toNat := by bv_omega
    rw [hs]
    exact ⟨rfl, hpos⟩

section
variable {d : Dec}

theorem DecCounters.pixelTaken (h : DecCounters d) : DecCounters { d with poValid := false } := by
  obtain ⟨hbytes, hnibbles, hproduced, hstate⟩ := h
  refine ⟨hbytes, hnibbles, hproduced, ?_⟩
  cases hs : d.state <;> simp only [hs] at hstate ⊢
  case drain => simp
  all_goals simp [hstate]

theorem DecCounters.raiseDecode (h : DecCounters d) (code : ErrCode) : DecCounters (raiseDecode code d) := by
  obtain ⟨hbytes, hnibbles, hproduced, -⟩ := h
  exact ⟨hbytes, hnibbles, hproduced, fun _ => rfl⟩

/-- The pending low nibble is read: it was paid for with its byte (R151). -/
theorem DecCounters.readLow (h : DecCounters d) (hlo : d.loPend = true) (n : Nibble) :
    DecCounters (vldStep n { d with loPend := false }) := by
  obtain ⟨hbytes, hnibbles, hproduced, hstate⟩ := h
  have hcount := toNat_add_one_le d.nibbles
  rw [hlo, if_pos rfl] at hnibbles
  refine ⟨hbytes, ?_, hproduced, hstate⟩
  change (d.nibbles + 1).toNat + 0 ≤ 2 * d.bytesIn.toNat
  omega

/-- A byte is taken for its high nibble, and pays for both (R151). -/
theorem DecCounters.readHigh (h : DecCounters d) (hs : d.state = .runGroup ∨ d.state = .codeGroup)
    (hlo : d.loPend = false) (hlt : d.bytesIn < d.len) (b : Byte) :
    DecCounters (vldStep (hiNibble b) { d with bytesIn := d.bytesIn + 1, lo := loNibble b, loPend := true }) := by
  obtain ⟨-, hnibbles, hproduced, hstate⟩ := h
  have hcount := toNat_add_one_le d.nibbles
  have hbytes' := toNat_add_one_of_lt hlt
  have hlt' := BitVec.lt_def.mp hlt
  rw [hlo] at hnibbles
  refine ⟨?_, ?_, hproduced, ?_⟩
  · change (d.bytesIn + 1).toNat ≤ d.len.toNat
    omega
  · change (d.nibbles + 1).toNat + 1 ≤ 2 * (d.bytesIn + 1).toNat
    simp only [Bool.false_eq_true, if_false] at hnibbles
    omega
  · rcases hs with hs | hs <;> simp only [vldStep_state, hs] at hstate ⊢ <;> exact hstate

/-- A byte is taken and dropped (R152). -/
theorem DecCounters.byteDropped (h : DecCounters d) (hs : d.state = .drain) (hlt : d.bytesIn < d.len) :
    DecCounters { d with bytesIn := d.bytesIn + 1 } := by
  obtain ⟨-, hnibbles, hproduced, hstate⟩ := h
  have hbytes' := toNat_add_one_of_lt hlt
  have hlt' := BitVec.lt_def.mp hlt
  refine ⟨?_, ?_, hproduced, ?_⟩
  · change (d.bytesIn + 1).toNat ≤ d.len.toNat
    omega
  · change d.nibbles.toNat + (if d.loPend then 1 else 0) ≤ 2 * (d.bytesIn + 1).toNat
    omega
  · simp only [hs] at hstate ⊢
    exact hstate

theorem DecCounters.overrunCheck (h : DecCounters d) (hs : d.state = .runGroup) : DecCounters (overrunCheck d) := by
  rcases overrunCheck_cases d with ⟨-, h'⟩ | ⟨-, hfits, h'⟩ <;> rw [h']
  · exact h.raiseDecode _
  · obtain ⟨hbytes, hnibbles, hproduced, hstate⟩ := h
    rw [hs] at hstate
    exact ⟨hbytes, hnibbles, hproduced, hstate.1, hfits⟩

theorem DecCounters.rangeCheck (h : DecCounters d) (hs : d.state = .codeGroup) : DecCounters (rangeCheck d) := by
  rcases rangeCheck_cases d with ⟨-, h'⟩ | ⟨-, -, h'⟩ | ⟨-, v, -, h'⟩ <;> rw [h']
  · exact h.raiseDecode _
  · exact h.raiseDecode _
  · obtain ⟨hbytes, hnibbles, hproduced, hstate⟩ := h
    rw [hs] at hstate
    exact ⟨hbytes, hnibbles, hproduced, hstate⟩

/-- The end of a group, if this nibble ends it, for any check that keeps the bounds in the group's state. -/
theorem decCounters_afterNibble {finish : Dec → Dec} {n : Nibble} (h : DecCounters (vldStep n d))
    (hfinish : DecCounters (vldStep n d) → DecCounters (finish (vldStep n d))) :
    DecCounters (afterNibble finish n d) := by
  unfold afterNibble
  split
  · exact hfinish h
  · exact h

end

theorem decCounters_groupStep {finish : Dec → Dec} {s : State} (h : DecCounters s.dec)
    (hs : s.dec.state = .runGroup ∨ s.dec.state = .codeGroup)
    (hfinish : ∀ d, d.state = s.dec.state → DecCounters d → DecCounters (finish d)) :
    DecCounters (groupStep finish s).dec := by
  rcases groupStep_cases finish s with ⟨h', -⟩ | ⟨-, -, h'⟩ | ⟨hlo, h'⟩ | ⟨hlo, hlt, b, -, h'⟩ <;> rw [h']
  · exact h
  · exact h.raiseDecode _
  · exact decCounters_afterNibble (h.readLow hlo _) (hfinish _ rfl)
  · exact decCounters_afterNibble (h.readHigh hs hlo hlt b) (hfinish _ rfl)

theorem decCounters_runGroupStep {s : State} (h : DecCounters s.dec) : DecCounters (runGroupStep s).dec := by
  unfold runGroupStep
  split
  · next hs => exact decCounters_groupStep h (.inl hs) fun d hd hc => hc.overrunCheck (hd.trans hs)
  · exact h

theorem decCounters_codeGroupStep {s : State} (h : DecCounters s.dec) : DecCounters (codeGroupStep s).dec := by
  unfold codeGroupStep
  split
  · next hs => exact decCounters_groupStep h (.inr hs) fun d hd hc => hc.rangeCheck (hd.trans hs)
  · exact h

theorem decCounters_emitZerosStep {d : Dec} (h : DecCounters d) : DecCounters (emitZerosStep d) := by
  rcases emitZerosStep_cases d with h' | ⟨hs, ⟨hz, -, h'⟩ | ⟨hz, hlt, h'⟩ | ⟨hz, -, h'⟩⟩ <;> rw [h']
  · exact h
  all_goals
    obtain ⟨hbytes, hnibbles, hproduced, hstate⟩ := h
    rw [hs] at hstate
    obtain ⟨herr, hleft⟩ := hstate
  · have hlt : d.produced < d.count := by bv_omega
    have hproduced' := toNat_add_one_of_lt hlt
    have hzrem : (d.zrem - 1).toNat = d.zrem.toNat - 1 := by bv_omega
    have hpos : 0 < d.zrem.toNat := by bv_omega
    refine ⟨hbytes, hnibbles, ?_, ?_⟩
    · change (d.produced + 1).toNat ≤ d.count.toNat
      omega
    · simp only [hs]
      exact ⟨herr, by omega⟩
  · exact ⟨hbytes, hnibbles, hproduced, herr, BitVec.lt_def.mp hlt⟩
  · exact ⟨hbytes, hnibbles, hproduced, fun hne => absurd herr hne⟩

theorem decCounters_emitValueStep {d : Dec} (h : DecCounters d) : DecCounters (emitValueStep d) := by
  rcases emitValueStep_cases d with h' | ⟨hs, -, ⟨hlt, h'⟩ | ⟨-, h'⟩⟩ <;> rw [h']
  · exact h
  all_goals
    obtain ⟨hbytes, hnibbles, -, hstate⟩ := h
    rw [hs] at hstate
    obtain ⟨herr, hleft⟩ := hstate
    have hproduced' := toNat_add_one_of_lt (BitVec.lt_def.mpr hleft)
    have hproduced : (d.produced + 1).toNat ≤ d.count.toNat := by omega
  · exact ⟨hbytes, hnibbles, hproduced, herr, BitVec.lt_def.mp hlt⟩
  · exact ⟨hbytes, hnibbles, hproduced, fun hne => absurd herr hne⟩

theorem decCounters_drainStep {s : State} (h : DecCounters s.dec) : DecCounters (drainStep s).dec := by
  rcases drainStep_cases s with h' | ⟨hs, ⟨hlt, b, -, h'⟩ | ⟨hend, hpo, h'⟩⟩ <;> rw [h']
  · exact h
  · exact h.byteDropped hs hlt
  · obtain ⟨hbytes, hnibbles, hproduced, -⟩ := h
    have hall : s.dec.bytesIn = s.dec.len := by bv_omega
    refine ⟨hbytes, hnibbles, hproduced, ?_⟩
    by_cases herr : s.dec.err = none <;> simp [herr, hall, hpo]

theorem decCounters_keptByOps : KeptByOps fun s => DecCounters s.dec where
  parts s t h _ hp := by
    obtain ⟨hregs, -⟩ := DecPart.mk.inj hp
    exact hregs ▸ h
  encStart _ _ h _ := h
  decStart _ count len _ _ := decCounters_start count len
  encOffer _ _ h := h
  decOffer _ _ h := h
  takeByte s h := by rw [actsWithin_hostTakeByte.dec_eq s]; exact h
  takePixel s h := by
    rcases hostTakePixel_cases s with ⟨-, h'⟩ | ⟨-, h'⟩ <;> rw [h']
    · exact h
    · exact h.pixelTaken
  reset _ _ := decCounters_reset
  acceptPixel s h := by rw [actsWithin_acceptPixelStep.dec_eq s]; exact h
  acceptEnd _ h := h
  emitRun _ h := h
  emitCode _ h := h
  emitTail _ h := h
  flush _ h := h
  runGroup _ h := decCounters_runGroupStep h
  emitZeros _ h := decCounters_emitZerosStep h
  codeGroup _ h := decCounters_codeGroupStep h
  emitValue _ h := decCounters_emitValueStep h
  drain _ h := decCounters_drainStep h

/-! ## Every run from reset -/

/-- Every operation keeps the bounds of both engines' counters (R28). -/
theorem counterInv_keptByOps : KeptByOps CounterInv := encCounters_kept.keptByOps.and decCounters_keptByOps

/-- Settles O46: the counters' invariant has all bounds but that of E_BYTES, which the budget of nibbles gives. -/
theorem countersStayInTheirBounds : Obligations.CountersStayInTheirBounds := by
  intro agenda k s hrun
  have hkept := counterInv_keptByOps.and nibbleBudget_kept.keptByOps
  have hreset : CounterInv { State.reset with agenda := agenda } := ⟨encCounters_kept.reset, decCounters_reset⟩
  obtain ⟨⟨hc, hbytesIn, hnibbles, hproduced, -⟩, -, hbudget⟩ :=
    runSteps_keeps (fun _ _ => hkept.step) k _ s ⟨hreset, nibbleBudget_kept.reset⟩ hrun
  have ⟨hindex, _⟩ := hc
  exact ⟨hindex, hbudget.bytes_le hc, hproduced, hbytesIn, by omega⟩

end Sys2Proof.Machine
end

section
/-! The nibble encoder (R110 to R117). What the two forms of a digit are is said once, in
base 8; the function's list and the unit's nibble follow from it, and the first digit's size gives R112. -/

namespace Sys2Proof.Machine

open Sys2Proof

/-! ## The digits of a group -/

/-- The payload VLE writes is the base-8 digit of weight 8^i (R110). -/
theorem ofNat_shiftRight_toNat (v i : Nat) : (BitVec.ofNat 3 (v >>> (3 * i))).toNat = v / 8 ^ i % 8 := by
  rw [BitVec.toNat_ofNat, Nat.shiftRight_eq_div_pow, Nat.pow_mul]

/-- The same digit as VLE_EMIT cuts it out of V_SRC (R115). -/
theorem extractLsb'_shiftRight_toNat (v : BitVec 32) (i : Nat) :
    ((v >>> (3 * i)).extractLsb' 0 3).toNat = v.toNat / 8 ^ i % 8 := by
  rw [BitVec.extractLsb'_toNat, BitVec.toNat_ushiftRight, Nat.shiftRight_zero, Nat.shiftRight_eq_div_pow, Nat.pow_mul]

theorem contBit_vle_getElem (v j : Nat) (h : j < (vle v).length) : contBit (vle v)[j] = true ↔ j + 1 < octLen v := by
  rw [vle_getElem, contBit_mkNibble, decide_eq_true_iff]

theorem payload_vle_getElem (v j : Nat) (h : j < (vle v).length) :
    (payload (vle v)[j]).toNat = v / 8 ^ (octLen v - 1 - j) % 8 := by
  rw [vle_getElem, payload_mkNibble, ofNat_shiftRight_toNat]

/-- The length of R110 and R113, in Mathlib's terms. -/
theorem octLen_eq_size (v : Nat) : octLen v = max 1 ((Nat.size v + 2) / 3) := by rw [octLen, bitlen_eq_size]

/-- Settles O16: the length and the digits of the list the function returns. -/
theorem vleGivesTheDigits : Obligations.VleGivesTheDigits := by
  intro v s _
  refine ⟨vle v, rfl, (vle_length v).trans (octLen_eq_size v), fun j n hn => ?_⟩
  obtain ⟨hj, rfl⟩ := List.getElem?_eq_some_iff.mp hn
  rw [contBit_vle_getElem, payload_vle_getElem, vle_length]
  exact ⟨Nat.lt_sub_iff_add_lt.symm, rfl⟩

/-! ## The unit -/

/-- Settles O23: V_K has the bits for the count, as no 32-bit value has more than 11 digits. -/
theorem vleLoadStartsAGroup : Obligations.VleLoadStartsAGroup := fun v s =>
  ⟨(vleLoad v s.enc).vK, (vleLoad_vK_toNat v s.enc).trans (octLen_eq_size v.toNat), rfl⟩

theorem contBit_vleNibble (e : Enc) : contBit (vleNibble e) = true ↔ e.vJ.toNat + 1 < e.vK.toNat := by
  rw [vleNibble, contBit_mkNibble, decide_eq_true_iff]

theorem payload_vleNibble {e : Enc} (h : e.vJ.toNat < e.vK.toNat) :
    (payload (vleNibble e)).toNat = e.vSrc.toNat / 8 ^ (e.vK.toNat - 1 - e.vJ.toNat) % 8 := by
  rw [vleNibble, payload_mkNibble, if_pos h, extractLsb'_shiftRight_toNat]

theorem vleLast_eq_decide (e : Enc) : vleLast e = decide (e.vJ.toNat + 1 = e.vK.toNat) :=
  Bool.beq_eq_decide_eq _ _

theorem exec_vleEmit_of_none {s : State} (h : vleEmit s.enc = none) : exec .vleEmit s = .next s := by
  simp only [exec, execVleEmit, h]

theorem exec_vleEmit_of_some {s : State} {n : Nibble} {last : Bool} {e : Enc} (h : vleEmit s.enc = some ((n, last), e)) :
    exec .vleEmit s = .next { s with enc := e, ret := .emitted n last } := by
  simp only [exec, execVleEmit, h]

/-- Settles O24: the nibble by its two fields and as the group's next one, then the three outcomes of PK_WRITE. -/
theorem vleEmitGivesTheNextNibble : Obligations.VleEmitGivesTheNextNibble := by
  intro s
  refine ⟨vleNibble s.enc, contBit_vleNibble s.enc, payload_vleNibble, fun v hsrc hk hj => ?_, ?_⟩
  · rw [vleNibble_eq ⟨hsrc, hk, hj⟩, List.getElem?_eq_getElem]
  · rw [← vleLast_eq_decide]
    rcases vleEmit_cases s.enc with ⟨hpend, hfull, h⟩ | ⟨hpend, h⟩ | ⟨hpend, hroom, h⟩
    · simp [hpend, hfull, exec_vleEmit_of_none h]
    · simp [hpend, exec_vleEmit_of_some h]
    · simp [hpend, hroom, exec_vleEmit_of_some h]

/-! ## Groups read back -/

/-- VLD at the first nibble of a group reads the group (R117). -/
theorem vld_vle (v : Nat) (t : List Nibble) : vld (vle v ++ t) 0 = .ok (v, octLen v) := by
  rw [vld, List.drop_zero, vldFrom_vle, Nat.zero_add]

theorem vle_injective : Function.Injective vle := by
  intro w v h
  have hread : vld (vle w ++ []) 0 = vld (vle v ++ []) 0 := by rw [h]
  rw [vld_vle, vld_vle] at hread
  exact (Prod.mk.inj (Except.ok.inj hread)).1

/-- The first digit of a positive value is not 0: its weight is at most the value (R112). -/
theorem pow_octLen_pred_le_of_pos {v : Nat} (h : 0 < v) : 8 ^ (octLen v - 1) ≤ v := by
  by_cases hk : 1 < octLen v
  · simpa [Nat.pow_mul] using pow_octLen_pred_le hk
  · rw [Nat.sub_eq_zero_of_le (not_lt.mp hk)]
    exact h

/-- The first digit is all that is left of v above the other digits. -/
theorem div_pow_octLen_pred_lt (v : Nat) : v / 8 ^ (octLen v - 1) < 8 := by
  apply Nat.div_lt_of_lt_mul
  rw [← Nat.pow_succ, Nat.succ_eq_add_one, Nat.sub_add_cancel (octLen_pos v)]
  simpa [Nat.pow_mul] using lt_pow_octLen v

theorem payload_head_vle_ne_zero {v : Nat} (h : 0 < v) {n : Nibble} (hn : n ∈ (vle v).head?) : payload n ≠ 0 := by
  rw [List.head?_eq_getElem?] at hn
  obtain ⟨h0, rfl⟩ := List.getElem?_eq_some_iff.mp hn
  have hdigit := payload_vle_getElem v 0 h0
  rw [Nat.sub_zero, Nat.mod_eq_of_lt (div_pow_octLen_pred_lt v)] at hdigit
  have hpos : 0 < v / 8 ^ (octLen v - 1) := Nat.div_pos (pow_octLen_pred_le_of_pos h) (by positivity)
  intro hzero
  rw [hzero] at hdigit
  exact hpos.ne hdigit

/-- Settles O56: reading back, the first digit, and one-to-one because a group reads as one value only. -/
theorem groupsReadBack : Obligations.GroupsReadBack := by
  intro v t s _
  refine ⟨?_, fun hv n hn => payload_head_vle_ne_zero hv hn, fun w h => vle_injective h⟩
  simp only [exec, execVld, vld_vle, vldRet, vle_length]

end Sys2Proof.Machine
end

section
/-! The bit packer and its function (R130 to R133), and the function of the unpacker (R150). The functions' bytes and
nibbles are read off by position; the unit's operations are taken apart by what each can do. -/

namespace Sys2Proof.Machine

open Sys2Proof

/-! ## The functions, by position -/

/-- R130's loop body: byte k of Pack is made of nibbles 2k and 2k + 1, with zero for one beyond the end. -/
theorem pack_getElem :
    ∀ (l : List Nibble) (k : Nat) (h : k < (pack l).length),
      (pack l)[k] = byteOf (l[2 * k]?.getD 0) (l[2 * k + 1]?.getD 0)
  | [_], 0, _ => rfl
  | _ :: _ :: _, 0, _ => rfl
  | _ :: _ :: t, k + 1, h => pack_getElem t k (Nat.lt_of_succ_lt_succ h)

theorem unpack_getElem?_two_mul : ∀ (bs : List Byte) (k : Nat), (unpack bs)[2 * k]? = bs[k]?.map hiNibble
  | [], _ => rfl
  | _ :: _, 0 => rfl
  | _ :: t, k + 1 => unpack_getElem?_two_mul t k

theorem unpack_getElem?_two_mul_add_one :
    ∀ (bs : List Byte) (k : Nat), (unpack bs)[2 * k + 1]? = bs[k]?.map loNibble
  | [], _ => rfl
  | _ :: _, 0 => rfl
  | _ :: t, k + 1 => unpack_getElem?_two_mul_add_one t k

/-- Settles O17: the lists the two functions return, read by position, and the halves of a byte as numbers. -/
theorem packAndUnpackKeepNibbleOrder : Obligations.PackAndUnpackKeepNibbleOrder := by
  refine ⟨fun l s => ⟨pack l, rfl, pack_length l, fun k b hb => ?_⟩,
    fun bs s => ⟨unpack bs, rfl, unpack_length bs, fun k b hb => ⟨?_, ?_⟩⟩⟩
  · obtain ⟨hk, rfl⟩ := List.getElem?_eq_some_iff.mp hb
    rw [pack_getElem l k hk, byteOf_toNat]
  · simp [unpack_getElem?_two_mul, hb, hiNibble_toNat]
  · simp [unpack_getElem?_two_mul_add_one, hb, loNibble_toNat]

/-! ## The unit -/

theorem exec_pkWrite_of_none {n : Nibble} {s : State} (h : pkWrite n s.enc = none) : exec (.pkWrite n) s = .next s := by
  simp only [exec, execPkWrite, h]

theorem exec_pkWrite_of_some {n : Nibble} {s : State} {e : Enc} (h : pkWrite n s.enc = some e) :
    exec (.pkWrite n) s = .next { s with enc := e } := by
  simp only [exec, execPkWrite, h]

/-- Settles O25: the three outcomes of PK_WRITE, with the byte of the second nibble as a number. -/
theorem pkWritePairsNibbles : Obligations.PkWritePairsNibbles := by
  intro n s
  rcases pkWrite_cases n s.enc with ⟨hpend, hfull, h⟩ | ⟨hpend, h⟩ | ⟨hpend, hroom, h⟩
  · simp [hpend, hfull, exec_pkWrite_of_none h]
  · simp [hpend, exec_pkWrite_of_some h]
  · have hbyte := byteOf_toNat s.enc.pHi n
    exact ⟨by simp [hpend], fun _ _ => ⟨_, hbyte, exec_pkWrite_of_some h⟩, by simp [hroom]⟩

theorem pkFlush_of_enabled {e : Enc} (hs : e.state = .flush) (hpend : e.pPend = true) (hroom : e.obValid = false) :
    pkFlush e = { e with ob := byteOf e.pHi 0, obValid := true, pPend := false } := by
  simp [pkFlush, hs, hpend, hroom]

theorem pkFlush_of_disabled {e : Enc} (h : e.state ≠ .flush ∨ e.pPend = false ∨ e.obValid = true) : pkFlush e = e := by
  rcases pkFlush_cases e with ⟨hs, hpend, hroom, -⟩ | ⟨-, hsame⟩
  · simp [hs, hpend, hroom] at h
  · exact hsame

theorem exec_pkFlush (s : State) : exec .pkFlush s = .next { s with enc := pkFlush s.enc } := rfl

theorem exec_pkClear (s : State) : exec .pkClear s = .next { s with enc := pkClear s.enc } := rfl

/-- An accepted ENC_START leaves the packer clear (R133, R301). -/
theorem pkClear_encJobStart (count : Count) : pkClear (encJobStart count) = encJobStart count := rfl

theorem exec_encStart_of_not_busy {s : State} (h : encBusy s.enc.state = false) (count : Count) (len : Length) :
    exec (.encStart count len) s =
      .next { s with
        enc := encJobStart count
        cmdErr := .ok
        host := { s.host with encSent := [], encGot := [] } } := by
  simp [exec, execEncStart, h]

/-- Settles O26: PK_FLUSH by its two cases, and an accepted ENC_START as one in a state that is not busy. -/
theorem pkFlushPadsAndPkClearClears : Obligations.PkFlushPadsAndPkClearClears := by
  intro s
  refine ⟨fun hs hpend hroom => ⟨byteOf s.enc.pHi 0, byteOf_toNat s.enc.pHi 0, ?_⟩, fun hoff => ?_, exec_pkClear s,
    fun count len t hs ht => ?_⟩
  · rw [exec_pkFlush, pkFlush_of_enabled hs hpend hroom]
  · rw [exec_pkFlush, pkFlush_of_disabled hoff]
  · have hidle : encBusy s.enc.state = false := by rcases hs with hs | hs <;> rw [hs] <;> rfl
    rw [exec_encStart_of_not_busy hidle] at ht
    obtain rfl := Host.Outcome.next.inj ht
    rw [exec_pkClear, pkClear_encJobStart]

end Sys2Proof.Machine
end

section
/-! The bit unpacker (R150 to R153): what each of its operations answers follows from what `upRead` and `upDiscard` can
do. -/

namespace Sys2Proof.Machine

open Sys2Proof

/-! ## UP_READ -/

theorem exec_upRead_of_disabled {s : State} (h : upRead s = none) : exec .upRead s = .next s := by
  simp only [exec, execUpRead, h]

theorem exec_upRead_of_nibble {s t : State} {n : Nibble} (h : upRead s = some (some n, t)) :
    exec .upRead s = .next { t with ret := .nibble n } := by
  simp only [exec, execUpRead, h]

theorem exec_upRead_of_end {s t : State} (h : upRead s = some (none, t)) :
    exec .upRead s = .next { t with ret := .endOfBuffer } := by
  simp only [exec, execUpRead, h]

/-- Settles O27: the four outcomes of UP_READ, which exclude each other, and the halves of a byte as numbers. -/
theorem upReadReturnsTheNextNibble : Obligations.UpReadReturnsTheNextNibble := by
  intro s
  have hhalves (b : Byte) := And.intro (hiNibble_toNat b) (loNibble_toNat b)
  rcases upRead_cases s with ⟨hpend, h⟩ | ⟨hpend, hmore, hnone, h⟩ | ⟨hpend, hmore, b, hb, h⟩ | ⟨hpend, hend, h⟩
  · simp [hpend, exec_upRead_of_nibble h, hhalves]
  · simp [hpend, hmore, hnone, exec_upRead_of_disabled h, hhalves]
  · simp [hpend, hmore, hb, exec_upRead_of_nibble h, hhalves]
  · simp [hpend, hend, exec_upRead_of_end h, hhalves]

/-! ## UP_DISCARD and UP_CLEAR -/

theorem exec_upDiscard_of_disabled {s : State} (h : upDiscard s = none) : exec .upDiscard s = .next s := by
  simp only [exec, execUpDiscard, h]

theorem exec_upDiscard_of_enabled {s t : State} (h : upDiscard s = some t) : exec .upDiscard s = .next t := by
  simp only [exec, execUpDiscard, h]

theorem exec_upClear (s : State) : exec .upClear s = .next { s with dec := upClear s.dec } := rfl

/-- An accepted DEC_START leaves the cursor at the start of the buffer (R153, R302). -/
theorem upClear_decJobStart (count : Count) (len : Length) :
    upClear (decJobStart count len) = decJobStart count len := rfl

theorem exec_decStart_of_not_busy {s : State} (h : decBusy s.dec.state = false) (count : Count) (len : Length) :
    exec (.decStart count len) s =
      .next { s with
        dec := decJobStart count len
        cmdErr := .ok
        host := { s.host with decSent := [], decGot := [] } } := by
  simp [exec, execDecStart, h]

/-- UP_CLEAR has nothing left to clear after an accepted DEC_START (R153). -/
theorem exec_upClear_after_decStart {s t : State} {count : Count} {len : Length} (h : decBusy s.dec.state = false)
    (ht : exec (.decStart count len) s = .next t) : exec .upClear t = .next t := by
  rw [exec_decStart_of_not_busy h] at ht
  obtain rfl := Host.Outcome.next.inj ht
  rw [exec_upClear, upClear_decJobStart]

/-- Settles O28: UP_DISCARD by its two cases, and an accepted DEC_START as one in a state that is not busy. -/
theorem upDiscardDropsAndUpClearClears : Obligations.UpDiscardDropsAndUpClearClears := by
  intro s
  have hstart (count : Count) (len : Length) (t : State)
      (hs : s.dec.state = .idle ∨ s.dec.state = .done ∨ s.dec.state = .error) :
      exec (.decStart count len) s = .next t → exec .upClear t = .next t :=
    exec_upClear_after_decStart (by rcases hs with hs | hs | hs <;> rw [hs] <;> rfl)
  rcases upDiscard_cases s with ⟨hoff, h⟩ | ⟨hs, hmore, b, hb, h⟩
  · refine ⟨fun hs hmore b hb => ?_, fun _ => exec_upDiscard_of_disabled h, exec_upClear s, hstart⟩
    simp [hs, hmore, hb] at hoff
  · refine ⟨fun _ _ b' hb' => ?_, fun hoff => ?_, exec_upClear s, hstart⟩
    · obtain rfl := Option.some.inj (hb.symm.trans hb')
      exact exec_upDiscard_of_enabled h
    · simp [hs, hmore, hb] at hoff

end Sys2Proof.Machine
end

section
/-! The nibble decoder (R170 to R173). The function reads through continuation nibbles and stops at a terminal one; the
unit's accumulator with its sticky bit keeps `accHolds`, digit by digit, which is all of R173. -/

namespace Sys2Proof.Machine

open Sys2Proof

/-! ## The fields of a nibble, as numbers -/

theorem payload_toNat (n : Nibble) : (payload n).toNat = n.toNat % 8 := by simp [payload]

theorem contBit_eq_decide (n : Nibble) : contBit n = decide (8 ≤ n.toNat) := by revert n; decide

theorem vldDone_eq_decide (n : Nibble) : vldDone n = decide (n.toNat < 8) := by
  rw [vldDone, contBit_eq_decide, ← decide_not, decide_eq_decide]
  exact not_le

/-! ## The function -/

/-- VLD's loop stops at the first terminal nibble, with that nibble's digit taken in (R170). -/
theorem vldFrom_terminal {g : List Nibble} {n : Nibble} (t : List Nibble) (acc p : Nat)
    (hg : ∀ m ∈ g, contBit m = true) (hn : contBit n = false) :
    vldFrom (g ++ n :: t) acc p =
      .ok ((g ++ [n]).foldl (fun acc m => acc * 8 + (payload m).toNat) acc, p + g.length + 1) := by
  rw [vldFrom_continue g _ acc p hg, List.foldl_append]
  simp [vldFrom, hn]

/-- Without a terminal nibble the list ends first (R170). -/
theorem vldFrom_truncated {l : List Nibble} (acc p : Nat) (hl : ∀ m ∈ l, contBit m = true) :
    vldFrom l acc p = .error .truncated := by
  rw [← List.append_nil l, vldFrom_continue l [] acc p hl]
  rfl

theorem exec_vld (l : List Nibble) (p : Nat) (s : State) :
    exec (.vld l p) s = .next { s with ret := vldRet (vldFrom (l.drop p) 0 p) } := rfl

/-- Settles O18: the two ends of VLD's loop, from position p. -/
theorem vldReadsOneGroup : Obligations.VldReadsOneGroup := by
  intro l p s _
  refine ⟨fun g n t hsplit hg hn => ?_, fun hall => ?_⟩
  · rw [exec_vld, hsplit, vldFrom_terminal t 0 p hg hn]
    rfl
  · rw [exec_vld, vldFrom_truncated 0 p hall]
    rfl

/-! ## The unit -/

/-- A_ACC after VLD_STEP is the shifted accumulator plus the digit, kept to 32 bits (R171). -/
theorem vldStep_acc_eq_ofNat (n : Nibble) (d : Dec) :
    (vldStep n d).acc = BitVec.ofNat 32 (d.acc.toNat * 8 + n.toNat % 8) := by
  apply BitVec.eq_of_toNat_eq
  rw [vldStep_acc_toNat, payload_toNat, BitVec.toNat_ofNat]
  omega

/-- The whole of VLD_STEP's effect on DEC's registers, in arithmetic (R171). -/
theorem vldStep_eq (n : Nibble) (d : Dec) :
    vldStep n d =
      { d with
        ovf := d.ovf || decide (2 ^ 29 ≤ d.acc.toNat)
        acc := BitVec.ofNat 32 (d.acc.toNat * 8 + n.toNat % 8)
        nibbles := d.nibbles + 1 } := by
  rw [← vldStep_ovf_iff n d, ← vldStep_acc_eq_ofNat]
  rfl

theorem exec_vldStart (s : State) : exec .vldStart s = .next { s with dec := vldStart s.dec } := rfl

theorem exec_vldStep (n : Nibble) (s : State) :
    exec (.vldStep n) s = .next { s with dec := vldStep n s.dec, ret := .groupDone (vldDone n) } := rfl

/-- Settles O29: VLD_START by its definition, VLD_STEP with its fields as numbers. -/
theorem vldStartAndStepAccumulate : Obligations.VldStartAndStepAccumulate := by
  intro n s
  refine ⟨exec_vldStart s, ?_⟩
  rw [exec_vldStep, vldStep_eq, vldDone_eq_decide]

/-! ## What the accumulator holds -/

/-- After VLD_START the accumulator holds the empty group's value. -/
theorem accHolds_vldStart (d : Dec) : accHolds (vldStart d) 0 := rfl

/-- One digit keeps what the accumulator holds: a clear A_OVF becomes set exactly when the top octal digit of A_ACC is
not 0, and a value of 2^32 or more stays one (R173). -/
theorem accHolds_vldStep {d : Dec} {v : Nat} (n : Nibble) (h : accHolds d v) :
    accHolds (vldStep n d) (v * 8 + (payload n).toNat) := by
  unfold accHolds at h ⊢
  rw [vldStep_ovf_iff, vldStep_acc_toNat]
  cases hovf : d.ovf with
  | true =>
    have hbig : 2 ^ 32 ≤ v := by simpa [hovf] using h
    rw [Bool.true_or, if_pos rfl]
    omega
  | false =>
    have hacc : d.acc.toNat = v := by simpa [hovf] using h
    rw [Bool.false_or, hacc]
    by_cases htop : 2 ^ 29 ≤ v
    · rw [if_pos (decide_eq_true htop)]
      omega
    · rw [if_neg (by simpa using htop), Nat.mod_eq_of_lt (not_le.mp htop)]

theorem accHolds_foldl_vldStep (nibs : List Nibble) : ∀ {d : Dec} {v : Nat}, accHolds d v →
    accHolds (nibs.foldl (fun d n => vldStep n d) d) (nibs.foldl (fun acc n => acc * 8 + (payload n).toNat) v) := by
  induction nibs with
  | nil => exact fun h => h
  | cons n t ih => exact fun h => ih (accHolds_vldStep n h)

/-- What `accHolds` says of the two registers: A_ACC is below 2^32, so A_OVF tells which side of 2^32 the value is. -/
theorem accHolds_iff {d : Dec} {v : Nat} :
    accHolds d v ↔ (d.ovf = true ↔ 2 ^ 32 ≤ v) ∧ (d.ovf = false → d.acc.toNat = v) := by
  have hacc := d.acc.isLt
  unfold accHolds
  cases d.ovf with
  | true => simp
  | false =>
    simp only [Bool.false_eq_true, if_false, false_iff, not_le, forall_const]
    omega

/-- Settles O55: the accumulator's invariant along the nibbles; a big value is above every 32-bit count. -/
theorem accumulatorLosesNothing : Obligations.AccumulatorLosesNothing := by
  intro nibs d v after
  have hafter : accHolds after v := accHolds_foldl_vldStep nibs (accHolds_vldStart d)
  obtain ⟨hovf, hacc⟩ := accHolds_iff.mp hafter
  exact ⟨hovf, hacc, fun hbig count prev => ⟨count.isLt.trans_le hbig, recon_of_big prev hbig⟩⟩

end Sys2Proof.Machine
end

section
/-! The zigzag sign mapper (R190 to R197) and the predictor's inverse (R216). The maps are linear facts about parity and
sign, said in `zz_even_odd` and `unzz_even_odd`; a bit form is a shift, complemented when the sign bit (R191) or the low
bit (R196) is set. -/

namespace Sys2Proof.Machine

open Sys2Proof

/-! ## The maps -/

theorem exec_zz (d : Int) (s : State) : exec (.zz d) s = .next { s with ret := .code (zz d) } := rfl

theorem exec_unzz (c : Nat) (s : State) : exec (.unzz c) s = .next { s with ret := .int (unzz c) } := rfl

theorem zz_formula (d : Int) : (zz d : Int) = if 0 ≤ d then 2 * d else -2 * d - 1 := by
  rcases zz_even_odd d with ⟨hsign, hzz⟩ | ⟨hsign, hzz⟩
  · rw [if_pos hsign, hzz]
  · rw [if_neg (not_le.mpr hsign), hzz]

theorem unzz_formula (c : Nat) : unzz c = if c % 2 = 0 then (c : Int) / 2 else -(((c : Int) + 1) / 2) := by
  rcases unzz_even_odd c with ⟨hpar, hun⟩ | ⟨hpar, hun⟩
  · rw [if_pos hpar]
    omega
  · rw [if_neg (by omega)]
    omega

/-- Settles O19: the two formulas of R190 and R195. -/
theorem zigzagMapsAreTheFormulas : Obligations.ZigzagMapsAreTheFormulas :=
  ⟨fun d s => ⟨zz d, exec_zz d s, zz_formula d⟩, fun c s => by rw [exec_unzz, unzz_formula]⟩

/-! ## The inverse laws -/

/-- A code's parity is its delta's sign (R193), so UNZZ takes the branch that ZZ took. -/
@[simp] theorem unzz_zz (d : Int) : unzz (zz d) = d := by
  have hun := unzz_even_odd (zz d)
  rcases zz_even_odd d with ⟨_, hzz⟩ | ⟨_, hzz⟩ <;> omega

@[simp] theorem zz_unzz (c : Nat) : zz (unzz c) = c := by
  have hzz := zz_even_odd (unzz c)
  rcases unzz_even_odd c with ⟨_, hun⟩ | ⟨_, hun⟩ <;> omega

/-- Adding the delta back to the predictor gives the pixel, which is in range (R216). -/
@[simp] theorem recon_delta (p prev : Pixel) : recon prev (delta p prev) = .ok p := by
  have hsum : (prev.toNat : Int) + delta p prev = p.toNat := by
    unfold delta
    omega
  unfold recon
  rw [hsum, if_neg (by omega), BitVec.ofInt_natCast, BitVec.ofNat_toNat, BitVec.setWidth_eq]

/-! ## The bit forms -/

/-- R191's concatenation is a shift, its mask all ones when the delta is negative. -/
theorem zzBits_eq_xor (d : BitVec 17) :
    zzBits d = d <<< 1 ^^^ (if d.toInt < 0 then BitVec.allOnes 17 else 0#17) := by
  have hsign : d.getLsbD 16 = decide (d.toInt < 0) := by rw [← BitVec.msb_eq_toInt, BitVec.msb_eq_getLsbD_last]
  unfold zzBits
  simp only [hsign, decide_eq_true_eq, BitVec.shiftLeft_eq_concat_of_lt (by decide : 1 < 17)]
  rfl

theorem zzBits_of_nonneg {d : BitVec 17} (h : 0 ≤ d.toInt) : zzBits d = d <<< 1 := by
  rw [zzBits_eq_xor, if_neg (not_lt.mpr h), BitVec.xor_zero]

theorem zzBits_of_neg {d : BitVec 17} (h : d.toInt < 0) : zzBits d = ~~~(d <<< 1) := by
  rw [zzBits_eq_xor, if_pos h, BitVec.xor_allOnes]

/-- The 17-bit form of R191 gives ZZ of the signed value. -/
theorem zzBits_toNat (d : BitVec 17) : (zzBits d).toNat = zz d.toInt := by
  have hint := d.toInt_eq_toNat_cond
  rcases zz_even_odd d.toInt with ⟨hsign, hzz⟩ | ⟨hsign, hzz⟩
  · rw [zzBits_of_nonneg hsign, BitVec.toNat_shiftLeft]
    omega
  · rw [zzBits_of_neg hsign, BitVec.toNat_not, BitVec.toNat_shiftLeft]
    omega

/-- R196's mask is all ones when the code is odd. -/
theorem unzzBits_eq_xor (c : BitVec 32) :
    unzzBits c = c >>> 1 ^^^ (if c.toNat % 2 = 1 then BitVec.allOnes 32 else 0#32) := by
  unfold unzzBits
  rw [← BitVec.testBit_toNat, Nat.testBit_zero]
  simp only [decide_eq_true_eq]
  rfl

theorem unzzBits_of_even {c : BitVec 32} (h : c.toNat % 2 = 0) : unzzBits c = c >>> 1 := by
  rw [unzzBits_eq_xor, if_neg (by omega), BitVec.xor_zero]

theorem unzzBits_of_odd {c : BitVec 32} (h : c.toNat % 2 = 1) : unzzBits c = ~~~(c >>> 1) := by
  rw [unzzBits_eq_xor, if_pos h, BitVec.xor_allOnes]

/-- The 32-bit form of R196, read as a signed value, gives UNZZ. -/
theorem unzzBits_toInt (c : BitVec 32) : (unzzBits c).toInt = unzz c.toNat := by
  rcases unzz_even_odd c.toNat with ⟨hpar, hun⟩ | ⟨hpar, hun⟩
  · rw [unzzBits_of_even hpar, BitVec.toInt_ushiftRight_of_lt Nat.one_pos]
    omega
  · rw [unzzBits_of_odd hpar, BitVec.toInt_eq_toNat_cond, BitVec.toNat_not, BitVec.toNat_ushiftRight]
    omega

/-- Settles O57: the inverse laws, and each bit form read at a value its width holds. -/
theorem zigzagAndPredictorInvert : Obligations.ZigzagAndPredictorInvert := by
  refine ⟨unzz_zz, zz_unzz, fun p prev _ => ?_, fun d hlo hhi => ?_, fun c hc => ?_⟩
  · rw [unzz_zz, recon_delta]
  · rw [zzBits_toNat, BitVec.toInt_ofInt_eq_self (by decide) hlo (by omega)]
  · rw [unzzBits_toInt, BitVec.toNat_ofNat, Nat.mod_eq_of_lt hc]

end Sys2Proof.Machine
end

section
/-! The predictor arithmetic (R211 to R213). RECON is its range check, said in `recon_of_out_of_range` and
`recon_of_in_range`. -/

namespace Sys2Proof.Machine

open Sys2Proof

/-! ## The instructions' returned values -/

theorem exec_isZero (p : Pixel) (s : State) : exec (.isZero p) s = .next { s with ret := .truth (isZero p) } := rfl

theorem exec_delta (p prev : Pixel) (s : State) :
    exec (.delta p prev) s = .next { s with ret := .int (delta p prev) } := rfl

theorem exec_recon (prev : Pixel) (d : Int) (s : State) :
    exec (.recon prev d) s = .next { s with ret := reconRet (recon prev d) } := rfl

/-! ## The functions -/

theorem pixel_eq_zero_iff (p : Pixel) : p = 0 ↔ p.toNat = 0 := BitVec.toNat_eq

theorem isZero_eq_decide (p : Pixel) : isZero p = decide (p.toNat = 0) := by
  rw [Bool.eq_iff_iff, decide_eq_true_iff, isZero, beq_iff_eq, pixel_eq_zero_iff]

/-- A nonzero pixel is at least 1, a predictor at most 65535: a delta's range (R212). -/
theorem delta_range {p : Pixel} (prev : Pixel) (h : p ≠ 0) : -65534 ≤ delta p prev ∧ delta p prev ≤ 65535 := by
  have hne : p.toNat ≠ 0 := mt (pixel_eq_zero_iff p).mpr h
  have hp := p.isLt
  have hprev := prev.isLt
  unfold delta
  omega

theorem recon_of_out_of_range {prev : Pixel} {d : Int}
    (h : (prev.toNat : Int) + d < 0 ∨ 65535 < (prev.toNat : Int) + d) :
    recon prev d = .error .outOfRange := if_pos h

/-- A sum in range is the pixel's value: its 16 bits lose nothing (R213). -/
theorem recon_of_in_range {prev : Pixel} {d : Int} (hlo : 0 ≤ (prev.toNat : Int) + d)
    (hhi : (prev.toNat : Int) + d ≤ 65535) :
    ∃ v : Pixel, recon prev d = .ok v ∧ (v.toNat : Int) = (prev.toNat : Int) + d := by
  refine ⟨BitVec.ofInt 16 (prev.toNat + d), if_neg (by omega), ?_⟩
  rw [BitVec.toNat_ofInt]
  omega

/-- Settles O20: each function's value, and RECON by its range check. -/
theorem predictorArithmeticIsExact : Obligations.PredictorArithmeticIsExact := by
  refine ⟨fun p s => ?_, fun p prev s => ⟨exec_delta p prev s, delta_range prev⟩,
    fun prev d s => ⟨fun hout => ?_, fun hlo hhi => ?_⟩⟩
  · rw [exec_isZero, isZero_eq_decide]
  · rw [exec_recon, recon_of_out_of_range hout]
    rfl
  · obtain ⟨v, hok, hsum⟩ := recon_of_in_range hlo hhi
    refine ⟨v, ?_, hsum⟩
    rw [exec_recon, hok]
    rfl

end Sys2Proof.Machine
end

section
/-! The encoder's invariant (R249). Each change that a step can make to ENC keeps `EncInv`, and `EncInv` puts the
nibbles written so far at the front of the encoding's, whatever pixels complete the job; a byte is two of them. -/

namespace Sys2Proof.Machine

open Sys2Proof

/-! ## The loop after some pixels and before the others -/

/-- The whole of an encoding, by the walk: its finished groups, and the tail group if zeros are left (R232). -/
theorem encodeNibs_eq_nibs_append_walkEnd (pixels : List Pixel) :
    encodeNibs 0 0 pixels = (encWalk pixels).nibs ++ walkEnd (encWalk pixels) :=
  encodeNibs_eq_walk pixels { nibs := [], prev := 0, run := 0 }

/-- The finished groups stand at the front of the encoding; the rest of it comes from where the loop stands (R230). -/
theorem encWalk_nibs_append_rest (done rest : List Pixel) :
    (encWalk done).nibs ++ encodeNibs (encWalk done).prev (encWalk done).run rest = encodeNibs 0 0 (done ++ rest) := by
  have hwalk : encWalk (done ++ rest) = rest.foldl encWalkStep (encWalk done) := List.foldl_append
  rw [encodeNibs_eq_nibs_append_walkEnd, hwalk]
  exact encodeNibs_eq_walk rest (encWalk done)

theorem encWalk_run_le_length (pixels : List Pixel) : (encWalk pixels).run ≤ pixels.length := by
  induction pixels using List.reverseRecOn with
  | nil => exact Nat.le_refl 0
  | append_singleton before p ih =>
    rw [encWalk_append, encWalkStep, List.length_append]
    split
    · exact Nat.succ_le_succ ih
    · exact Nat.zero_le _

theorem encWalkStep_of_zero {w : EncWalk} {p : Pixel} (h : isZero p = true) :
    encWalkStep w p = { w with run := w.run + 1 } := if_pos h

theorem encWalkStep_of_nonzero {w : EncWalk} {p : Pixel} (h : isZero p = false) :
    encWalkStep w p = { nibs := w.nibs ++ vle w.run ++ vle (zz (delta p w.prev)), prev := p, run := 0 } := by
  simp [encWalkStep, h]

/-! ## What the VLE unit has written of its group -/

@[simp] theorem afterEmit_vSrc (e : Enc) : (afterEmit e).vSrc = e.vSrc := by unfold afterEmit; split <;> rfl

section
variable {e : Enc} {v : Nat}

theorem vleAt.vJ_add_one (h : vleAt e v) : (e.vJ + 1).toNat = e.vJ.toNat + 1 := by
  obtain ⟨-, hK, hJ⟩ := h
  exact toNat_add_one_of_lt (BitVec.lt_def.mpr (hJ.trans_eq hK.symm))

theorem vleAt.take_succ (h : vleAt e v) :
    (vle v).take (e.vJ.toNat + 1) = (vle v).take e.vJ.toNat ++ [vleNibble e] := by
  have hJ : e.vJ.toNat < (vle v).length := h.2.2.trans_eq (vle_length v).symm
  rw [vleNibble_eq h, List.take_append_getElem hJ]

theorem vleAt.drop_eq_cons (h : vleAt e v) :
    (vle v).drop e.vJ.toNat = vleNibble e :: (vle v).drop (e.vJ.toNat + 1) := by
  have hJ : e.vJ.toNat < (vle v).length := h.2.2.trans_eq (vle_length v).symm
  rw [vleNibble_eq h, List.drop_eq_getElem_cons hJ]

/-- Before its last nibble the group goes on. -/
theorem vleAt.afterEmit (h : vleAt e v) (hl : vleLast e = false) : vleAt (afterEmit e) v := by
  have hlast := vleLast_iff h
  have hnext := h.vJ_add_one
  obtain ⟨hsrc, hK, hJ⟩ := h
  refine ⟨by rw [afterEmit_vSrc, hsrc], by rw [afterEmit_vK, hK], ?_⟩
  rw [afterEmit_vJ, hnext]
  have hne : e.vJ.toNat + 1 ≠ octLen v := fun h' => by simp [hlast.mpr h'] at hl
  omega

/-- With its last nibble the group is out. -/
theorem vleAt.take_last (h : vleAt e v) (hl : vleLast e = true) :
    (vle v).take e.vJ.toNat ++ [vleNibble e] = vle v := by
  rw [← h.take_succ, (vleLast_iff h).mp hl, ← vle_length v, List.take_length]

theorem vleAt.drop_last (h : vleAt e v) (hl : vleLast e = true) : (vle v).drop e.vJ.toNat = [vleNibble e] := by
  rw [h.drop_eq_cons, (vleLast_iff h).mp hl, ← vle_length v, List.drop_length]

end

/-! ## The invariant, state by state -/

/-- The part of `EncInv` that every state has: the counters count the records (R28). -/
def EncCounted (s : State) : Prop :=
  s.enc.index.toNat = s.host.encSent.length ∧ s.enc.bytes.toNat = s.host.encGot.length ∧
    s.host.encSent.length ≤ s.enc.count.toNat

section
variable {s : State}

theorem EncInv.counted (h : EncInv s) : EncCounted s := by
  obtain ⟨hindex, hbytes, hcount, -⟩ := h
  exact ⟨hindex, hbytes, hcount⟩

theorem encInv_idle (hs : s.enc.state = .idle) :
    EncInv s ↔ EncCounted s ∧
      s.host.encSent = [] ∧ s.host.encGot = [] ∧ s.enc.obValid = false ∧ s.enc.pPend = false := by
  simp only [EncInv, EncCounted, hs, and_assoc]

theorem encInv_accept (hs : s.enc.state = .accept) :
    EncInv s ↔ EncCounted s ∧
      encWritten s = (encWalk s.host.encSent).nibs ∧ s.enc.prev = (encWalk s.host.encSent).prev ∧
        s.enc.run.toNat = (encWalk s.host.encSent).run := by
  simp only [EncInv, EncCounted, hs, and_assoc]

theorem encInv_emitRun (hs : s.enc.state = .emitRun) :
    EncInv s ↔ EncCounted s ∧
      ∃ before, s.host.encSent = before ++ [s.enc.pix] ∧ isZero s.enc.pix = false ∧
        vleAt s.enc (encWalk before).run ∧ s.enc.prev = (encWalk before).prev ∧
        encWritten s = (encWalk before).nibs ++ (vle (encWalk before).run).take s.enc.vJ.toNat := by
  simp only [EncInv, EncCounted, hs, and_assoc]

theorem encInv_emitCode (hs : s.enc.state = .emitCode) :
    EncInv s ↔ EncCounted s ∧
      s.enc.prev = (encWalk s.host.encSent).prev ∧ s.enc.run = 0 ∧ (encWalk s.host.encSent).run = 0 ∧
        vleAt s.enc s.enc.vSrc.toNat ∧
        encWritten s ++ (vle s.enc.vSrc.toNat).drop s.enc.vJ.toNat = (encWalk s.host.encSent).nibs := by
  simp only [EncInv, EncCounted, hs, and_assoc]

theorem encInv_emitTail (hs : s.enc.state = .emitTail) :
    EncInv s ↔ EncCounted s ∧
      s.enc.index = s.enc.count ∧ 0 < (encWalk s.host.encSent).run ∧ vleAt s.enc (encWalk s.host.encSent).run ∧
        encWritten s = (encWalk s.host.encSent).nibs ++ (vle (encWalk s.host.encSent).run).take s.enc.vJ.toNat := by
  simp only [EncInv, EncCounted, hs, and_assoc]

theorem encInv_flush (hs : s.enc.state = .flush) :
    EncInv s ↔ EncCounted s ∧ s.enc.index = s.enc.count ∧ encBytes s = rvlEncode s.host.encSent := by
  simp only [EncInv, EncCounted, hs, and_assoc]

theorem encInv_done (hs : s.enc.state = .done) :
    EncInv s ↔ EncCounted s ∧
      s.enc.index = s.enc.count ∧ s.host.encGot = rvlEncode s.host.encSent ∧ s.enc.obValid = false ∧
        s.enc.pPend = false := by
  simp only [EncInv, EncCounted, hs, and_assoc]

end

/-! ## What is written is the front of the encoding -/

/-- The bytes of the job that are whole: those the host took, and OB. -/
def encWholeBytes (s : State) : List Byte := s.host.encGot ++ (if s.enc.obValid then [s.enc.ob] else [])

section
variable {s : State}

theorem encWritten_eq (s : State) :
    encWritten s = unpack (encWholeBytes s) ++ (if s.enc.pPend then [s.enc.pHi] else []) := by
  unfold encWritten encWholeBytes
  cases s.enc.obValid <;> simp [unpack]

theorem encBytes_eq (s : State) :
    encBytes s = encWholeBytes s ++ (if s.enc.pPend then [byteOf s.enc.pHi 0] else []) := rfl

/-- With every pixel taken there is none to come. -/
theorem EncCounted.rest_eq_nil (h : EncCounted s) (hend : s.enc.index = s.enc.count) {rest : List Pixel}
    (hrest : s.host.encSent.length + rest.length = s.enc.count.toNat) : rest = [] := by
  obtain ⟨hindex, -, -⟩ := h
  rw [hend] at hindex
  exact List.length_eq_zero_iff.mp (by omega)

/-- While ENC takes pixels and codes them, it has written none but finished groups and the group of one more pixel. -/
theorem EncInv.encWritten_prefix (h : EncInv s)
    (hs : s.enc.state = .accept ∨ s.enc.state = .emitRun ∨ s.enc.state = .emitCode) :
    encWritten s <+: (encWalk s.host.encSent).nibs := by
  rcases hs with hs | hs | hs
  · obtain ⟨-, hwritten, -⟩ := (encInv_accept hs).mp h
    rw [hwritten]
  · obtain ⟨-, before, hsent, hpix, -, -, hwritten⟩ := (encInv_emitRun hs).mp h
    rw [hwritten, hsent, encWalk_append, encWalkStep_of_nonzero hpix, List.append_assoc]
    exact (List.prefix_append_right_inj _).mpr ((List.take_prefix _ _).trans (List.prefix_append _ _))
  · obtain ⟨-, -, -, -, -, hwritten⟩ := (encInv_emitCode hs).mp h
    rw [← hwritten]
    exact List.prefix_append _ _

/-- A byte that is whole stays: what follows cannot change it (R134). -/
theorem encWholeBytes_prefix_pack {nibs : List Nibble} (h : encWritten s <+: nibs) : encWholeBytes s <+: pack nibs := by
  obtain ⟨tail, rfl⟩ := h
  rw [encWritten_eq, List.append_assoc, pack_unpack_append]
  exact List.prefix_append _ _

/-- The whole bytes of the job are the first of the encoding's, whatever pixels complete the job. -/
theorem EncInv.encWholeBytes_prefix (h : EncInv s) {rest : List Pixel}
    (hrest : s.host.encSent.length + rest.length = s.enc.count.toNat) :
    encWholeBytes s <+: rvlEncode (s.host.encSent ++ rest) := by
  have hfront (hs : s.enc.state = .accept ∨ s.enc.state = .emitRun ∨ s.enc.state = .emitCode) :
      encWholeBytes s <+: rvlEncode (s.host.encSent ++ rest) := by
    refine encWholeBytes_prefix_pack ((h.encWritten_prefix hs).trans ?_)
    rw [← encWalk_nibs_append_rest]
    exact List.prefix_append _ _
  have hend (hn : s.enc.index = s.enc.count) : s.host.encSent ++ rest = s.host.encSent := by
    rw [h.counted.rest_eq_nil hn hrest, List.append_nil]
  cases hs : s.enc.state with
  | idle =>
    obtain ⟨-, -, hgot, hob, -⟩ := (encInv_idle hs).mp h
    simp [encWholeBytes, hgot, hob]
  | accept => exact hfront (.inl hs)
  | emitRun => exact hfront (.inr (.inl hs))
  | emitCode => exact hfront (.inr (.inr hs))
  | emitTail =>
    obtain ⟨-, hn, hrun, -, hwritten⟩ := (encInv_emitTail hs).mp h
    rw [hend hn]
    refine encWholeBytes_prefix_pack ?_
    rw [hwritten, encodeNibs_eq_nibs_append_walkEnd, walkEnd, if_pos hrun]
    exact (List.prefix_append_right_inj _).mpr (List.take_prefix _ _)
  | flush =>
    obtain ⟨-, hn, hbytes⟩ := (encInv_flush hs).mp h
    rw [hend hn, ← hbytes, encBytes_eq]
    exact List.prefix_append _ _
  | done =>
    obtain ⟨-, hn, hgot, hob, -⟩ := (encInv_done hs).mp h
    simp [encWholeBytes, hend hn, hgot, hob]

/-- E_BYTES has room for the byte in OB: the encoding, whose front the whole bytes are, has fewer than 2^34 (R8). -/
theorem EncInv.bytes_add_one (h : EncInv s) (hv : s.enc.obValid = true) :
    (s.enc.bytes + 1).toNat = s.host.encGot.length + 1 := by
  obtain ⟨-, hbytes, hcount⟩ := h.counted
  obtain ⟨rest, hrest⟩ : ∃ rest : List Pixel, s.host.encSent.length + rest.length = s.enc.count.toNat :=
    ⟨List.replicate (s.enc.count.toNat - s.host.encSent.length) 0, by rw [List.length_replicate]; omega⟩
  have hfront := (h.encWholeBytes_prefix hrest).length_le
  have hsize := rvlEncode_length_le (s.host.encSent ++ rest)
  rw [List.length_append, hrest] at hsize
  simp only [encWholeBytes, hv, if_true, List.length_append, List.length_singleton] at hfront
  have hlt := s.enc.count.isLt
  rw [toNat_add_one, hbytes, Nat.mod_eq_of_lt (by omega)]

end

/-! ## Each change keeps the invariant -/

section
variable {s : State}

theorem EncCounted.pixelTaken (h : EncCounted s) (hlt : s.enc.index < s.enc.count) (p : Pixel) :
    EncCounted { s with
      enc := { s.enc with index := s.enc.index + 1 }
      host := { s.host with encOffer := none, encSent := s.host.encSent ++ [p] } } := by
  obtain ⟨hindex, hbytes, -⟩ := h
  have hlt' := BitVec.lt_def.mp hlt
  refine ⟨?_, hbytes, ?_⟩
  · rw [toNat_add_one_of_lt hlt, hindex, List.length_append, List.length_singleton]
  · rw [List.length_append, List.length_singleton, ← hindex]
    exact hlt'

theorem EncCounted.afterEmit (h : EncCounted s) : EncCounted { s with enc := afterEmit s.enc } := by
  simpa only [EncCounted, afterEmit_index, afterEmit_bytes, afterEmit_count] using h

/-- A zero goes into the run (R240). -/
theorem EncInv.zeroPixel (h : EncInv s) (hs : s.enc.state = .accept) (hlt : s.enc.index < s.enc.count) {p : Pixel}
    (hp : isZero p = true) :
    EncInv { s with
      enc := { s.enc with index := s.enc.index + 1, run := s.enc.run + 1 }
      host := { s.host with encOffer := none, encSent := s.host.encSent ++ [p] } } := by
  obtain ⟨hcounted, hwritten, hprev, hrun⟩ := (encInv_accept hs).mp h
  rw [encInv_accept (by exact hs), encWalk_append, encWalkStep_of_zero hp]
  have hroom : s.enc.run < s.enc.count := by
    have hwalk := encWalk_run_le_length s.host.encSent
    obtain ⟨hindex, -, -⟩ := hcounted
    bv_omega
  exact ⟨hcounted.pixelTaken hlt p, hwritten, hprev, by rw [toNat_add_one_of_lt hroom, hrun]⟩

/-- A nonzero pixel waits while the group of the run before it is written (R240). -/
theorem EncInv.codedPixel (h : EncInv s) (hs : s.enc.state = .accept) (hlt : s.enc.index < s.enc.count) {p : Pixel}
    (hp : isZero p = false) :
    EncInv { s with
      enc := { vleLoad s.enc.run { s.enc with index := s.enc.index + 1, pix := p } with state := .emitRun }
      host := { s.host with encOffer := none, encSent := s.host.encSent ++ [p] } } := by
  obtain ⟨hcounted, hwritten, hprev, hrun⟩ := (encInv_accept hs).mp h
  rw [encInv_emitRun rfl]
  refine ⟨hcounted.pixelTaken hlt p, s.host.encSent, rfl, hp, ?_, hprev, ?_⟩
  · rw [← hrun]
    exact vleAt_vleLoad (e := s.enc)
  · exact hwritten.trans (List.append_nil _).symm

/-- With no zeros left the finished groups are the encoding (R241). -/
theorem EncInv.noTail (h : EncInv s) (hs : s.enc.state = .accept) (hn : s.enc.index = s.enc.count)
    (hr : s.enc.run = 0) : EncInv { s with enc := { s.enc with state := .flush } } := by
  obtain ⟨hcounted, hwritten, -, hrun⟩ := (encInv_accept hs).mp h
  rw [encInv_flush rfl]
  refine ⟨hcounted, hn, ?_⟩
  have hzero : (encWalk s.host.encSent).run = 0 := by rw [← hrun, hr]; rfl
  calc encBytes s = pack (encWritten s) := encBytes_eq_pack s
    _ = rvlEncode s.host.encSent := by
      rw [hwritten, rvlEncode_eq_walk, walkEnd, hzero, if_neg (Nat.lt_irrefl 0), List.append_nil]

/-- Zeros left are a group of their own (R241). -/
theorem EncInv.tail (h : EncInv s) (hs : s.enc.state = .accept) (hn : s.enc.index = s.enc.count)
    (hr : s.enc.run ≠ 0) : EncInv { s with enc := { vleLoad s.enc.run s.enc with state := .emitTail } } := by
  obtain ⟨hcounted, hwritten, -, hrun⟩ := (encInv_accept hs).mp h
  rw [encInv_emitTail rfl]
  refine ⟨hcounted, hn, ?_, ?_, ?_⟩
  · rw [← hrun]
    bv_omega
  · rw [← hrun]
    exact vleAt_vleLoad (e := s.enc)
  · exact hwritten.trans (List.append_nil _).symm

/-- One nibble more of the group, and not the last. -/
theorem EncInv.emitted (h : EncInv s) (hemit : encEmitting s.enc.state) (hp : pkEnabled s.enc = true)
    (hl : vleLast s.enc = false) : EncInv { s with enc := afterEmit s.enc } := by
  have hout := afterEmit_written s hp
  rcases hemit with hs | hs | hs
  · obtain ⟨hcounted, before, hsent, hpix, hvle, hprev, hwritten⟩ := (encInv_emitRun hs).mp h
    rw [encInv_emitRun (by simpa using hs)]
    refine ⟨hcounted.afterEmit, before, ?_, ?_, hvle.afterEmit hl, ?_, ?_⟩
    · rw [afterEmit_pix, hsent]
    · rw [afterEmit_pix, hpix]
    · rw [afterEmit_prev, hprev]
    · rw [hout, hwritten, afterEmit_vJ, hvle.vJ_add_one, hvle.take_succ, List.append_assoc]
  · obtain ⟨hcounted, hprev, hrun, hwalk, hvle, hwritten⟩ := (encInv_emitCode hs).mp h
    rw [encInv_emitCode (by simpa using hs)]
    refine ⟨hcounted.afterEmit, ?_, ?_, hwalk, ?_, ?_⟩
    · rw [afterEmit_prev, hprev]
    · rw [afterEmit_run, hrun]
    · rw [afterEmit_vSrc]
      exact hvle.afterEmit hl
    · rw [hvle.drop_eq_cons] at hwritten
      rw [hout, afterEmit_vSrc, afterEmit_vJ, hvle.vJ_add_one, List.append_assoc, List.singleton_append, hwritten]
  · obtain ⟨hcounted, hn, hrun, hvle, hwritten⟩ := (encInv_emitTail hs).mp h
    rw [encInv_emitTail (by simpa using hs)]
    refine ⟨hcounted.afterEmit, ?_, hrun, hvle.afterEmit hl, ?_⟩
    · rw [afterEmit_index, afterEmit_count, hn]
    · rw [hout, hwritten, afterEmit_vJ, hvle.vJ_add_one, hvle.take_succ, List.append_assoc]

/-- V_SRC has the bits for an encoder's code (R192). -/
theorem ofNat_zz_delta_toNat (p prev : Pixel) : (BitVec.ofNat 32 (zz (delta p prev))).toNat = zz (delta p prev) := by
  have hcode := zz_delta_lt p prev
  rw [BitVec.toNat_ofNat, Nat.mod_eq_of_lt (by omega)]

theorem startCode_vSrc_toNat (e : Enc) : (startCode e).vSrc.toNat = zz (delta e.pix e.prev) :=
  ofNat_zz_delta_toNat e.pix e.prev

/-- The run's group is out: the code of the pixel that waits is next (R242). -/
theorem EncInv.runEmitted (h : EncInv s) (hs : s.enc.state = .emitRun) (hp : pkEnabled s.enc = true)
    (hl : vleLast s.enc = true) : EncInv { s with enc := startCode (afterEmit s.enc) } := by
  obtain ⟨hcounted, before, hsent, hpix, hvle, hprev, hwritten⟩ := (encInv_emitRun hs).mp h
  have hcode : (startCode (afterEmit s.enc)).vSrc.toNat = zz (delta s.enc.pix (encWalk before).prev) := by
    rw [startCode_vSrc_toNat, afterEmit_pix, afterEmit_prev, hprev]
  have hout : encWritten { s with enc := startCode (afterEmit s.enc) } =
      (encWalk before).nibs ++ vle (encWalk before).run := by
    refine (afterEmit_written s hp).trans ?_
    rw [hwritten, List.append_assoc, hvle.take_last hl]
  rw [encInv_emitCode (by rfl)]
  refine ⟨hcounted.afterEmit, ?_, rfl, ?_, vleAt_vleLoad (e := afterEmit s.enc), ?_⟩
  · rw [hsent, encWalk_append, encWalkStep_of_nonzero hpix]
    exact afterEmit_pix s.enc
  · rw [hsent, encWalk_append, encWalkStep_of_nonzero hpix]
  · rw [hout, hcode, hsent, encWalk_append, encWalkStep_of_nonzero hpix]
    rfl

/-- The code's group is out: ENC is level with the loop again (R243). -/
theorem EncInv.codeEmitted (h : EncInv s) (hs : s.enc.state = .emitCode) (hp : pkEnabled s.enc = true)
    (hl : vleLast s.enc = true) : EncInv { s with enc := { afterEmit s.enc with state := .accept } } := by
  obtain ⟨hcounted, hprev, hrun, hwalk, hvle, hwritten⟩ := (encInv_emitCode hs).mp h
  rw [encInv_accept rfl]
  refine ⟨hcounted.afterEmit, ?_, ?_, ?_⟩
  · rw [hvle.drop_last hl] at hwritten
    exact (afterEmit_written s hp).trans hwritten
  · exact (afterEmit_prev s.enc).trans hprev
  · change (afterEmit s.enc).run.toNat = _
    rw [afterEmit_run, hrun, hwalk]
    rfl

/-- The tail group is out, and with it the encoding (R244). -/
theorem EncInv.tailEmitted (h : EncInv s) (hs : s.enc.state = .emitTail) (hp : pkEnabled s.enc = true)
    (hl : vleLast s.enc = true) : EncInv { s with enc := { afterEmit s.enc with run := 0, state := .flush } } := by
  obtain ⟨hcounted, hn, hrun, hvle, hwritten⟩ := (encInv_emitTail hs).mp h
  rw [encInv_flush rfl]
  refine ⟨hcounted.afterEmit, ?_, ?_⟩
  · change (afterEmit s.enc).index = (afterEmit s.enc).count
    rw [afterEmit_index, afterEmit_count, hn]
  · calc encBytes { s with enc := afterEmit s.enc }
        = pack (encWritten s ++ [vleNibble s.enc]) := by rw [encBytes_eq_pack, afterEmit_written s hp]
      _ = rvlEncode s.host.encSent := by
        rw [hwritten, List.append_assoc, hvle.take_last hl, rvlEncode_eq_walk, walkEnd, if_pos hrun]

/-- The padded byte was counted with the job's bytes while its nibble was pending (R246). -/
theorem EncInv.padded (h : EncInv s) (hs : s.enc.state = .flush) (hpend : s.enc.pPend = true)
    (hv : s.enc.obValid = false) :
    EncInv { s with enc := { s.enc with ob := byteOf s.enc.pHi 0, obValid := true, pPend := false } } := by
  obtain ⟨hcounted, hn, hbytes⟩ := (encInv_flush hs).mp h
  rw [encInv_flush (by exact hs)]
  refine ⟨hcounted, hn, ?_⟩
  rw [← hbytes]
  simp [encBytes, hpend, hv]

/-- With nothing left in ENC the host has all (R246). -/
theorem EncInv.finished (h : EncInv s) (hs : s.enc.state = .flush) (hpend : s.enc.pPend = false)
    (hv : s.enc.obValid = false) : EncInv { s with enc := { s.enc with state := .done } } := by
  obtain ⟨hcounted, hn, hbytes⟩ := (encInv_flush hs).mp h
  rw [encInv_done rfl]
  refine ⟨hcounted, hn, ?_, hv, hpend⟩
  rw [← hbytes]
  simp [encBytes, hpend, hv]

end

/-- ENC after the host's take of the byte in OB (R310). -/
def byteTakenOf (s : State) : State :=
  { s with
    enc := { s.enc with obValid := false, bytes := s.enc.bytes + 1 }
    host := { s.host with encGot := s.host.encGot ++ [s.enc.ob] } }

theorem encWholeBytes_byteTakenOf {s : State} (hv : s.enc.obValid = true) :
    encWholeBytes (byteTakenOf s) = encWholeBytes s := by
  simp [encWholeBytes, byteTakenOf, hv]

theorem encWritten_byteTakenOf {s : State} (hv : s.enc.obValid = true) :
    encWritten (byteTakenOf s) = encWritten s := by
  rw [encWritten_eq, encWholeBytes_byteTakenOf hv, encWritten_eq]
  rfl

theorem encBytes_byteTakenOf {s : State} (hv : s.enc.obValid = true) : encBytes (byteTakenOf s) = encBytes s := by
  rw [encBytes_eq_pack, encWritten_byteTakenOf hv, encBytes_eq_pack]

/-- A take moves a byte from OB to the host and changes no record of what is written (R310). -/
theorem EncInv.byteTaken {s : State} (h : EncInv s) (hv : s.enc.obValid = true) : EncInv (byteTakenOf s) := by
  have hcounted : EncCounted (byteTakenOf s) := by
    obtain ⟨hindex, -, hcount⟩ := h.counted
    refine ⟨hindex, (h.bytes_add_one hv).trans ?_, hcount⟩
    simp [byteTakenOf]
  have hwritten := encWritten_byteTakenOf hv
  cases hs : s.enc.state with
  | idle =>
    obtain ⟨-, -, -, hob, -⟩ := (encInv_idle hs).mp h
    simp [hob] at hv
  | accept =>
    rw [encInv_accept (by exact hs), hwritten]
    exact ⟨hcounted, ((encInv_accept hs).mp h).2⟩
  | emitRun =>
    rw [encInv_emitRun (by exact hs), hwritten]
    exact ⟨hcounted, ((encInv_emitRun hs).mp h).2⟩
  | emitCode =>
    rw [encInv_emitCode (by exact hs), hwritten]
    exact ⟨hcounted, ((encInv_emitCode hs).mp h).2⟩
  | emitTail =>
    rw [encInv_emitTail (by exact hs), hwritten]
    exact ⟨hcounted, ((encInv_emitTail hs).mp h).2⟩
  | flush =>
    rw [encInv_flush (by exact hs), encBytes_byteTakenOf hv]
    exact ⟨hcounted, ((encInv_flush hs).mp h).2⟩
  | done =>
    obtain ⟨-, -, -, hob, -⟩ := (encInv_done hs).mp h
    simp [hob] at hv

/-! ## Every operation keeps the invariant -/

/-- `EncInv` reads ENC's registers and records alone. -/
theorem EncInv.of_encPart_eq {s t : State} (h : EncInv s) (hp : encPart t = encPart s) : EncInv t := by
  obtain ⟨hregs, -, hsent, hgot⟩ := EncPart.mk.inj hp
  simpa only [EncInv, encWritten, encBytes, hregs, hsent, hgot] using h

/-- An operation of DEC keeps it. -/
theorem EncInv.of_actsWithin_dec {s : State} (h : EncInv s) {f : State → State} (hf : ActsWithin .dec f) :
    EncInv (f s) :=
  h.of_encPart_eq (by rw [hf.frame s, encPart_graft_dec])

theorem EncInv.emitStep {s : State} (h : EncInv s) (hemit : encEmitting s.enc.state) {onLast : Enc → Enc}
    (hlast : pkEnabled s.enc = true → vleLast s.enc = true → EncInv { s with enc := onLast (afterEmit s.enc) }) :
    EncInv { s with enc := emitStep onLast s.enc } := by
  rcases emitStep_cases onLast s.enc with ⟨-, h'⟩ | ⟨hp, hl, h'⟩ | ⟨hp, hl, h'⟩ <;> rw [h']
  · exact h
  · exact hlast hp hl
  · exact h.emitted hemit hp hl

theorem encInv_reset {s : State} (he : s.enc = encReset) (hsent : s.host.encSent = []) (hgot : s.host.encGot = []) :
    EncInv s := by
  rw [encInv_idle (by rw [he]; rfl)]
  simp [EncCounted, he, hsent, hgot, encReset]

theorem encInv_started {s : State} {count : Count} (he : s.enc = encJobStart count) (hsent : s.host.encSent = [])
    (hgot : s.host.encGot = []) : EncInv s := by
  rw [encInv_accept (by rw [he]; rfl)]
  simp [EncCounted, encWritten, encWalk, he, hsent, hgot, encJobStart, encReset, unpack]

/-- Every operation keeps what ENC has done to what the loop of R230 does (R249). -/
theorem encInv_keptByOps : KeptByOps EncInv where
  parts _ _ h he _ := h.of_encPart_eq he
  encStart _ _ _ _ := encInv_started rfl rfl rfl
  decStart _ _ _ h _ := h.of_encPart_eq rfl
  encOffer _ _ h := h
  decOffer _ _ h := h
  takeByte s h := by
    rcases hostTakeByte_cases s with ⟨-, h'⟩ | ⟨hv, h'⟩ <;> rw [h']
    · exact h
    · exact h.byteTaken hv
  takePixel _ h := h.of_actsWithin_dec actsWithin_hostTakePixel
  reset _ _ := encInv_reset rfl rfl rfl
  acceptPixel s h := by
    rcases acceptPixelStep_cases s with h' | ⟨hs, hlt, p, -, ⟨hp, h'⟩ | ⟨hp, h'⟩⟩ <;> rw [h']
    · exact h
    · exact h.zeroPixel hs hlt hp
    · exact h.codedPixel hs hlt hp
  acceptEnd s h := by
    rcases acceptEndStep_cases s.enc with h' | ⟨hs, hn, ⟨hr, h'⟩ | ⟨hr, h'⟩⟩ <;> rw [h']
    · exact h
    · exact h.noTail hs hn hr
    · exact h.tail hs hn hr
  emitRun s h := by
    unfold emitRunStep
    split
    · next hs => exact h.emitStep (.inl hs) (h.runEmitted hs)
    · exact h
  emitCode s h := by
    unfold emitCodeStep
    split
    · next hs => exact h.emitStep (.inr (.inl hs)) (h.codeEmitted hs)
    · exact h
  emitTail s h := by
    unfold emitTailStep
    split
    · next hs => exact h.emitStep (.inr (.inr hs)) (h.tailEmitted hs)
    · exact h
  flush s h := by
    rcases flushStep_cases s.enc with h' | ⟨hs, hv, ⟨hpend, h'⟩ | ⟨hpend, h'⟩⟩ <;> rw [h']
    · exact h
    · exact h.padded hs hpend hv
    · exact h.finished hs hpend hv
  runGroup _ h := h.of_actsWithin_dec actsWithin_runGroupStep
  emitZeros _ h := h
  codeGroup _ h := h.of_actsWithin_dec actsWithin_codeGroupStep
  emitValue _ h := h
  drain _ h := h.of_actsWithin_dec actsWithin_drainStep

/-- Settles O47: the invariant in every run from reset, read at DONE, and the bytes taken as the first whole ones. -/
theorem encodeJobGivesRvlEncode : Obligations.EncodeJobGivesRvlEncode := by
  intro agenda k s hrun
  have hinv : EncInv s := runSteps_keeps (fun _ _ => encInv_keptByOps.step) k _ s (encInv_reset rfl rfl rfl) hrun
  refine ⟨fun hs => ?_, fun rest hrest => ?_⟩
  · obtain ⟨⟨hindex, hbytes, -⟩, hn, hgot, -, -⟩ := (encInv_done hs).mp hinv
    exact ⟨by rw [← hindex, hn], hgot, by rw [hbytes, hgot], hn⟩
  · exact (List.prefix_append _ _).trans (hinv.encWholeBytes_prefix hrest)

end Sys2Proof.Machine
end

section
/-! The encoder's function (R230) and the steps of ENC (R240 to R246), each by the case its registers select. -/

namespace Sys2Proof.Machine

open Sys2Proof

/-! ## The function -/

theorem exec_rvlEncode (pixels : List Pixel) (s : State) :
    exec (.rvlEncode pixels) s = .next { s with ret := .bytes (pack (encodeNibs 0 0 pixels)) } := rfl

/-- Only zeros left: one run group (R232). -/
theorem encodeNibs_replicate_zero (prev : Pixel) {n : Nat} (hn : 0 < n) :
    encodeNibs prev 0 (List.replicate n 0) = vle n := by
  have hzeros := encodeNibs_zeros prev n 0 []
  rw [List.append_nil, Nat.zero_add] at hzeros
  rw [hzeros, encodeNibs, if_pos hn]

theorem isZero_eq_false {p : Pixel} (h : p ≠ 0) : isZero p = false := beq_eq_false_iff_ne.mpr h

/-- A run of zeros and the nonzero pixel that ends it: a run group and a code group (R230). -/
theorem encodeNibs_run_cons (prev : Pixel) (run : Nat) {value : Pixel} (hvalue : value ≠ 0) (rest : List Pixel) :
    encodeNibs prev 0 (List.replicate run 0 ++ value :: rest) =
      vle run ++ vle (zz (delta value prev)) ++ encodeNibs value 0 rest := by
  rw [encodeNibs_zeros, Nat.zero_add, encodeNibs, isZero_eq_false hvalue, if_neg Bool.false_ne_true]

/-- Settles O21: the loop with no zeros counted, in its three cases. -/
theorem rvlEncodeIsTheLoop : Obligations.RvlEncodeIsTheLoop :=
  ⟨fun prev => encodeNibs prev 0, fun _ => rfl, fun prev _ hn => encodeNibs_replicate_zero prev hn,
    fun prev run _ rest hvalue => encodeNibs_run_cons prev run hvalue rest, exec_rvlEncode⟩

/-! ## ACCEPT -/

section
variable {s : State}

theorem exec_encAcceptPixel (s : State) : exec .encAcceptPixel s = .next (acceptPixelStep s) := rfl

theorem encWantsPixel_iff {e : Enc} : encWantsPixel e = true ↔ e.state = .accept ∧ e.index < e.count := by
  simp [encWantsPixel]

theorem acceptPixelStep_of_zero (hs : s.enc.state = .accept) (hlt : s.enc.index < s.enc.count) {p : Pixel}
    (ho : s.host.encOffer = some p) (hp : isZero p = true) :
    acceptPixelStep s =
      { s with
        enc := { s.enc with index := s.enc.index + 1, run := s.enc.run + 1 }
        host := { s.host with encOffer := none, encSent := s.host.encSent ++ [p] } } := by
  rw [acceptPixelStep, if_pos (encWantsPixel_iff.mpr ⟨hs, hlt⟩), takePixel_eq_some.mpr ⟨ho, rfl⟩]
  simp only [hp, if_true]

theorem acceptPixelStep_of_nonzero (hs : s.enc.state = .accept) (hlt : s.enc.index < s.enc.count) {p : Pixel}
    (ho : s.host.encOffer = some p) (hp : isZero p = false) :
    acceptPixelStep s =
      { s with
        enc := { vleLoad s.enc.run { s.enc with index := s.enc.index + 1, pix := p } with state := .emitRun }
        host := { s.host with encOffer := none, encSent := s.host.encSent ++ [p] } } := by
  rw [acceptPixelStep, if_pos (encWantsPixel_iff.mpr ⟨hs, hlt⟩), takePixel_eq_some.mpr ⟨ho, rfl⟩]
  simp only [hp, Bool.false_eq_true, if_false]

/-- Without its state, a pixel missing, or one on offer, the step is not enabled (R240). -/
theorem acceptPixelStep_of_disabled
    (h : ¬(s.enc.state = .accept ∧ s.enc.index < s.enc.count ∧ s.host.encOffer ≠ none)) : acceptPixelStep s = s := by
  rcases acceptPixelStep_cases s with hsame | ⟨hs, hlt, p, ho, -⟩
  · exact hsame
  · exact absurd ⟨hs, hlt, by simp [ho]⟩ h

/-- Settles O34: the pixel on offer, zero or not, and the step that is not enabled. -/
theorem encAcceptsAPixel : Obligations.EncAcceptsAPixel := by
  intro s
  refine ⟨fun hs hlt p ho => ⟨fun hp => ?_, fun hp => ?_⟩, fun hoff => ?_⟩
  · rw [exec_encAcceptPixel, acceptPixelStep_of_zero hs hlt ho (beq_iff_eq.mpr hp)]
  · rw [exec_encAcceptPixel, acceptPixelStep_of_nonzero hs hlt ho (isZero_eq_false hp)]
    rfl
  · rw [exec_encAcceptPixel, acceptPixelStep_of_disabled hoff]

end

theorem exec_encAcceptEnd (s : State) : exec .encAcceptEnd s = .next { s with enc := acceptEndStep s.enc } := rfl

section
variable {e : Enc}

theorem acceptEndStep_of_no_run (hs : e.state = .accept) (hn : e.index = e.count) (hr : e.run = 0) :
    acceptEndStep e = { e with state := .flush } := by rw [acceptEndStep, if_pos ⟨hs, hn⟩, if_pos hr]

theorem acceptEndStep_of_run (hs : e.state = .accept) (hn : e.index = e.count) (hr : e.run ≠ 0) :
    acceptEndStep e = { vleLoad e.run e with state := .emitTail } := by
  rw [acceptEndStep, if_pos ⟨hs, hn⟩, if_neg hr]

theorem acceptEndStep_of_disabled (h : ¬(e.state = .accept ∧ e.index = e.count)) : acceptEndStep e = e := if_neg h

end

/-- Settles O35: with every pixel taken, a run left or none; and elsewhere nothing. -/
theorem encAcceptsTheEnd : Obligations.EncAcceptsTheEnd := by
  intro s
  refine ⟨fun hs hn hr => ?_, fun hs hn hr => ?_, fun hoff => ?_⟩
  · rw [exec_encAcceptEnd, acceptEndStep_of_no_run hs hn hr]
  · rw [exec_encAcceptEnd, acceptEndStep_of_run hs hn hr]
    rfl
  · rw [exec_encAcceptEnd, acceptEndStep_of_disabled hoff]

/-! ## The emit states -/

section
variable {e : Enc}

theorem pkEnabled_iff : pkEnabled e = true ↔ e.pPend = false ∨ e.obValid = false := by simp [pkEnabled]

theorem pkEnabled_eq_false (h : e.pPend = true ∧ e.obValid = true) : pkEnabled e = false := by simp [pkEnabled, h]

/-- With room for its nibble, an emit step emits it, and at the group's last one goes on with `onLast` (R245). -/
theorem emitStep_of_room (onLast : Enc → Enc) (hroom : e.pPend = false ∨ e.obValid = false) :
    emitStep onLast e = if e.vJ.toNat + 1 = e.vK.toNat then onLast (afterEmit e) else afterEmit e := by
  rcases emitStep_cases onLast e with ⟨hp, -⟩ | ⟨-, hl, h⟩ | ⟨-, hl, h⟩
  · rw [pkEnabled_iff.mpr hroom] at hp
    cases hp
  · rw [h, if_pos (vleLast_eq_true.mp hl)]
  · rw [h, if_neg (vleLast_eq_false.mp hl)]

/-- With no room for its nibble, an emit step waits (R245). -/
theorem emitStep_of_no_room (onLast : Enc → Enc) (hfull : e.pPend = true ∧ e.obValid = true) :
    emitStep onLast e = e := by
  have hoff := pkEnabled_eq_false hfull
  rcases emitStep_cases onLast e with ⟨-, h⟩ | ⟨hp, -⟩ | ⟨hp, -⟩
  · exact h
  · rw [hoff] at hp
    cases hp
  · rw [hoff] at hp
    cases hp

/-- The shape of the three emit steps: only in their state, and only with room. -/
theorem ite_emitStep_of_disabled {st : EncState} {onLast : Enc → Enc}
    (h : e.state ≠ st ∨ (e.pPend = true ∧ e.obValid = true)) :
    (if e.state = st then emitStep onLast e else e) = e := by
  rcases h with hs | hfull
  · exact if_neg hs
  · rw [emitStep_of_no_room onLast hfull, ite_self]

/-- The value-phase work after the last nibble of a run group reads the registers that nibble left alone (R242). -/
theorem startCode_afterEmit (e : Enc) :
    startCode (afterEmit e) =
      { afterEmit e with
        prev := e.pix, run := 0, vSrc := BitVec.ofNat 32 (zz (delta e.pix e.prev)),
        vK := BitVec.ofNat 4 (octLen (zz (delta e.pix e.prev))), vJ := 0, state := .emitCode } := by
  simp only [startCode, vleLoad, encPrevUpdate, afterEmit_pix, afterEmit_prev, ofNat_zz_delta_toNat]

end

theorem exec_encEmitRun (s : State) : exec .encEmitRun s = .next { s with enc := emitRunStep s.enc } := rfl
theorem exec_encEmitCode (s : State) : exec .encEmitCode s = .next { s with enc := emitCodeStep s.enc } := rfl
theorem exec_encEmitTail (s : State) : exec .encEmitTail s = .next { s with enc := emitTailStep s.enc } := rfl

/-- Settles O36: each emit state with room for the nibble, and each step that is not enabled. -/
theorem encEmitsOneNibble : Obligations.EncEmitsOneNibble := by
  intro s
  refine ⟨fun hs hroom => ?_, fun hs hroom => ?_, fun hs hroom => ?_, fun hoff => ?_, fun hoff => ?_, fun hoff => ?_⟩
  · rw [exec_encEmitRun, emitRunStep, if_pos hs, emitStep_of_room _ hroom, startCode_afterEmit]
  · rw [exec_encEmitCode, emitCodeStep, if_pos hs, emitStep_of_room _ hroom]
  · rw [exec_encEmitTail, emitTailStep, if_pos hs, emitStep_of_room _ hroom]
  · rw [exec_encEmitRun, emitRunStep, ite_emitStep_of_disabled hoff]
  · rw [exec_encEmitCode, emitCodeStep, ite_emitStep_of_disabled hoff]
  · rw [exec_encEmitTail, emitTailStep, ite_emitStep_of_disabled hoff]

/-! ## FLUSH -/

section
variable {e : Enc}

theorem flushStep_of_pending (hs : e.state = .flush) (hpend : e.pPend = true) (hroom : e.obValid = false) :
    flushStep e = { e with ob := byteOf e.pHi 0, obValid := true, pPend := false } := by
  simp [flushStep, hs, hpend, hroom, pkFlush_of_enabled hs hpend hroom]

theorem flushStep_of_empty (hs : e.state = .flush) (hpend : e.pPend = false) (hroom : e.obValid = false) :
    flushStep e = { e with state := .done } := by
  simp [flushStep, hs, hpend, hroom]

theorem flushStep_of_disabled (h : e.state ≠ .flush ∨ e.obValid = true) : flushStep e = e := by
  rcases flushStep_cases e with hsame | ⟨hs, hroom, -⟩
  · exact hsame
  · simp [hs, hroom] at h

end

theorem exec_encFlush (s : State) : exec .encFlush s = .next { s with enc := flushStep s.enc } := rfl

/-- Settles O37: a nibble pending or none, with OB free; and elsewhere nothing. -/
theorem encFlushesAndFinishes : Obligations.EncFlushesAndFinishes := by
  intro s
  refine ⟨fun hs hpend hroom => ?_, fun hs hpend hroom => ?_, fun hoff => ?_⟩
  · rw [exec_encFlush, flushStep_of_pending hs hpend hroom]
  · rw [exec_encFlush, flushStep_of_empty hs hpend hroom]
  · rw [exec_encFlush, flushStep_of_disabled hoff]

end Sys2Proof.Machine
end

section
/-! The final states (R247, R279). An engine that is not busy has no turn of its own, the other engine's turns leave it
alone, and of the items only its start command and RESET change its state. -/

namespace Sys2Proof.Machine

open Sys2Proof

/-! ## The three sorts of step -/

/-- A move that is an item was named by the agenda: the free turns are the engines'. -/
theorem agenda_of_nextMove_item {s : State} {it : Item} (h : (nextMove s).1 = .item it) :
    ∃ rest, s.agenda = .item it :: rest ∧ (nextMove s).2 = { s with agenda := rest } := by
  cases ha : s.agenda with
  | nil =>
    simp only [nextMove, ha] at h
    rcases freeTurn_cases s with ⟨-, hfree⟩ | ⟨-, hfree⟩ <;> rw [hfree] at h
    · rcases turnOf_cases s.turn with hturn | hturn <;> cases hturn.symm.trans h
    · rcases turnOf_cases (s.turn + 1) with hturn | hturn <;> cases hturn.symm.trans h
  | cons m rest =>
    simp only [nextMove, ha] at h ⊢
    exact ⟨rest, by rw [h], rfl⟩

/-- A step runs the item that the agenda names, or is a turn of one of the engines (R13). -/
theorem step_cases {s t : State} (ht : step s = .next t) :
    (∃ it rest i, s.agenda = .item it :: rest ∧ decode it = .ok i ∧ exec i { s with agenda := rest } = .next t) ∨
    runTurn (encNext s.enc) (nextMove s).2 = .next t ∨ runTurn (decNext s.dec) (nextMove s).2 = .next t := by
  unfold step at ht
  cases hm : (nextMove s).1 with
  | item it =>
    obtain ⟨rest, hagenda, hstate⟩ := agenda_of_nextMove_item hm
    rw [hm, hstate] at ht
    simp only [runMove] at ht
    split at ht
    · next i hi => exact .inl ⟨it, rest, i, hagenda, hi, ht⟩
    · cases ht
  | enc =>
    rw [hm, runMove, nextMove_enc] at ht
    exact .inr (.inl ht)
  | dec =>
    rw [hm, runMove, nextMove_dec] at ht
    exact .inr (.inr ht)

/-! ## ENC -/

theorem encBusy_eq_false {st : EncState} (h : st = .idle ∨ st = .done) : encBusy st = false := by
  rcases h with rfl | rfl <;> rfl

theorem encNext_of_not_busy {e : Enc} (h : encBusy e.state = false) : encNext e = none := by
  unfold encNext
  cases hs : e.state <;> simp_all [encBusy]

theorem encWantsPixel_of_not_busy {e : Enc} (h : encBusy e.state = false) : encWantsPixel e = false := by
  cases hs : e.state <;> simp_all [encBusy, encWantsPixel]

/-- The items that change ENC's state while no job runs. -/
theorem exec_encState_of_not_busy {i : Instr} {s t : State} (hi : (encode i).isSome = true)
    (hs : encBusy s.enc.state = false) (ht : exec i s = .next t) :
    t.enc.state = s.enc.state ∨ (∃ count len, i = .encStart count len ∧ t.enc.state = .accept) ∨
      (i = .reset ∧ t.enc.state = .idle) := by
  by_cases hr : i = .reset
  · subst hr
    injection ht with ht
    exact .inr (.inr ⟨rfl, by rw [← ht]; rfl⟩)
  by_cases hside : sideOf i = some .enc
  · cases i <;>
      simp only [sideOf, encode, Option.some.injEq, reduceCtorEq, Option.isSome_none, Bool.false_eq_true] at hside hi
    case encStart count len =>
      rw [exec_encStart_of_not_busy hs] at ht
      injection ht with ht
      exact .inr (.inl ⟨count, len, rfl, by rw [← ht]; rfl⟩)
    case pixel v =>
      injection ht with ht
      rcases pixelTransfer_cases v s with h | ⟨hwants, -⟩
      · exact .inl (by rw [← ht, h])
      · simp [encWantsPixel_of_not_busy hs] at hwants
    case encPixelIn v =>
      injection ht with ht
      exact .inl (by rw [← ht])
    case encTake =>
      injection ht with ht
      rcases hostTakeByte_cases s with ⟨-, h⟩ | ⟨-, h⟩ <;> exact .inl (by rw [← ht, h])
  · obtain ⟨hregs, -⟩ := EncPart.mk.inj (exec_agree_of_not_sideOf hside hr ht).1
    exact .inl (by rw [hregs])

theorem step_encState_of_not_busy {s t : State} (hs : encBusy s.enc.state = false) (ht : step s = .next t) :
    t.enc.state = s.enc.state ∨
      ∃ it rest i, s.agenda = .item it :: rest ∧ decode it = .ok i ∧
        ((∃ count len, i = .encStart count len ∧ t.enc.state = .accept) ∨ (i = .reset ∧ t.enc.state = .idle)) := by
  rcases step_cases ht with ⟨it, rest, i, hagenda, hi, ht⟩ | ht | ht
  · rcases exec_encState_of_not_busy (s := { s with agenda := rest }) (decode_encodable hi) hs ht with hsame | hchange
    · exact .inl hsame
    · exact .inr ⟨it, rest, i, hagenda, hi, hchange⟩
  · rw [encNext_of_not_busy hs] at ht
    injection ht with ht
    exact .inl (by rw [← ht, nextMove_enc])
  · have hagree : Agree .enc t (nextMove s).2 := runTurn_agree Side.noConfusion (fun _ => sideOf_decNext) ht
    obtain ⟨hregs, -⟩ := EncPart.mk.inj hagree.1
    exact .inl (by rw [hregs, nextMove_enc])

/-! ## DEC -/

theorem decBusy_eq_false {st : DecState} (h : st = .idle ∨ st = .done ∨ st = .error) : decBusy st = false := by
  rcases h with rfl | rfl | rfl <;> rfl

theorem decNext_of_not_busy {d : Dec} (h : decBusy d.state = false) : decNext d = none := by
  unfold decNext
  cases hs : d.state <;> simp_all [decBusy]

theorem decInGroup_of_not_busy {d : Dec} (h : decBusy d.state = false) : decInGroup d = false := by
  cases hs : d.state <;> simp_all [decBusy, decInGroup]

theorem decWantsByte_of_not_busy {d : Dec} (h : decBusy d.state = false) : decWantsByte d = false := by
  cases hs : d.state <;> simp_all [decBusy, decInGroup, decWantsByte]

theorem nibbleStep_of_not_busy {s : State} (h : decBusy s.dec.state = false) (n : Nibble) : nibbleStep n s = s := by
  rcases nibbleStep_cases n s with hsame | ⟨hgroup, -⟩
  · exact hsame
  · simp [decInGroup_of_not_busy h] at hgroup

theorem byteTransfer_of_not_busy {s : State} (h : decBusy s.dec.state = false) (b : Byte) : byteTransfer b s = s := by
  rcases byteTransfer_cases b s with hsame | ⟨hwants, -⟩
  · exact hsame
  · simp [decWantsByte_of_not_busy h] at hwants

theorem decJobStart_state (count : Count) (len : Length) :
    (decJobStart count len).state = .runGroup ∨ (decJobStart count len).state = .drain := by
  by_cases hcount : count = 0
  · exact .inr (if_pos hcount)
  · exact .inl (if_neg hcount)

/-- The items that change DEC's state while no job runs. -/
theorem exec_decState_of_not_busy {i : Instr} {s t : State} (hi : (encode i).isSome = true)
    (hs : decBusy s.dec.state = false) (ht : exec i s = .next t) :
    t.dec.state = s.dec.state ∨
      (∃ count len, i = .decStart count len ∧ (t.dec.state = .runGroup ∨ t.dec.state = .drain)) ∨
      (i = .reset ∧ t.dec.state = .idle) := by
  by_cases hr : i = .reset
  · subst hr
    injection ht with ht
    exact .inr (.inr ⟨rfl, by rw [← ht]; rfl⟩)
  by_cases hside : sideOf i = some .dec
  · cases i <;>
      simp only [sideOf, encode, Option.some.injEq, reduceCtorEq, Option.isSome_none, Bool.false_eq_true] at hside hi
    case decStart count len =>
      rw [exec_decStart_of_not_busy hs] at ht
      injection ht with ht
      exact .inr (.inl ⟨count, len, rfl, by rw [← ht]; exact decJobStart_state count len⟩)
    case nibTerm p =>
      injection ht with ht
      exact .inl (by rw [← ht, nibbleStep_of_not_busy hs])
    case nibCont p =>
      injection ht with ht
      exact .inl (by rw [← ht, nibbleStep_of_not_busy hs])
    case streamByte hi lo =>
      injection ht with ht
      exact .inl (by rw [← ht, byteTransfer_of_not_busy hs])
    case decByteIn b =>
      injection ht with ht
      exact .inl (by rw [← ht])
    case decTake =>
      injection ht with ht
      rcases hostTakePixel_cases s with ⟨-, h⟩ | ⟨-, h⟩ <;> exact .inl (by rw [← ht, h])
  · obtain ⟨hregs, -⟩ := DecPart.mk.inj (exec_agree_of_not_sideOf hside hr ht).1
    exact .inl (by rw [hregs])

theorem step_decState_of_not_busy {s t : State} (hs : decBusy s.dec.state = false) (ht : step s = .next t) :
    t.dec.state = s.dec.state ∨
      ∃ it rest i, s.agenda = .item it :: rest ∧ decode it = .ok i ∧
        ((∃ count len, i = .decStart count len ∧ (t.dec.state = .runGroup ∨ t.dec.state = .drain)) ∨
          (i = .reset ∧ t.dec.state = .idle)) := by
  rcases step_cases ht with ⟨it, rest, i, hagenda, hi, ht⟩ | ht | ht
  · rcases exec_decState_of_not_busy (s := { s with agenda := rest }) (decode_encodable hi) hs ht with hsame | hchange
    · exact .inl hsame
    · exact .inr ⟨it, rest, i, hagenda, hi, hchange⟩
  · have hagree : Agree .dec t (nextMove s).2 := runTurn_agree Side.noConfusion (fun _ => sideOf_encNext) ht
    obtain ⟨hregs, -⟩ := DecPart.mk.inj hagree.1
    exact .inl (by rw [hregs, nextMove_dec])
  · rw [decNext_of_not_busy hs] at ht
    injection ht with ht
    exact .inl (by rw [← ht, nextMove_dec])

/-- Settles O60: each engine at rest by the items that change its state; a change to IDLE is one from another state. -/
theorem finalStatesAreLeftOnlyByCommands : Obligations.FinalStatesAreLeftOnlyByCommands := by
  intro s t ht
  refine ⟨fun hs => ?_, fun hs => ?_⟩
  · have hidle := encBusy_eq_false hs
    refine ⟨encNext_of_not_busy hidle, fun hne => ?_⟩
    obtain ⟨it, rest, i, hagenda, hi, ⟨count, len, rfl, hstate⟩ | ⟨rfl, hstate⟩⟩ :=
      (step_encState_of_not_busy hidle ht).resolve_left hne
    · exact ⟨it, rest, hagenda, .inl ⟨count, len, hi, hstate⟩⟩
    · have hdone : s.enc.state = .done := hs.resolve_left fun h => hne (hstate.trans h.symm)
      exact ⟨it, rest, hagenda, .inr ⟨hi, hdone, hstate⟩⟩
  · have hidle := decBusy_eq_false hs
    refine ⟨decNext_of_not_busy hidle, fun hne => ?_⟩
    obtain ⟨it, rest, i, hagenda, hi, ⟨count, len, rfl, hstate⟩ | ⟨rfl, hstate⟩⟩ :=
      (step_decState_of_not_busy hidle ht).resolve_left hne
    · exact ⟨it, rest, hagenda, .inl ⟨count, len, hi, hstate⟩⟩
    · exact ⟨it, rest, hagenda, .inr ⟨hi, fun h => hne (hstate.trans h.symm), hstate⟩⟩

end Sys2Proof.Machine
end

section
/-! The steps of DEC (R270 to R278), each by the case its registers select. The sums of the two checks lose nothing at
their widths. -/

namespace Sys2Proof.Machine

open Sys2Proof

/-! ## The checks at the ends of the groups -/

theorem exec_overrunCheck (s : State) : exec .overrunCheck s = .next { s with dec := overrunCheck s.dec } := rfl

theorem exec_rangeCheck (s : State) : exec .rangeCheck s = .next { s with dec := rangeCheck s.dec } := rfl

/-- Two 32-bit numbers have a sum of 34 bits at most, so R272's comparison is one of numbers. -/
theorem setWidth_lt_add_iff (count produced acc : BitVec 32) :
    count.setWidth 34 < produced.setWidth 34 + acc.setWidth 34 ↔ count.toNat < produced.toNat + acc.toNat := by
  bv_omega

/-- A signed 32-bit number and an unsigned 16-bit one have a sum of 33 bits (R215). -/
theorem signExtend_add_setWidth_toInt (d : BitVec 32) (p : Pixel) :
    (d.signExtend 33 + p.setWidth 33).toInt = d.toInt + p.toNat := by
  have hp := p.isLt
  have hlo := d.le_toInt
  have hhi := d.toInt_lt
  rw [BitVec.toInt_add, BitVec.toInt_signExtend_of_le (by decide), BitVec.toInt_setWidth, Int.add_bmod_bmod,
    Int.bmod_eq_of_le] <;> omega

/-- A 33-bit number in a pixel's range is its low 16 bits (R275). -/
theorem setWidth_toNat_of_range {v : BitVec 33} (hlo : 0 ≤ v.toInt) (hhi : v.toInt ≤ 65535) :
    ((v.setWidth 16).toNat : Int) = v.toInt := by
  have hcond := v.toInt_eq_toNat_cond
  have hv := v.isLt
  rw [BitVec.toNat_setWidth]
  omega

section
variable {d : Dec}

theorem overrunCheck_of_overrun (h : d.ovf = true ∨ d.count.toNat < d.produced.toNat + d.acc.toNat) :
    overrunCheck d = raiseDecode .overrun d := by
  rcases overrunCheck_cases d with ⟨-, h'⟩ | ⟨hovf, hfits, -⟩
  · exact h'
  · simp [hovf, not_lt.mpr hfits] at h

theorem overrunCheck_of_fits (hovf : d.ovf = false) (hfits : ¬d.count.toNat < d.produced.toNat + d.acc.toNat) :
    overrunCheck d = { d with zrem := d.acc, state := .emitZeros } := by
  rcases overrunCheck_cases d with ⟨h, -⟩ | ⟨-, -, h'⟩
  · simp [hovf, hfits] at h
  · exact h'

theorem rangeCheck_of_bad (h : d.ovf = true ∨ recon d.prev (unzz d.acc.toNat) = .error .outOfRange) :
    rangeCheck d = raiseDecode .outOfRange d := by
  rcases rangeCheck_cases d with ⟨-, h'⟩ | ⟨-, -, h'⟩ | ⟨hovf, v, hv, -⟩
  · exact h'
  · exact h'
  · simp [hovf, hv] at h

theorem rangeCheck_of_ok (hovf : d.ovf = false) {v : Pixel} (hv : recon d.prev (unzz d.acc.toNat) = .ok v) :
    rangeCheck d = { d with val := v, prev := v, state := .emitValue } := by
  rcases rangeCheck_cases d with ⟨h, -⟩ | ⟨-, h, -⟩ | ⟨-, w, hw, h'⟩
  · simp [hovf] at h
  · simp [hv] at h
  · obtain rfl := Except.ok.inj (hw.symm.trans hv)
    exact h'

end

/-- Settles O31: the two outcomes of OVERRUN_CHECK, its 34-bit sum being the sum of the numbers. -/
theorem overrunCheckBoundsTheRun : Obligations.OverrunCheckBoundsTheRun := by
  intro s
  rw [setWidth_lt_add_iff]
  refine ⟨fun h => ?_, fun hovf hfits => ?_⟩
  · rw [exec_overrunCheck, overrunCheck_of_overrun h]
    rfl
  · rw [exec_overrunCheck, overrunCheck_of_fits hovf hfits]

/-- Settles O32: the 33-bit sum is the sum that RECON tests, and in range its 16 low bits are RECON's pixel. -/
theorem rangeCheckBoundsTheValue : Obligations.RangeCheckBoundsTheValue := by
  intro s d v
  have hsum : v.toInt = s.dec.prev.toNat + unzz s.dec.acc.toNat := by
    rw [signExtend_add_setWidth_toInt, ← unzzBits_toInt, Int.add_comm]
    rfl
  refine ⟨fun h => ?_, fun hovf hlo hhi => ?_⟩
  · rw [hsum] at h
    rw [exec_rangeCheck, rangeCheck_of_bad (h.imp_right recon_of_out_of_range)]
    rfl
  · obtain ⟨p, hok, hp⟩ := recon_of_in_range (hsum ▸ hlo) (hsum ▸ hhi)
    have hlow : v.setWidth 16 = p := by
      have hv := setWidth_toNat_of_range hlo hhi
      exact BitVec.eq_of_toNat_eq (by omega)
    rw [exec_rangeCheck, rangeCheck_of_ok hovf hok, hlow]

/-! ## The groups -/

theorem exec_decRunGroup (s : State) : exec .decRunGroup s = .next (runGroupStep s) := rfl

theorem exec_decCodeGroup (s : State) : exec .decCodeGroup s = .next (codeGroupStep s) := rfl

section
variable {s : State} (finish : Dec → Dec)

theorem groupStep_of_pending (hlo : s.dec.loPend = true) :
    groupStep finish s = { s with dec := afterNibble finish s.dec.lo { s.dec with loPend := false } } := by
  rcases groupStep_cases finish s with ⟨-, h, -⟩ | ⟨h, -⟩ | ⟨-, h'⟩ | ⟨h, -⟩
  · simp [hlo] at h
  · simp [hlo] at h
  · exact h'
  · simp [hlo] at h

theorem groupStep_of_byte (hlo : s.dec.loPend = false) (hlt : s.dec.bytesIn < s.dec.len) {b : Byte}
    (ho : s.host.decOffer = some b) :
    groupStep finish s =
      { s with
        dec := afterNibble finish (hiNibble b)
          { s.dec with bytesIn := s.dec.bytesIn + 1, lo := loNibble b, loPend := true }
        host := { s.host with decOffer := none, decSent := s.host.decSent ++ [b] } } := by
  rcases groupStep_cases finish s with ⟨-, -, -, h⟩ | ⟨-, h, -⟩ | ⟨h, -⟩ | ⟨-, -, c, hc, h'⟩
  · simp [ho] at h
  · exact absurd hlt h
  · simp [hlo] at h
  · obtain rfl := Option.some.inj (hc.symm.trans ho)
    exact h'

theorem groupStep_of_end (hlo : s.dec.loPend = false) (hend : ¬s.dec.bytesIn < s.dec.len) :
    groupStep finish s = { s with dec := raiseDecode .truncated s.dec } := by
  rcases groupStep_cases finish s with ⟨-, -, h, -⟩ | ⟨-, -, h'⟩ | ⟨h, -⟩ | ⟨-, h, -⟩
  · exact absurd h hend
  · exact h'
  · simp [hlo] at h
  · exact absurd h hend

theorem groupStep_of_no_byte (hlo : s.dec.loPend = false) (hlt : s.dec.bytesIn < s.dec.len)
    (ho : s.host.decOffer = none) : groupStep finish s = s := by
  rcases groupStep_cases finish s with ⟨h', -⟩ | ⟨-, h, -⟩ | ⟨h, -⟩ | ⟨-, -, b, h, -⟩
  · exact h'
  · exact absurd hlt h
  · simp [hlo] at h
  · simp [ho] at h

end

/-- The two group steps are one step, each in its own state and with its own check (R270, R274). -/
theorem exec_group {i : Instr} {st : DecState} {finish : Dec → Dec}
    (hi : (i = .decRunGroup ∧ st = .runGroup ∧ finish = overrunCheck) ∨
      (i = .decCodeGroup ∧ st = .codeGroup ∧ finish = rangeCheck)) (s : State) :
    exec i s = .next (if s.dec.state = st then groupStep finish s else s) := by
  rcases hi with ⟨rfl, rfl, rfl⟩ | ⟨rfl, rfl, rfl⟩
  · exact exec_decRunGroup s
  · exact exec_decCodeGroup s

/-- Settles O38: the group step of the state by what UP_READ finds, and the step that is not enabled. -/
theorem decReadsOneNibbleOfAGroup : Obligations.DecReadsOneNibbleOfAGroup := by
  intro i st finish s hi
  rw [exec_group hi]
  refine ⟨fun hs hlo => ?_, fun hs hlo hlt b ho => ?_, fun hs hlo hend => ?_, fun hoff => ?_⟩
  · rw [if_pos hs, groupStep_of_pending finish hlo]
  · rw [if_pos hs, groupStep_of_byte finish hlo hlt ho]
  · rw [if_pos hs, groupStep_of_end finish hlo hend]
    rfl
  · rcases hoff with hs | ⟨hlo, hlt, ho⟩
    · rw [if_neg hs]
    · rw [groupStep_of_no_byte finish hlo hlt ho, ite_self]

/-! ## The pixels -/

theorem exec_decEmitZeros (s : State) : exec .decEmitZeros s = .next { s with dec := emitZerosStep s.dec } := rfl

theorem exec_decEmitValue (s : State) : exec .decEmitValue s = .next { s with dec := emitValueStep s.dec } := rfl

theorem putPixel_of_room {d : Dec} (v : Pixel) (hroom : d.poValid = false) :
    putPixel v d = some { d with po := v, poValid := true } := by simp [putPixel, hroom]

section
variable {d : Dec}

theorem emitZerosStep_of_zero_left (hs : d.state = .emitZeros) (hz : d.zrem ≠ 0) (hroom : d.poValid = false) :
    emitZerosStep d = { d with po := 0, poValid := true, produced := d.produced + 1, zrem := d.zrem - 1 } := by
  rw [emitZerosStep, if_pos hs, if_pos hz, putPixel_of_room 0 hroom]

theorem emitZerosStep_of_none_left (hs : d.state = .emitZeros) (hz : d.zrem = 0) :
    emitZerosStep d =
      if d.produced < d.count then { vldStart d with state := .codeGroup } else { d with state := .drain } := by
  rw [emitZerosStep, if_pos hs, if_neg (not_not.mpr hz)]

theorem emitZerosStep_of_disabled (h : d.state ≠ .emitZeros ∨ (d.zrem ≠ 0 ∧ d.poValid = true)) :
    emitZerosStep d = d := by
  rcases emitZerosStep_cases d with h' | ⟨hs, ⟨-, hroom, -⟩ | ⟨hz, -⟩ | ⟨hz, -⟩⟩
  · exact h'
  · simp [hs, hroom] at h
  · simp [hs, hz] at h
  · simp [hs, hz] at h

theorem emitValueStep_of_room (hs : d.state = .emitValue) (hroom : d.poValid = false) :
    emitValueStep d =
      if d.produced + 1 < d.count then
        { d with po := d.val, poValid := true, produced := d.produced + 1, acc := 0, ovf := false, state := .runGroup }
      else { d with po := d.val, poValid := true, produced := d.produced + 1, state := .drain } := by
  rw [emitValueStep, if_pos hs, putPixel_of_room _ hroom]
  rfl

theorem emitValueStep_of_disabled (h : d.state ≠ .emitValue ∨ d.poValid = true) : emitValueStep d = d := by
  rcases emitValueStep_cases d with h' | ⟨hs, hroom, -⟩
  · exact h'
  · simp [hs, hroom] at h

end

/-- Settles O39: a zero to deliver, the two ways on after the last one, and the step that is not enabled. -/
theorem decDeliversTheZeros : Obligations.DecDeliversTheZeros := by
  intro s
  refine ⟨fun hs hz hroom => ?_, fun hs hz hlt => ?_, fun hs hz hend => ?_, fun hoff => ?_⟩
  · rw [exec_decEmitZeros, emitZerosStep_of_zero_left hs hz hroom]
  · rw [exec_decEmitZeros, emitZerosStep_of_none_left hs hz, if_pos hlt]
    rfl
  · rw [exec_decEmitZeros, emitZerosStep_of_none_left hs hz, if_neg hend]
  · rw [exec_decEmitZeros, emitZerosStep_of_disabled hoff]

/-- Settles O40: the value delivered, with the count after it, and the step that is not enabled. -/
theorem decDeliversTheValue : Obligations.DecDeliversTheValue := by
  intro s
  refine ⟨fun hs hroom hlt => ?_, fun hs hroom hend => ?_, fun hoff => ?_⟩
  · rw [exec_decEmitValue, emitValueStep_of_room hs hroom, if_pos hlt]
  · rw [exec_decEmitValue, emitValueStep_of_room hs hroom, if_neg hend]
  · rw [exec_decEmitValue, emitValueStep_of_disabled hoff]

/-! ## DRAIN -/

theorem exec_decDrain (s : State) : exec .decDrain s = .next (drainStep s) := rfl

section
variable {s : State}

theorem drainStep_of_byte (hs : s.dec.state = .drain) (hlt : s.dec.bytesIn < s.dec.len) {b : Byte}
    (ho : s.host.decOffer = some b) :
    drainStep s =
      { s with
        dec := { s.dec with bytesIn := s.dec.bytesIn + 1 }
        host := { s.host with decOffer := none, decSent := s.host.decSent ++ [b] } } := by
  rcases upDiscard_cases s with ⟨h, -⟩ | ⟨-, -, c, hc, h'⟩
  · simp [hs, hlt, ho] at h
  · obtain rfl := Option.some.inj (hc.symm.trans ho)
    rw [drainStep, if_pos hs, if_pos hlt, h']

theorem drainStep_of_end (hs : s.dec.state = .drain) (hend : ¬s.dec.bytesIn < s.dec.len)
    (hroom : s.dec.poValid = false) :
    drainStep s = { s with dec := { s.dec with state := if s.dec.err = none then .done else .error } } := by
  rw [drainStep, if_pos hs, if_neg hend, hroom, if_neg Bool.false_ne_true]

theorem drainStep_of_disabled
    (h : s.dec.state ≠ .drain ∨ (s.dec.bytesIn < s.dec.len ∧ s.host.decOffer = none) ∨
      (¬s.dec.bytesIn < s.dec.len ∧ s.dec.poValid = true)) : drainStep s = s := by
  rcases drainStep_cases s with h' | ⟨hs, ⟨hlt, b, ho, -⟩ | ⟨hend, hroom, -⟩⟩
  · exact h'
  · simp [hs, hlt, ho] at h
  · simp [hs, hend, hroom] at h

end

/-- Settles O41: a byte to drop, the two ends, and the step that is not enabled. -/
theorem decDrainsAndFinishes : Obligations.DecDrainsAndFinishes := by
  intro s
  refine ⟨fun hs hlt b ho => ?_, fun hs hend hroom herr => ?_, fun hs hend hroom herr => ?_, fun hoff => ?_⟩
  · rw [exec_decDrain, drainStep_of_byte hs hlt ho]
  · rw [exec_decDrain, drainStep_of_end hs hend hroom, if_pos herr]
  · rw [exec_decDrain, drainStep_of_end hs hend hroom, if_neg herr]
  · rw [exec_decDrain, drainStep_of_disabled hoff]

end Sys2Proof.Machine
end

section
/-! The decoder's function (R260). The loop, which reads group by group, is told again as a walk that reads nibble by
nibble and stops where the loop does: `walkOutcome` goes on from `decWalkStep`, in which DEC's invariant is stated, and
needs no bound on the passes. Reading back what was encoded (R266), and what is left of it when a byte is missing (R267),
are facts about that walk. -/

namespace Sys2Proof.Machine

open Sys2Proof

/-! ## One nibble through the loop -/

/-- How the loop of R260 has ended, if it has. -/
def DecWalk.ending (w : DecWalk) : Option (Except ErrCode (List Pixel)) :=
  match w.phase with
  | .run => none
  | .code => none
  | .finished => some (.ok w.out)
  | .failed e => some (.error e)

section
variable {n : Nat} {w : DecWalk} {x : Nibble}

theorem ending_eq_none : w.ending = none ↔ w.phase = .run ∨ w.phase = .code := by
  unfold DecWalk.ending
  cases w.phase <;> simp

theorem ending_of_run (h : w.phase = .run) : w.ending = none := ending_eq_none.mpr (.inl h)

theorem ending_of_code (h : w.phase = .code) : w.ending = none := ending_eq_none.mpr (.inr h)

theorem ending_of_finished (h : w.phase = .finished) : w.ending = some (.ok w.out) := by simp [DecWalk.ending, h]

theorem ending_of_failed {e : ErrCode} (h : w.phase = .failed e) : w.ending = some (.error e) := by
  simp [DecWalk.ending, h]

/-- Inside a group only the value grows (R86, R170). -/
theorem decWalkStep_of_cont (h : w.ending = none) (hx : contBit x = true) :
    decWalkStep n w x = { w with acc := w.acc * 8 + (payload x).toNat } := by
  rcases ending_eq_none.mp h with hp | hp <;> simp [decWalkStep, hp, hx]

section
variable {v : Nat} (hx : contBit x = false) (hv : w.acc * 8 + (payload x).toNat = v)
include hx hv

/-- A run group past the count (R260, R272). -/
theorem decWalkStep_of_overrun (hp : w.phase = .run) (hover : n < w.out.length + v) :
    decWalkStep n w x = { w with phase := .failed .overrun, acc := v } := by
  subst hv
  simp [decWalkStep, hp, hx, hover]

/-- A run group within the count: its zeros, then a code group if a pixel is missing (R260, R273). -/
theorem decWalkStep_of_run (hp : w.phase = .run) (hfits : ¬n < w.out.length + v) :
    decWalkStep n w x =
      { w with
        phase := if w.out.length + v < n then .code else .finished
        acc := 0
        out := w.out ++ List.replicate v 0 } := by
  subst hv
  simp [decWalkStep, hp, hx, hfits]

/-- A code group that RECON refuses (R260, R275). -/
theorem decWalkStep_of_bad_code (hp : w.phase = .code) {e : ErrCode} (hbad : recon w.prev (unzz v) = .error e) :
    decWalkStep n w x = { w with phase := .failed e, acc := v } := by
  subst hv
  simp [decWalkStep, hp, hx, hbad]

/-- A code group's pixel, then a run group if another is missing (R260, R276). -/
theorem decWalkStep_of_code (hp : w.phase = .code) {q : Pixel} (hok : recon w.prev (unzz v) = .ok q) :
    decWalkStep n w x =
      { phase := if w.out.length + 1 < n then .run else .finished, acc := 0, out := w.out ++ [q], prev := q } := by
  subst hv
  simp [decWalkStep, hp, hx, hok]

end

end

/-! ## Where the walk stops -/

/-- The walk on from w at position p: its result, and the position where it stops or the nibbles end. -/
def walkOutcome (n : Nat) : DecWalk → List Nibble → Nat → DecodeRun
  | w, [], p => ⟨w.ending.getD (.error .truncated), p⟩
  | w, x :: t, p =>
    match w.ending with
    | some r => ⟨r, p⟩
    | none => walkOutcome n (decWalkStep n w x) t (p + 1)

section
variable {n : Nat}

theorem walkOutcome_of_ending {w : DecWalk} {r : Except ErrCode (List Pixel)} (h : w.ending = some r) (l : List Nibble)
    (p : Nat) : walkOutcome n w l p = ⟨r, p⟩ := by
  cases l <;> simp [walkOutcome, h]

theorem walkOutcome_nil {w : DecWalk} (h : w.ending = none) (p : Nat) :
    walkOutcome n w [] p = ⟨.error .truncated, p⟩ := by
  simp [walkOutcome, h]

theorem walkOutcome_cons {w : DecWalk} (h : w.ending = none) (x : Nibble) (t : List Nibble) (p : Nat) :
    walkOutcome n w (x :: t) p = walkOutcome n (decWalkStep n w x) t (p + 1) := by
  simp [walkOutcome, h]

/-- Nibbles read while the loop goes on do not change where it ends. -/
theorem walkOutcome_append (b : List Nibble) : ∀ (a : List Nibble) (w : DecWalk) (p : Nat),
    (∀ k < a.length, ((a.take k).foldl (decWalkStep n) w).ending = none) →
      walkOutcome n w (a ++ b) p = walkOutcome n (a.foldl (decWalkStep n) w) b (p + a.length)
  | [], _, _, _ => rfl
  | x :: a, w, p, h => by
    have hw : w.ending = none := h 0 (Nat.succ_pos _)
    rw [List.cons_append, walkOutcome_cons hw, walkOutcome_append b a _ _ fun k hk => h (k + 1) (Nat.succ_lt_succ hk),
      List.foldl_cons, List.length_cons, Nat.add_right_comm, Nat.add_assoc]

/-- A walk that stops beyond the first nibbles of a list has not stopped when those are all there is. -/
theorem walkOutcome_of_pos_lt (b : List Nibble) : ∀ (a : List Nibble) (w : DecWalk) (p : Nat),
    p + a.length < (walkOutcome n w (a ++ b) p).pos → walkOutcome n w a p = ⟨.error .truncated, p + a.length⟩
  | a, w, p, h => by
    have hreads : w.ending = none := by
      cases hend : w.ending with
      | none => rfl
      | some r =>
        rw [walkOutcome_of_ending hend] at h
        exact absurd h (by simp)
    cases a with
    | nil => exact walkOutcome_nil hreads p
    | cons x a =>
      rw [List.cons_append, walkOutcome_cons hreads] at h
      rw [walkOutcome_cons hreads, walkOutcome_of_pos_lt b a _ _ (by rw [List.length_cons] at h; omega),
        List.length_cons, Nat.add_right_comm, Nat.add_assoc]

/-- The walk through a group that VLD reads: it comes to the group's last nibble with the rest of its value. -/
theorem walkOutcome_of_group {w : DecWalk} (hw : w.ending = none) {v q : Nat} :
    ∀ (r : List Nibble) (acc p : Nat), vldFrom r acc p = .ok (v, q) →
      ∃ m x, contBit x = false ∧ m * 8 + (payload x).toNat = v ∧
        walkOutcome n { w with acc := acc } r p =
          walkOutcome n (decWalkStep n { w with acc := m } x) (r.drop (q - p)) q
  | [], _, _, h => by simp [vldFrom] at h
  | x :: t, acc, p, h => by
    have hw' : DecWalk.ending { w with acc := acc } = none := hw
    have hpos := vldFrom_pos _ _ _ _ _ h
    rw [walkOutcome_cons hw']
    cases hx : contBit x with
    | true =>
      rw [vldFrom, if_pos hx] at h
      have hpos' := vldFrom_pos _ _ _ _ _ h
      obtain ⟨m, y, hy, hm, hwalk⟩ := walkOutcome_of_group hw t _ _ h
      refine ⟨m, y, hy, hm, ?_⟩
      rw [decWalkStep_of_cont hw' hx, hwalk, show q - p = q - (p + 1) + 1 by omega, List.drop_succ_cons]
    | false =>
      simp only [vldFrom, hx, Bool.false_eq_true, if_false] at h
      obtain ⟨hv, hq⟩ := Prod.mk.inj (Except.ok.inj h)
      refine ⟨acc, x, hx, hv, ?_⟩
      rw [← hq, Nat.add_sub_cancel_left, List.drop_one, List.tail_cons]

/-- The walk through a group whose last nibble is missing. -/
theorem walkOutcome_of_truncated {w : DecWalk} (hw : w.ending = none) {e : ErrCode} :
    ∀ (r : List Nibble) (acc p : Nat), vldFrom r acc p = .error e →
      walkOutcome n { w with acc := acc } r p = ⟨.error e, p + r.length⟩
  | [], acc, p, h => by
    obtain rfl := Except.error.inj h
    exact walkOutcome_nil (by exact hw) p
  | x :: t, acc, p, h => by
    have hw' : DecWalk.ending { w with acc := acc } = none := hw
    cases hx : contBit x with
    | true =>
      rw [vldFrom, if_pos hx] at h
      rw [walkOutcome_cons hw', decWalkStep_of_cont hw' hx, walkOutcome_of_truncated hw t _ _ h, List.length_cons,
        Nat.add_right_comm, Nat.add_assoc]
    | false => simp [vldFrom, hx] at h

end

/-! ## One pass of the loop -/

/-- The loop of R260 before a pass. -/
def walkStart (n : Nat) (prev : Pixel) (out : List Pixel) : DecWalk :=
  { phase := if out.length < n then .run else .finished, acc := 0, out := out, prev := prev }

/-- The loop of R260 from position p on, as a walk. -/
def decodeFrom (l : List Nibble) (n p : Nat) (prev : Pixel) (out : List Pixel) : DecodeRun :=
  walkOutcome n (walkStart n prev out) (l.drop p) p

/-- The second half of a pass, from the code group at position p on. -/
def codeFrom (l : List Nibble) (n p : Nat) (prev : Pixel) (out : List Pixel) : DecodeRun :=
  walkOutcome n { phase := .code, acc := 0, out := out, prev := prev } (l.drop p) p

section
variable {l : List Nibble} {n p : Nat} {prev : Pixel} {out : List Pixel}

theorem walkStart_of_more (hmore : out.length < n) : walkStart n prev out = ⟨.run, 0, out, prev⟩ := by
  rw [walkStart, if_pos hmore]

theorem decodeFrom_of_full (hfull : ¬out.length < n) : decodeFrom l n p prev out = ⟨.ok out, p⟩ :=
  walkOutcome_of_ending (ending_of_finished (if_neg hfull)) _ _

theorem drop_add_length (hp : p ≤ l.length) : p + (l.drop p).length = l.length := by
  rw [List.length_drop, Nat.add_sub_cancel' hp]

theorem decodeFrom_of_truncated (hp : p ≤ l.length) (hmore : out.length < n) {e : ErrCode} (hrun : vld l p = .error e) :
    decodeFrom l n p prev out = ⟨.error e, l.length⟩ := by
  rw [decodeFrom, walkStart_of_more hmore, ← drop_add_length hp]
  exact walkOutcome_of_truncated (w := ⟨.run, 0, out, prev⟩) (ending_of_run rfl) _ 0 p hrun

theorem codeFrom_of_truncated (hp : p ≤ l.length) {e : ErrCode} (hcode : vld l p = .error e) :
    codeFrom l n p prev out = ⟨.error e, l.length⟩ := by
  rw [← drop_add_length hp]
  exact walkOutcome_of_truncated (w := ⟨.code, 0, out, prev⟩) (ending_of_code rfl) _ 0 p hcode

theorem drop_drop_sub {q : Nat} (h : p < q) : (l.drop p).drop (q - p) = l.drop q := by
  rw [List.drop_drop, Nat.add_sub_cancel' h.le]

/-- The run group of a pass: the overrun test, the zeros, and the code group if a pixel is still missing (R260). -/
theorem decodeFrom_of_run (hp : p ≤ l.length) (hmore : out.length < n) {run p1 : Nat} (hrun : vld l p = .ok (run, p1)) :
    decodeFrom l n p prev out =
      if n < out.length + run then ⟨.error .overrun, p1⟩
      else if out.length + run < n then codeFrom l n p1 prev (out ++ List.replicate run 0)
      else ⟨.ok (out ++ List.replicate run 0), p1⟩ := by
  obtain ⟨m, x, hx, hv, hwalk⟩ :=
    walkOutcome_of_group (n := n) (w := ⟨.run, 0, out, prev⟩) (ending_of_run rfl) _ 0 p hrun
  rw [drop_drop_sub (vld_pos hp hrun).1] at hwalk
  rw [decodeFrom, walkStart_of_more hmore]
  refine hwalk.trans ?_
  by_cases hover : n < out.length + run
  · rw [if_pos hover, decWalkStep_of_overrun (w := ⟨.run, m, out, prev⟩) hx hv rfl hover]
    exact walkOutcome_of_ending (ending_of_failed rfl) _ _
  · rw [if_neg hover, decWalkStep_of_run (w := ⟨.run, m, out, prev⟩) hx hv rfl hover]
    by_cases hcode : out.length + run < n
    · rw [if_pos hcode, if_pos hcode, codeFrom]
    · rw [if_neg hcode, if_neg hcode]
      exact walkOutcome_of_ending (ending_of_finished rfl) _ _

/-- The code group of a pass, with its range test (R260). -/
theorem codeFrom_of_code (hp : p ≤ l.length) {code p2 : Nat} (hcode : vld l p = .ok (code, p2)) :
    (∀ e, recon prev (unzz code) = .error e → codeFrom l n p prev out = ⟨.error e, p2⟩) ∧
    (∀ v, recon prev (unzz code) = .ok v → codeFrom l n p prev out = decodeFrom l n p2 v (out ++ [v])) := by
  obtain ⟨m, x, hx, hv, hwalk⟩ :=
    walkOutcome_of_group (n := n) (w := ⟨.code, 0, out, prev⟩) (ending_of_code rfl) _ 0 p hcode
  rw [drop_drop_sub (vld_pos hp hcode).1] at hwalk
  rw [codeFrom]
  refine ⟨fun e hbad => hwalk.trans ?_, fun v hok => hwalk.trans ?_⟩
  · rw [decWalkStep_of_bad_code (w := ⟨.code, m, out, prev⟩) hx hv rfl hbad]
    exact walkOutcome_of_ending (ending_of_failed rfl) _ _
  · rw [decWalkStep_of_code (w := ⟨.code, m, out, prev⟩) hx hv rfl hok, decodeFrom, walkStart, List.length_append,
      List.length_singleton]

end

/-! ## The loop is the walk -/

/-- The loop with a bound on its passes, when the bound is above the number of nibbles left (log 24). -/
theorem decodeLoop_eq_decodeFrom (l : List Nibble) (n : Nat) : ∀ (fuel p : Nat) (prev : Pixel) (out : List Pixel),
    p ≤ l.length → l.length < p + fuel → decodeLoop l n fuel p prev out = decodeFrom l n p prev out
  | 0, _, _, _, hp, hfuel => absurd hfuel (not_lt.mpr hp)
  | fuel + 1, p, prev, out, hp, hfuel => by
    rw [decodeLoop]
    split
    · next hmore =>
      cases hrun : vld l p with
      | error e => rw [decodeFrom_of_truncated hp hmore hrun]
      | ok group =>
        obtain ⟨run, p1⟩ := group
        obtain ⟨hlt1, hp1⟩ := vld_pos hp hrun
        simp only [decodeFrom_of_run hp hmore hrun, List.length_append, List.length_replicate]
        congr 2
        cases hcode : vld l p1 with
        | error e => rw [codeFrom_of_truncated hp1 hcode]
        | ok group =>
          obtain ⟨code, p2⟩ := group
          obtain ⟨hlt2, hp2⟩ := vld_pos hp1 hcode
          obtain ⟨hbad, hok⟩ := codeFrom_of_code (n := n) (prev := prev) (out := out ++ List.replicate run 0) hp1 hcode
          cases hrecon : recon prev (unzz code) with
          | error e => simp only [hrecon, hbad e hrecon]
          | ok v => simp only [hrecon, hok v hrecon, decodeLoop_eq_decodeFrom l n fuel p2 v _ hp2 (by omega)]
    · next hfull => rw [decodeFrom_of_full hfull]

theorem decodeRun_eq_decodeFrom (bytes : List Byte) (n : Nat) :
    decodeRun bytes n = decodeFrom (unpack bytes) n 0 0 [] :=
  decodeLoop_eq_decodeFrom _ n _ 0 0 [] (Nat.zero_le _) (by omega)

/-- RVL_Decode is the walk on the buffer's nibbles. -/
theorem decodeRun_eq_walkOutcome (bytes : List Byte) (n : Nat) :
    decodeRun bytes n = walkOutcome n (walkStart n 0 []) (unpack bytes) 0 := decodeRun_eq_decodeFrom bytes n

theorem exec_rvlDecode (bytes : List Byte) (count : Count) (s : State) :
    exec (.rvlDecode bytes count) s = .next { s with ret := decodeRet (decodeRun bytes count.toNat).result } := rfl

theorem exec_rvlDecode_ofNat (bytes : List Byte) {n : Nat} (hn : n < 2 ^ 32) (s : State) :
    exec (.rvlDecode bytes (BitVec.ofNat 32 n)) s = .next { s with ret := decodeRet (decodeRun bytes n).result } := by
  have hcount : (BitVec.ofNat 32 n).toNat = n := by rw [BitVec.toNat_ofNat, Nat.mod_eq_of_lt hn]
  rw [exec_rvlDecode, hcount]

/-- Settles O22: the loop's value is the walk's result, which one pass unfolds and no bound limits. -/
theorem rvlDecodeIsTheLoop : Obligations.RvlDecodeIsTheLoop := by
  refine ⟨fun l n p prev out => (decodeFrom l n p prev out).result, fun l n p prev out hp => ?_, fun bytes count s => ?_⟩
  · dsimp only
    by_cases hmore : out.length < n
    · rw [if_pos hmore]
      cases hrun : vld l p with
      | error e => rw [decodeFrom_of_truncated hp hmore hrun]
      | ok group =>
        obtain ⟨run, p1⟩ := group
        obtain ⟨-, hp1⟩ := vld_pos hp hrun
        rw [decodeFrom_of_run hp hmore hrun]
        by_cases hover : n < out.length + run
        · simp only [if_pos hover]
        by_cases hnext : out.length + run < n
        · simp only [if_neg hover, if_pos hnext]
          cases hcode : vld l p1 with
          | error e => rw [codeFrom_of_truncated hp1 hcode]
          | ok group =>
            obtain ⟨code, p2⟩ := group
            obtain ⟨hbad, hok⟩ := codeFrom_of_code (n := n) (prev := prev) (out := out ++ List.replicate run 0) hp1 hcode
            cases hrecon : recon prev (unzz code) with
            | error e => simp only [hrecon, hbad e hrecon]
            | ok v => simp only [hrecon, hok v hrecon]
        · simp only [if_neg hover, if_neg hnext]
          rw [decodeFrom_of_full (by simpa using hnext)]
    · rw [if_neg hmore, decodeFrom_of_full hmore]
  · rw [exec_rvlDecode, decodeRun_eq_decodeFrom]
    dsimp only
    cases (decodeFrom (unpack bytes) count.toNat 0 0 []).result <;> rfl

/-! ## Reading back an encoding -/

section
variable {l : List Nibble} {p v : Nat} {rest : List Nibble}

theorem vld_of_drop_eq (h : l.drop p = vle v ++ rest) : vld l p = .ok (v, p + octLen v) := by rw [vld, h, vldFrom_vle]

theorem drop_add_octLen (h : l.drop p = vle v ++ rest) : l.drop (p + octLen v) = rest := by
  rw [← List.drop_drop, h, ← vle_length v, List.drop_left]

end

/-- Where the encoding of some pixels begins, with `run` zeros counted before them, the loop delivers those zeros and
the pixels and stops at the encoding's end, whatever comes there (R266). -/
theorem decodeFrom_encodeNibs (l : List Nibble) (n : Nat) (rest : List Nibble) :
    ∀ (pixels : List Pixel) (prev : Pixel) (run : Nat) (out : List Pixel) (p : Nat), p ≤ l.length →
      l.drop p = encodeNibs prev run pixels ++ rest → out.length + run + pixels.length = n →
      decodeFrom l n p prev out =
        ⟨.ok (out ++ List.replicate run 0 ++ pixels), p + (encodeNibs prev run pixels).length⟩
  | [], prev, run, out, p, hp, hdrop, hn => by
    rw [List.length_nil, Nat.add_zero] at hn
    by_cases hrun : 0 < run
    · rw [encodeNibs, if_pos hrun] at hdrop ⊢
      rw [decodeFrom_of_run hp (by omega) (vld_of_drop_eq hdrop), if_neg (by omega), if_neg (by omega),
        List.append_nil, vle_length]
    · obtain rfl := Nat.eq_zero_of_not_pos hrun
      rw [decodeFrom_of_full (by omega)]
      simp [encodeNibs]
  | x :: t, prev, run, out, p, hp, hdrop, hn => by
    rw [List.length_cons] at hn
    by_cases hx : isZero x = true
    · obtain rfl : x = 0 := beq_iff_eq.mp hx
      rw [encodeNibs, if_pos hx] at hdrop ⊢
      rw [decodeFrom_encodeNibs l n rest t prev (run + 1) out p hp hdrop (by omega), List.replicate_succ']
      simp
    · rw [encodeNibs, if_neg hx] at hdrop ⊢
      simp only [List.append_assoc] at hdrop
      have hrun := vld_of_drop_eq hdrop
      have hdrop1 := drop_add_octLen hdrop
      have hp1 := (vld_pos hp hrun).2
      have hcode := vld_of_drop_eq hdrop1
      have hdrop2 := drop_add_octLen hdrop1
      have hp2 := (vld_pos hp1 hcode).2
      rw [decodeFrom_of_run hp (by omega) hrun, if_neg (by omega), if_pos (by omega),
        (codeFrom_of_code hp1 hcode).2 x (by rw [unzz_zz, recon_delta]),
        decodeFrom_encodeNibs l n rest t x 0 _ _ hp2 hdrop2 (by simp; omega)]
      simp [Nat.add_assoc]

theorem decodeRun_rvlEncode (pixels : List Pixel) :
    decodeRun (rvlEncode pixels) pixels.length = ⟨.ok pixels, (encodeNibs 0 0 pixels).length⟩ := by
  rw [decodeRun_eq_decodeFrom, rvlEncode, unpack_pack, decodeFrom_encodeNibs _ _ _ pixels 0 0 [] 0 (Nat.zero_le _) rfl
    (by simp)]
  simp

/-- Settles O49: the loop started at the encoding's first nibble, with the padding nibble as what comes after it. -/
theorem roundTripIsLossless : Obligations.RoundTripIsLossless := by
  intro pixels s hlen
  refine ⟨rvlEncode pixels, rfl, ?_, ?_⟩
  · rw [exec_rvlDecode_ofNat _ hlen, decodeRun_rvlEncode]
    rfl
  · rw [decodeRun_rvlEncode]

/-! ## A byte is missing -/

theorem encodeNibs_length_pos : ∀ (pixels : List Pixel) (prev : Pixel) (run : Nat), 0 < run + pixels.length →
    0 < (encodeNibs prev run pixels).length
  | [], prev, run, h => by
    rw [encodeNibs, if_pos (by simpa using h), vle_length]
    exact octLen_pos run
  | x :: t, prev, run, _ => by
    rw [encodeNibs]
    split
    · exact encodeNibs_length_pos t prev (run + 1) (by omega)
    · have hpos := octLen_pos run
      simp only [List.length_append, vle_length]
      omega

theorem exists_unpack_dropLast_append (bytes : List Byte) : ∃ rest, unpack bytes.dropLast ++ rest = unpack bytes := by
  rcases bytes.eq_nil_or_concat' with rfl | ⟨first, b, rfl⟩
  · exact ⟨[], rfl⟩
  · exact ⟨unpack [b], by rw [List.dropLast_concat, unpack_append]⟩

/-- Without its last byte, a buffer of which a nibble of that byte was read is too short (R267). -/
theorem decodeRun_dropLast {bytes : List Byte} {n : Nat} (h : 2 * (bytes.length - 1) < (decodeRun bytes n).pos) :
    (decodeRun bytes.dropLast n).result = .error .truncated := by
  obtain ⟨rest, hsplit⟩ := exists_unpack_dropLast_append bytes
  rw [decodeRun_eq_walkOutcome, ← hsplit] at h
  rw [decodeRun_eq_walkOutcome, walkOutcome_of_pos_lt _ _ _ _ (by simpa using h)]

/-- Settles O50: the decoder reads every nibble of an encoding, so at least one of its last byte. -/
theorem truncationIsDetected : Obligations.TruncationIsDetected := by
  intro pixels s hne hlen
  have hpos := encodeNibs_length_pos pixels 0 0 (by rw [Nat.zero_add]; exact List.length_pos_of_ne_nil hne)
  refine ⟨rvlEncode pixels, rfl, ?_⟩
  rw [exec_rvlDecode_ofNat _ hlen, decodeRun_dropLast]
  · rfl
  · rw [decodeRun_rvlEncode, rvlEncode, pack_length]
    dsimp only
    omega

end Sys2Proof.Machine
end

section
/-! The decoder's invariant (R280). Each change that a step can make to DEC keeps `DecInv`: a nibble read is one step of
the walk, the checks at the ends of the groups are the walk's, and a pixel delivered is one the walk has output. -/

namespace Sys2Proof.Machine

open Sys2Proof

/-! ## The invariant, state by state -/

/-- The part of `DecInv` that every state has: D_BYTES_IN counts the bytes taken (R28). -/
def DecCounted (s : State) : Prop :=
  s.dec.bytesIn.toNat = s.host.decSent.length ∧ s.host.decSent.length ≤ s.dec.len.toNat

/-- The part of `DecInv` that the states before DRAIN have: no error, the unpacker's position, and D_PRODUCED. -/
structure DecReading (s : State) : Prop where
  counted : DecCounted s
  err : s.dec.err = none
  unpacker : unpackerAt s
  produced : s.dec.produced.toNat = (decDelivered s).length

section
variable {s : State}

theorem decReading_iff :
    DecReading s ↔ DecCounted s ∧ s.dec.err = none ∧ unpackerAt s ∧ s.dec.produced.toNat = (decDelivered s).length :=
  ⟨fun ⟨hc, he, hu, hp⟩ => ⟨hc, he, hu, hp⟩, fun ⟨hc, he, hu, hp⟩ => ⟨hc, he, hu, hp⟩⟩

theorem decInv_idle (hs : s.dec.state = .idle) :
    DecInv s ↔ DecCounted s ∧
      s.host.decSent = [] ∧ s.host.decGot = [] ∧ s.dec.poValid = false ∧ s.dec.err = none := by
  simp only [DecInv, DecCounted, hs, and_assoc]

theorem decInv_runGroup (hs : s.dec.state = .runGroup) :
    DecInv s ↔ DecReading s ∧ (decRead s).phase = .run ∧ accHolds s.dec (decRead s).acc ∧
      s.dec.prev = (decRead s).prev ∧ (decRead s).out = decDelivered s := by
  simp only [DecInv, decReading_iff, DecCounted, hs]
  tauto

theorem decInv_emitZeros (hs : s.dec.state = .emitZeros) :
    DecInv s ↔ DecReading s ∧
      (decRead s).phase = (if (decRead s).out.length < s.dec.count.toNat then .code else .finished) ∧
      (decRead s).acc = 0 ∧ s.dec.prev = (decRead s).prev ∧
      (decRead s).out = decDelivered s ++ List.replicate s.dec.zrem.toNat 0 ∧
      (decRead s).out.length ≤ s.dec.count.toNat := by
  simp only [DecInv, decReading_iff, DecCounted, hs]
  tauto

theorem decInv_codeGroup (hs : s.dec.state = .codeGroup) :
    DecInv s ↔ DecReading s ∧ (decRead s).phase = .code ∧ accHolds s.dec (decRead s).acc ∧
      s.dec.prev = (decRead s).prev ∧ (decRead s).out = decDelivered s ∧
      (decRead s).out.length < s.dec.count.toNat := by
  simp only [DecInv, decReading_iff, DecCounted, hs]
  tauto

theorem decInv_emitValue (hs : s.dec.state = .emitValue) :
    DecInv s ↔ DecReading s ∧
      (decRead s).phase = (if (decRead s).out.length < s.dec.count.toNat then .run else .finished) ∧
      (decRead s).acc = 0 ∧ s.dec.val = (decRead s).prev ∧ s.dec.prev = (decRead s).prev ∧
      (decRead s).out = decDelivered s ++ [s.dec.val] ∧ (decRead s).out.length ≤ s.dec.count.toNat := by
  simp only [DecInv, decReading_iff, DecCounted, hs]
  tauto

theorem decInv_drain (hs : s.dec.state = .drain) : DecInv s ↔ DecCounted s ∧ decEnded s := by
  simp only [DecInv, DecCounted, hs, and_assoc]

theorem decInv_done (hs : s.dec.state = .done) :
    DecInv s ↔ DecCounted s ∧ decEnded s ∧ s.dec.err = none ∧ s.dec.bytesIn = s.dec.len ∧ s.dec.poValid = false := by
  simp only [DecInv, DecCounted, hs, and_assoc]

theorem decInv_error (hs : s.dec.state = .error) :
    DecInv s ↔ DecCounted s ∧ decEnded s ∧ s.dec.err ≠ none ∧ s.dec.bytesIn = s.dec.len ∧ s.dec.poValid = false := by
  simp only [DecInv, DecCounted, hs, and_assoc]

end

/-! ## How decoding ends -/

section
variable {s : State}

/-- A byte is taken: D_BYTES_IN counts it, and it is one of the D_LEN bytes (R151, R152). -/
theorem DecCounted.byteTaken (h : DecCounted s) (hlt : s.dec.bytesIn < s.dec.len) (b : Byte) :
    (s.dec.bytesIn + 1).toNat = (s.host.decSent ++ [b]).length ∧ (s.host.decSent ++ [b]).length ≤ s.dec.len.toNat := by
  obtain ⟨hbytes, -⟩ := h
  have hlt' := BitVec.lt_def.mp hlt
  rw [toNat_add_one_of_lt hlt, List.length_append, List.length_singleton]
  omega

theorem DecCounted.all_taken (h : DecCounted s) (hend : ¬s.dec.bytesIn < s.dec.len) : s.dec.bytesIn = s.dec.len := by
  obtain ⟨hbytes, hlen⟩ := h
  rw [BitVec.lt_def] at hend
  exact BitVec.eq_of_toNat_eq (by omega)

theorem DecReading.nibbles_le (h : DecReading s) : s.dec.nibbles.toNat ≤ 2 * s.host.decSent.length := by
  obtain ⟨hcount, -⟩ := h.unpacker
  omega

/-- Decoding ends without an error: every pixel is delivered (R273, R276). -/
theorem DecReading.finished (h : DecReading s) (hphase : (decRead s).phase = .finished)
    (hout : (decRead s).out = decDelivered s) : decEnded s := by
  refine ⟨h.nibbles_le, by rw [hout, h.produced], ?_⟩
  rw [h.err]
  exact ⟨hphase, hout⟩

/-- The group's value is refused: `e` is raised where the walk fails with it (R272, R275, R331). -/
theorem DecReading.failed (h : DecReading s) {e : ErrCode} (he : e ≠ .truncated) (hphase : (decRead s).phase = .failed e)
    (hout : (decRead s).out = decDelivered s) : DecInv { s with dec := raiseDecode e s.dec } := by
  rw [decInv_drain rfl]
  refine ⟨h.counted, h.nibbles_le, h.produced.trans (congrArg List.length hout.symm), ?_⟩
  cases e with
  | truncated => exact absurd rfl he
  | overrun => exact ⟨hphase, rfl⟩
  | outOfRange => exact ⟨hphase, rfl⟩

/-- The buffer ends inside a group (R270, R274, R331). -/
theorem DecReading.truncated (h : DecReading s) (hreads : (decRead s).ending = none)
    (hout : (decRead s).out = decDelivered s) (hlo : s.dec.loPend = false) (hend : ¬s.dec.bytesIn < s.dec.len) :
    DecInv { s with dec := raiseDecode .truncated s.dec } := by
  rw [decInv_drain rfl]
  refine ⟨h.counted, h.nibbles_le, h.produced.trans (congrArg List.length hout.symm), ending_eq_none.mp hreads, ?_, rfl⟩
  obtain ⟨hbytes, -⟩ := h.counted
  obtain ⟨hcount, -⟩ := h.unpacker
  rw [hlo, if_neg Bool.false_ne_true, ← hbytes, h.counted.all_taken hend] at hcount
  exact hcount

end

/-! ## One nibble read -/

/-- DEC after a nibble is read, t, is s with x as the next nibble of the walk; what the walk makes of it is not yet
acted on (R151, R171). -/
structure NibbleRead (x : Nibble) (s t : State) : Prop where
  reading : DecReading t
  state : t.dec.state = s.dec.state
  count : t.dec.count = s.dec.count
  prev : t.dec.prev = s.dec.prev
  acc : ∀ v, accHolds s.dec v → accHolds t.dec (v * 8 + (payload x).toNat)
  delivered : decDelivered t = decDelivered s
  nibbles : t.dec.nibbles.toNat = s.dec.nibbles.toNat + 1
  taken : unpack s.host.decSent <+: unpack t.host.decSent
  next : (unpack t.host.decSent)[s.dec.nibbles.toNat]? = some x

/-- The state after the pending low nibble is read (R151). -/
def lowReadOf (s : State) : State := { s with dec := vldStep s.dec.lo { s.dec with loPend := false } }

/-- The state after byte b is taken and its high nibble read (R151). -/
def highReadOf (b : Byte) (s : State) : State :=
  { s with
    dec := vldStep (hiNibble b) { s.dec with bytesIn := s.dec.bytesIn + 1, lo := loNibble b, loPend := true }
    host := { s.host with decOffer := none, decSent := s.host.decSent ++ [b] } }

section
variable {s t : State} {x : Nibble}

/-- D_NIBBLES does not wrap while there are nibbles of D_LEN bytes to read (R28). -/
theorem nibbles_add_one {a : BitVec 35} {len : Length} (h : a.toNat < 2 * len.toNat) : (a + 1).toNat = a.toNat + 1 := by
  have hlen := len.isLt
  rw [toNat_add_one, Nat.mod_eq_of_lt (by omega)]

theorem DecReading.lowRead (h : DecReading s) (hlo : s.dec.loPend = true) : NibbleRead s.dec.lo s (lowReadOf s) := by
  obtain ⟨hcounted, herr, ⟨hcount, hnext⟩, hproduced⟩ := h
  have ⟨hbytes, hlen⟩ := hcounted
  rw [hlo, if_pos rfl] at hcount
  have hnibbles : (s.dec.nibbles + 1).toNat = s.dec.nibbles.toNat + 1 := nibbles_add_one (len := s.dec.len) (by omega)
  refine ⟨⟨hcounted, herr, ⟨?_, Bool.noConfusion⟩, hproduced⟩, rfl, rfl, rfl,
    fun v hv => accHolds_vldStep _ hv, rfl, hnibbles, List.prefix_rfl, hnext hlo⟩
  change (s.dec.nibbles + 1).toNat + 0 = _
  rw [hnibbles, Nat.add_zero, hcount]
  rfl

theorem DecReading.highRead (h : DecReading s) (hlo : s.dec.loPend = false) (hlt : s.dec.bytesIn < s.dec.len) (b : Byte) :
    NibbleRead (hiNibble b) s (highReadOf b s) := by
  obtain ⟨hcounted, herr, ⟨hcount, -⟩, hproduced⟩ := h
  have ⟨hbytes, hlen⟩ := hcounted
  have hlt' := BitVec.lt_def.mp hlt
  rw [hlo, if_neg Bool.false_ne_true, Nat.add_zero] at hcount
  have hnibbles : (s.dec.nibbles + 1).toNat = s.dec.nibbles.toNat + 1 := nibbles_add_one (len := s.dec.len) (by omega)
  have hsent : unpack (s.host.decSent ++ [b]) = unpack s.host.decSent ++ [hiNibble b, loNibble b] := unpack_append _ _
  have hlength : s.dec.nibbles.toNat = (unpack s.host.decSent).length := by rw [hcount, unpack_length]
  refine ⟨⟨hcounted.byteTaken hlt b, herr, ⟨?_, fun _ => ?_⟩, hproduced⟩, rfl, rfl, rfl,
    fun v hv => accHolds_vldStep _ hv, rfl, hnibbles, ?_, ?_⟩
  · change (s.dec.nibbles + 1).toNat + 1 = 2 * (s.host.decSent ++ [b]).length
    rw [List.length_append, List.length_singleton]
    omega
  · change (unpack (s.host.decSent ++ [b]))[(s.dec.nibbles + 1).toNat]? = some (loNibble b)
    rw [hnibbles, hsent, hlength]
    simp
  · change unpack s.host.decSent <+: unpack (s.host.decSent ++ [b])
    rw [hsent]
    exact List.prefix_append _ _
  · change (unpack (s.host.decSent ++ [b]))[s.dec.nibbles.toNat]? = some (hiNibble b)
    rw [hsent, hlength]
    simp

/-- The nibbles read before stay the first ones. -/
theorem NibbleRead.take_eq (hr : NibbleRead x s t) (h : DecReading s) {k : Nat} (hk : k ≤ s.dec.nibbles.toNat) :
    (unpack t.host.decSent).take k = (unpack s.host.decSent).take k := by
  obtain ⟨more, hmore⟩ := hr.taken
  have hle := h.nibbles_le
  rw [← hmore, List.take_append_of_le_length (by rw [unpack_length]; omega)]

theorem NibbleRead.decRead_eq (hr : NibbleRead x s t) (h : DecReading s) :
    decRead t = decWalkStep s.dec.count.toNat (decRead s) x := by
  rw [decRead, hr.nibbles, List.take_add_one, hr.next, hr.take_eq h le_rfl, hr.count]
  exact decWalk_append _ _ _

end

/-! ## The ends of groups -/

/-- RECON has the one error (R213). -/
theorem recon_error {prev : Pixel} {d : Int} {e : ErrCode} (h : recon prev d = .error e) : e = .outOfRange := by
  simp only [recon] at h
  split at h
  · exact (Except.error.inj h).symm
  · cases h


section
variable {d : Dec} {v : Nat}

/-- What the accumulator holds passes the two checks as the group's value does (R173). -/
theorem accHolds.overruns_iff (h : accHolds d v) :
    (d.ovf = true ∨ d.count.toNat < d.produced.toNat + d.acc.toNat) ↔ d.count.toNat < d.produced.toNat + v := by
  obtain ⟨hovf, hacc⟩ := accHolds_iff.mp h
  have hcount := d.count.isLt
  cases hd : d.ovf with
  | true =>
    have hbig := hovf.mp hd
    simp only [true_or, true_iff]
    omega
  | false => simp [hacc hd]

theorem accHolds.ovf_eq_false (h : accHolds d v) (hv : v < 2 ^ 32) : d.ovf = false :=
  Bool.eq_false_iff.mpr fun hd => not_le.mpr hv ((accHolds_iff.mp h).1.mp hd)

theorem accHolds.rangeCheck_bad (h : accHolds d v) {e : ErrCode} (hbad : recon d.prev (unzz v) = .error e) :
    rangeCheck d = raiseDecode .outOfRange d := by
  refine rangeCheck_of_bad ?_
  cases hd : d.ovf with
  | true => exact .inl rfl
  | false =>
    rw [(accHolds_iff.mp h).2 hd]
    exact .inr (recon_error hbad ▸ hbad)

theorem accHolds.rangeCheck_ok (h : accHolds d v) {q : Pixel} (hok : recon d.prev (unzz v) = .ok q) :
    rangeCheck d = { d with val := q, prev := q, state := .emitValue } := by
  have hd : d.ovf = false := h.ovf_eq_false (not_le.mp fun hbig => by simp [recon_of_big _ hbig] at hok)
  exact rangeCheck_of_ok hd ((accHolds_iff.mp h).2 hd ▸ hok)

end

section
variable {s t : State} {x : Nibble}

/-- Inside a group the accumulator takes in the digit, and nothing else happens (R270, R274). -/
theorem DecInv.groupGoesOn (h : DecInv s) (hs : s.dec.state = .runGroup ∨ s.dec.state = .codeGroup)
    (hr : NibbleRead x s t) (hx : contBit x = true) : DecInv t := by
  rcases hs with hs | hs
  · obtain ⟨hread, hphase, hacc, hprev, hout⟩ := (decInv_runGroup hs).mp h
    rw [decInv_runGroup (hr.state.trans hs), hr.decRead_eq hread, decWalkStep_of_cont (ending_of_run hphase) hx, hr.prev,
      hr.delivered]
    exact ⟨hr.reading, hphase, hr.acc _ hacc, hprev, hout⟩
  · obtain ⟨hread, hphase, hacc, hprev, hout, hmore⟩ := (decInv_codeGroup hs).mp h
    rw [decInv_codeGroup (hr.state.trans hs), hr.decRead_eq hread, decWalkStep_of_cont (ending_of_code hphase) hx, hr.prev,
      hr.delivered, hr.count]
    exact ⟨hr.reading, hphase, hr.acc _ hacc, hprev, hout, hmore⟩

/-- The last nibble of a run group: OVERRUN_CHECK tests what the loop tests (R270, R272). -/
theorem DecInv.runGroupEnds (h : DecInv s) (hs : s.dec.state = .runGroup) (hr : NibbleRead x s t)
    (hx : contBit x = false) : DecInv { t with dec := overrunCheck t.dec } := by
  obtain ⟨hread, hphase, hacc, hprev, hout⟩ := (decInv_runGroup hs).mp h
  have hwalk := hr.decRead_eq hread
  have hacc' := hr.acc _ hacc
  generalize hv : (decRead s).acc * 8 + (payload x).toNat = v at hacc'
  have hproduced : t.dec.produced.toNat = (decRead s).out.length := by rw [hr.reading.produced, hr.delivered, hout]
  have hiff := hacc'.overruns_iff
  rw [hproduced, hr.count] at hiff
  by_cases hover : s.dec.count.toNat < (decRead s).out.length + v
  · rw [decWalkStep_of_overrun hx hv hphase hover] at hwalk
    rw [overrunCheck_of_overrun (hproduced ▸ hr.count ▸ hiff.mpr hover)]
    exact hr.reading.failed ErrCode.noConfusion (by rw [hwalk]) (by rw [hwalk, hr.delivered, hout])
  · rw [decWalkStep_of_run hx hv hphase hover] at hwalk
    obtain ⟨hovf, hfits⟩ := not_or.mp (mt hiff.mp hover)
    have hovf := Bool.eq_false_iff.mpr hovf
    rw [overrunCheck_of_fits hovf (hproduced ▸ hr.count ▸ hfits), decInv_emitZeros rfl]
    obtain ⟨hcounted, herr, hunpacker, hproduced'⟩ := hr.reading
    refine ⟨⟨hcounted, herr, hunpacker, hproduced'⟩, ?_⟩
    change (decRead t).phase = (if (decRead t).out.length < t.dec.count.toNat then .code else .finished) ∧
      (decRead t).acc = 0 ∧ t.dec.prev = (decRead t).prev ∧
      (decRead t).out = decDelivered t ++ List.replicate t.dec.acc.toNat 0 ∧ (decRead t).out.length ≤ t.dec.count.toNat
    rw [hwalk, hr.count, hr.prev, hr.delivered, hout, (accHolds_iff.mp hacc').2 hovf]
    rw [hout] at hover
    rw [List.length_append, List.length_replicate]
    exact ⟨rfl, rfl, hprev, rfl, not_lt.mp hover⟩

/-- The last nibble of a code group: RANGE_CHECK tests what the loop tests (R274, R275). -/
theorem DecInv.codeGroupEnds (h : DecInv s) (hs : s.dec.state = .codeGroup) (hr : NibbleRead x s t)
    (hx : contBit x = false) : DecInv { t with dec := rangeCheck t.dec } := by
  obtain ⟨hread, hphase, hacc, hprev, hout, hmore⟩ := (decInv_codeGroup hs).mp h
  have hwalk := hr.decRead_eq hread
  have hacc' := hr.acc _ hacc
  generalize hv : (decRead s).acc * 8 + (payload x).toNat = v at hacc'
  have hprev' : t.dec.prev = (decRead s).prev := hr.prev.trans hprev
  cases hrecon : recon (decRead s).prev (unzz v) with
  | error e =>
    obtain rfl := recon_error hrecon
    rw [decWalkStep_of_bad_code hx hv hphase hrecon] at hwalk
    rw [hacc'.rangeCheck_bad (hprev' ▸ hrecon)]
    exact hr.reading.failed ErrCode.noConfusion (by rw [hwalk]) (by rw [hwalk, hr.delivered, hout])
  | ok q =>
    rw [decWalkStep_of_code hx hv hphase hrecon] at hwalk
    rw [hacc'.rangeCheck_ok (hprev' ▸ hrecon), decInv_emitValue rfl]
    obtain ⟨hcounted, herr, hunpacker, hproduced⟩ := hr.reading
    refine ⟨⟨hcounted, herr, hunpacker, hproduced⟩, ?_⟩
    change (decRead t).phase = (if (decRead t).out.length < t.dec.count.toNat then .run else .finished) ∧
      (decRead t).acc = 0 ∧ q = (decRead t).prev ∧ q = (decRead t).prev ∧ (decRead t).out = decDelivered t ++ [q] ∧
      (decRead t).out.length ≤ t.dec.count.toNat
    rw [hwalk, hr.count, hr.delivered, hout]
    rw [hout] at hmore
    rw [List.length_append, List.length_singleton]
    exact ⟨rfl, rfl, rfl, rfl, rfl, hmore⟩

/-- A group step keeps the invariant when what it does at the group's last nibble does (R270, R274). -/
theorem DecInv.groupStep (h : DecInv s) (hs : s.dec.state = .runGroup ∨ s.dec.state = .codeGroup)
    {finish : Dec → Dec}
    (hfinish : ∀ t x, NibbleRead x s t → contBit x = false → DecInv { t with dec := finish t.dec }) :
    DecInv (groupStep finish s) := by
  obtain ⟨hread, hreads, hout⟩ : DecReading s ∧ (decRead s).ending = none ∧ (decRead s).out = decDelivered s := by
    rcases hs with hs | hs
    · obtain ⟨hread, hphase, -, -, hout⟩ := (decInv_runGroup hs).mp h
      exact ⟨hread, ending_of_run hphase, hout⟩
    · obtain ⟨hread, hphase, -, -, hout, -⟩ := (decInv_codeGroup hs).mp h
      exact ⟨hread, ending_of_code hphase, hout⟩
  have hafter (t : State) (x : Nibble) (hr : NibbleRead x s t) :
      DecInv { t with dec := if vldDone x then finish t.dec else t.dec } := by
    cases hx : contBit x with
    | true => simpa [vldDone, hx] using h.groupGoesOn hs hr hx
    | false => simpa [vldDone, hx] using hfinish t x hr hx
  rcases groupStep_cases finish s with ⟨h', -⟩ | ⟨hlo, hend, h'⟩ | ⟨hlo, h'⟩ | ⟨hlo, hlt, b, -, h'⟩ <;> rw [h']
  · exact h
  · exact hread.truncated hreads hout hlo hend
  · exact hafter _ _ (hread.lowRead hlo)
  · exact hafter _ _ (hread.highRead hlo hlt b)

end

/-! ## Delivering -/

/-- The state after pixel v is put into PO and counted (R273, R276). -/
def pixelPutOf (v : Pixel) (s : State) : State :=
  { s with dec := { s.dec with po := v, poValid := true, produced := s.dec.produced + 1 } }

section
variable {s : State}

theorem decDelivered_pixelPutOf (hroom : s.dec.poValid = false) (v : Pixel) :
    decDelivered (pixelPutOf v s) = decDelivered s ++ [v] := by
  simp [decDelivered, pixelPutOf, hroom]

/-- A pixel that the loop has output and DEC still owes is delivered. -/
theorem DecReading.pixelPut (h : DecReading s) (hroom : s.dec.poValid = false)
    (hlt : (decDelivered s).length < s.dec.count.toNat) (v : Pixel) : DecReading (pixelPutOf v s) := by
  obtain ⟨hcounted, herr, hunpacker, hproduced⟩ := h
  refine ⟨hcounted, herr, hunpacker, ?_⟩
  rw [decDelivered_pixelPutOf hroom, List.length_append, List.length_singleton, ← hproduced]
  exact toNat_add_one_of_lt (BitVec.lt_def.mpr (hproduced ▸ hlt))

theorem DecInv.zeroDelivered (h : DecInv s) (hs : s.dec.state = .emitZeros) (hz : s.dec.zrem ≠ 0)
    (hroom : s.dec.poValid = false) :
    DecInv { s with
      dec := { s.dec with po := 0, poValid := true, produced := s.dec.produced + 1, zrem := s.dec.zrem - 1 } } := by
  obtain ⟨hread, hphase, hacc, hprev, hout, hle⟩ := (decInv_emitZeros hs).mp h
  have hzrem : s.dec.zrem.toNat = (s.dec.zrem - 1).toNat + 1 := by bv_omega
  have hlt : (decDelivered s).length < s.dec.count.toNat := by
    rw [hout, List.length_append, List.length_replicate] at hle
    omega
  obtain ⟨hcounted, herr, hunpacker, hproduced⟩ := hread.pixelPut hroom hlt 0
  rw [decInv_emitZeros (by exact hs)]
  refine ⟨⟨hcounted, herr, hunpacker, hproduced⟩, hphase, hacc, hprev, ?_, hle⟩
  change (decRead s).out = decDelivered (pixelPutOf 0 s) ++ List.replicate (s.dec.zrem - 1).toNat 0
  rw [hout, decDelivered_pixelPutOf hroom, hzrem, List.replicate_succ, List.append_assoc, List.singleton_append]

/-- With no zero left the loop's output is delivered, and D_PRODUCED compares with the count as its length does. -/
theorem DecInv.zeros_delivered (h : DecInv s) (hs : s.dec.state = .emitZeros) (hz : s.dec.zrem = 0) :
    (decRead s).out = decDelivered s ∧
      (s.dec.produced < s.dec.count ↔ (decRead s).out.length < s.dec.count.toNat) := by
  obtain ⟨hread, -, -, -, hout, -⟩ := (decInv_emitZeros hs).mp h
  have hall : (decRead s).out = decDelivered s := by simpa [hz] using hout
  exact ⟨hall, by rw [BitVec.lt_def, hread.produced, hall]⟩

theorem DecInv.codeStarted (h : DecInv s) (hs : s.dec.state = .emitZeros) (hz : s.dec.zrem = 0)
    (hlt : s.dec.produced < s.dec.count) :
    DecInv { s with dec := { s.dec with acc := 0, ovf := false, state := .codeGroup } } := by
  obtain ⟨hall, hiff⟩ := h.zeros_delivered hs hz
  obtain ⟨⟨hcounted, herr, hunpacker, hproduced⟩, hphase, hacc, hprev, -, -⟩ := (decInv_emitZeros hs).mp h
  have hmore := hiff.mp hlt
  rw [if_pos hmore] at hphase
  rw [decInv_codeGroup rfl]
  exact ⟨⟨hcounted, herr, hunpacker, hproduced⟩, hphase, hacc.symm, hprev, hall, hmore⟩

theorem DecInv.zerosEnd (h : DecInv s) (hs : s.dec.state = .emitZeros) (hz : s.dec.zrem = 0)
    (hend : ¬s.dec.produced < s.dec.count) : DecInv { s with dec := { s.dec with state := .drain } } := by
  obtain ⟨hall, hiff⟩ := h.zeros_delivered hs hz
  obtain ⟨hread, hphase, -⟩ := (decInv_emitZeros hs).mp h
  rw [if_neg (mt hiff.mpr hend)] at hphase
  rw [decInv_drain rfl]
  exact ⟨hread.counted, hread.finished hphase hall⟩

/-- The value is delivered: what the loop has output is, and the count after it compares as the output's length does. -/
theorem DecInv.value_delivered (h : DecInv s) (hs : s.dec.state = .emitValue) (hroom : s.dec.poValid = false) :
    DecReading (pixelPutOf s.dec.val s) ∧ (decRead s).out = decDelivered (pixelPutOf s.dec.val s) ∧
      (s.dec.produced + 1 < s.dec.count ↔ (decRead s).out.length < s.dec.count.toNat) := by
  obtain ⟨hread, -, -, -, -, hout, hle⟩ := (decInv_emitValue hs).mp h
  have hlt : (decDelivered s).length < s.dec.count.toNat := by
    rw [hout, List.length_append, List.length_singleton] at hle
    omega
  have hput := hread.pixelPut hroom hlt s.dec.val
  have hall : (decRead s).out = decDelivered (pixelPutOf s.dec.val s) := by rw [hout, decDelivered_pixelPutOf hroom]
  have hproduced : (s.dec.produced + 1).toNat = (decRead s).out.length := by rw [hall, ← hput.produced]; rfl
  exact ⟨hput, hall, by rw [BitVec.lt_def, hproduced]⟩

theorem DecInv.runStarted (h : DecInv s) (hs : s.dec.state = .emitValue) (hroom : s.dec.poValid = false)
    (hlt : s.dec.produced + 1 < s.dec.count) :
    DecInv { s with
      dec :=
        { s.dec with
          po := s.dec.val, poValid := true, produced := s.dec.produced + 1, acc := 0, ovf := false,
          state := .runGroup } } := by
  obtain ⟨⟨hcounted, herr, hunpacker, hproduced⟩, hall, hiff⟩ := h.value_delivered hs hroom
  obtain ⟨-, hphase, hacc, -, hprev, -⟩ := (decInv_emitValue hs).mp h
  rw [if_pos (hiff.mp hlt)] at hphase
  rw [decInv_runGroup rfl]
  exact ⟨⟨hcounted, herr, hunpacker, hproduced⟩, hphase, hacc.symm, hprev, hall⟩

theorem DecInv.valueEnds (h : DecInv s) (hs : s.dec.state = .emitValue) (hroom : s.dec.poValid = false)
    (hend : ¬s.dec.produced + 1 < s.dec.count) :
    DecInv { s with
      dec := { s.dec with po := s.dec.val, poValid := true, produced := s.dec.produced + 1, state := .drain } } := by
  obtain ⟨hput, hall, hiff⟩ := h.value_delivered hs hroom
  obtain ⟨-, hphase, -⟩ := (decInv_emitValue hs).mp h
  rw [if_neg (mt hiff.mpr hend)] at hphase
  rw [decInv_drain rfl]
  exact ⟨hput.counted, hput.finished hphase hall⟩

end

/-! ## Draining, and the host's takes -/

/-- The state after byte b is taken and dropped (R152). -/
def byteDroppedOf (b : Byte) (s : State) : State :=
  { s with
    dec := { s.dec with bytesIn := s.dec.bytesIn + 1 }
    host := { s.host with decOffer := none, decSent := s.host.decSent ++ [b] } }

/-- The state after the host takes the pixel in PO (R311). -/
def pixelTakenOf (s : State) : State :=
  { s with
    dec := { s.dec with poValid := false }
    host := { s.host with decGot := s.host.decGot ++ [s.dec.po] } }

section
variable {s : State}

/-- The nibbles read are those of the bytes before the dropped one. -/
theorem decRead_byteDroppedOf (h : s.dec.nibbles.toNat ≤ 2 * s.host.decSent.length) (b : Byte) :
    decRead (byteDroppedOf b s) = decRead s := by
  change decWalk s.dec.count.toNat ((unpack (s.host.decSent ++ [b])).take s.dec.nibbles.toNat) = decRead s
  rw [unpack_append, List.take_append_of_le_length (by rwa [unpack_length]), decRead]

theorem DecInv.byteDropped (h : DecInv s) (hs : s.dec.state = .drain) (hlt : s.dec.bytesIn < s.dec.len) (b : Byte) :
    DecInv (byteDroppedOf b s) := by
  obtain ⟨hcounted, hle, hproduced, hend⟩ := (decInv_drain hs).mp h
  rw [decInv_drain (by exact hs)]
  refine ⟨hcounted.byteTaken hlt b, ?_⟩
  unfold decEnded
  rw [decRead_byteDroppedOf hle]
  refine ⟨?_, hproduced, hend⟩
  change s.dec.nibbles.toNat ≤ 2 * (s.host.decSent ++ [b]).length
  rw [List.length_append]
  omega

/-- Every byte is taken and every pixel delivered: DONE or ERROR, by D_ERR (R278). -/
theorem DecInv.drained (h : DecInv s) (hs : s.dec.state = .drain) (hend : ¬s.dec.bytesIn < s.dec.len)
    (hroom : s.dec.poValid = false) :
    DecInv { s with dec := { s.dec with state := if s.dec.err = none then .done else .error } } := by
  obtain ⟨hcounted, hended⟩ := (decInv_drain hs).mp h
  have hall := hcounted.all_taken hend
  by_cases herr : s.dec.err = none
  · rw [decInv_done (by exact if_pos herr)]
    exact ⟨hcounted, hended, herr, hall, hroom⟩
  · rw [decInv_error (by exact if_neg herr)]
    exact ⟨hcounted, hended, herr, hall, hroom⟩

theorem decDelivered_pixelTakenOf (hv : s.dec.poValid = true) : decDelivered (pixelTakenOf s) = decDelivered s := by
  simp [decDelivered, pixelTakenOf, hv]

theorem DecReading.pixelTaken (h : DecReading s) (hv : s.dec.poValid = true) : DecReading (pixelTakenOf s) := by
  obtain ⟨hcounted, herr, hunpacker, hproduced⟩ := h
  exact ⟨hcounted, herr, hunpacker, by rw [decDelivered_pixelTakenOf hv]; exact hproduced⟩

/-- An error withdraws the pixel in PO (R331), so none is there to take. -/
theorem decEnded_err (h : decEnded s) (hv : s.dec.poValid = true) : s.dec.err = none := by
  obtain ⟨-, -, hend⟩ := h
  cases herr : s.dec.err with
  | none => rfl
  | some e => cases e <;> simp [herr, hv] at hend

theorem decEnded_pixelTakenOf (h : decEnded s) (hv : s.dec.poValid = true) : decEnded (pixelTakenOf s) := by
  have herr := decEnded_err h hv
  have herr' : (pixelTakenOf s).dec.err = none := herr
  unfold decEnded at h ⊢
  rw [herr] at h
  rw [herr', decDelivered_pixelTakenOf hv]
  exact h

theorem DecInv.pixelTaken (h : DecInv s) (hv : s.dec.poValid = true) : DecInv (pixelTakenOf s) := by
  have hdelivered := decDelivered_pixelTakenOf hv
  cases hs : s.dec.state with
  | idle =>
    obtain ⟨-, -, -, hpo, -⟩ := (decInv_idle hs).mp h
    simp [hpo] at hv
  | runGroup =>
    rw [decInv_runGroup (by exact hs), hdelivered]
    obtain ⟨hread, hrest⟩ := (decInv_runGroup hs).mp h
    exact ⟨hread.pixelTaken hv, hrest⟩
  | emitZeros =>
    rw [decInv_emitZeros (by exact hs), hdelivered]
    obtain ⟨hread, hrest⟩ := (decInv_emitZeros hs).mp h
    exact ⟨hread.pixelTaken hv, hrest⟩
  | codeGroup =>
    rw [decInv_codeGroup (by exact hs), hdelivered]
    obtain ⟨hread, hrest⟩ := (decInv_codeGroup hs).mp h
    exact ⟨hread.pixelTaken hv, hrest⟩
  | emitValue =>
    rw [decInv_emitValue (by exact hs), hdelivered]
    obtain ⟨hread, hrest⟩ := (decInv_emitValue hs).mp h
    exact ⟨hread.pixelTaken hv, hrest⟩
  | drain =>
    rw [decInv_drain (by exact hs)]
    obtain ⟨hcounted, hended⟩ := (decInv_drain hs).mp h
    exact ⟨hcounted, decEnded_pixelTakenOf hended hv⟩
  | done =>
    obtain ⟨-, -, -, -, hpo⟩ := (decInv_done hs).mp h
    simp [hpo] at hv
  | error =>
    obtain ⟨-, -, -, -, hpo⟩ := (decInv_error hs).mp h
    simp [hpo] at hv

end

/-! ## Every operation keeps the invariant -/

section
variable {s t : State}

/-- `DecInv` reads DEC's registers and records alone. -/
theorem DecInv.of_decPart_eq (h : DecInv s) (hp : decPart t = decPart s) : DecInv t := by
  obtain ⟨hregs, -, hsent, hgot⟩ := DecPart.mk.inj hp
  unfold DecInv decEnded unpackerAt decRead decDelivered at h ⊢
  rwa [hregs, hsent, hgot]

/-- An operation of ENC keeps it. -/
theorem DecInv.of_actsWithin_enc (h : DecInv s) {f : State → State} (hf : ActsWithin .enc f) : DecInv (f s) :=
  h.of_decPart_eq (by rw [hf.frame s, decPart_graft_enc])

theorem decInv_reset (hd : s.dec = decReset) (hsent : s.host.decSent = []) (hgot : s.host.decGot = []) : DecInv s := by
  rw [decInv_idle (by rw [hd]; rfl)]
  simp [DecCounted, hd, hsent, hgot, decReset]

theorem decInv_started {count : Count} {len : Length} (hd : s.dec = decJobStart count len) (hsent : s.host.decSent = [])
    (hgot : s.host.decGot = []) : DecInv s := by
  have hcounted : DecCounted s := by simp [DecCounted, hd, hsent, decJobStart, decReset]
  have hread : decRead s = walkStart count.toNat 0 [] := by
    rw [decRead, hd, hsent]
    rfl
  have hdelivered : decDelivered s = [] := by simp [decDelivered, hd, hgot, decJobStart, decReset]
  have hreading : DecReading s :=
    ⟨hcounted, by rw [hd]; rfl, by simp [unpackerAt, hd, hsent, decJobStart, decReset], by rw [hdelivered, hd]; rfl⟩
  by_cases hcount : count = 0
  · rw [decInv_drain (by rw [hd]; exact if_pos hcount)]
    subst hcount
    exact ⟨hcounted, hreading.finished (by rw [hread]; rfl) (by rw [hread, hdelivered]; rfl)⟩
  · have hpos : 0 < count.toNat := by bv_omega
    rw [decInv_runGroup (by rw [hd]; exact if_neg hcount), hread, hdelivered, hd]
    exact ⟨hreading, if_pos hpos, rfl, rfl, rfl⟩

end

/-- Every operation keeps what DEC has done to what the loop of R260 does (R280). -/
theorem decInv_keptByOps : KeptByOps DecInv where
  parts _ _ h _ hd := h.of_decPart_eq hd
  encStart _ _ h _ := h.of_decPart_eq rfl
  decStart _ _ _ _ _ := decInv_started rfl rfl rfl
  encOffer _ _ h := h
  decOffer _ _ h := h
  takeByte _ h := h.of_actsWithin_enc actsWithin_hostTakeByte
  takePixel s h := by
    rcases hostTakePixel_cases s with ⟨-, h'⟩ | ⟨hv, h'⟩ <;> rw [h']
    · exact h
    · exact h.pixelTaken hv
  reset _ _ := decInv_reset rfl rfl rfl
  acceptPixel _ h := h.of_actsWithin_enc actsWithin_acceptPixelStep
  acceptEnd _ h := h
  emitRun _ h := h
  emitCode _ h := h
  emitTail _ h := h
  flush _ h := h
  runGroup s h := by
    unfold runGroupStep
    split
    · next hs => exact h.groupStep (.inl hs) fun _ _ => h.runGroupEnds hs
    · exact h
  emitZeros s h := by
    rcases emitZerosStep_cases s.dec with h' | ⟨hs, ⟨hz, hroom, h'⟩ | ⟨hz, hlt, h'⟩ | ⟨hz, hend, h'⟩⟩ <;> rw [h']
    · exact h
    · exact h.zeroDelivered hs hz hroom
    · exact h.codeStarted hs hz hlt
    · exact h.zerosEnd hs hz hend
  codeGroup s h := by
    unfold codeGroupStep
    split
    · next hs => exact h.groupStep (.inr hs) fun _ _ => h.codeGroupEnds hs
    · exact h
  emitValue s h := by
    rcases emitValueStep_cases s.dec with h' | ⟨hs, hroom, ⟨hlt, h'⟩ | ⟨hend, h'⟩⟩ <;> rw [h']
    · exact h
    · exact h.runStarted hs hroom hlt
    · exact h.valueEnds hs hroom hend
  drain s h := by
    rcases drainStep_cases s with h' | ⟨hs, ⟨hlt, b, -, h'⟩ | ⟨hend, hroom, h'⟩⟩ <;> rw [h']
    · exact h
    · exact h.byteDropped hs hlt b
    · exact h.drained hs hend hroom

end Sys2Proof.Machine
end

section
/-! A decode job (R280). Beside `DecInv` every step keeps that DEC reads a nibble only while the loop of R260 has one to
read. So at the end of a job the loop on the bytes DEC took stops where DEC stopped, and RVL_Decode with it. -/

namespace Sys2Proof.Machine

open Sys2Proof

/-! ## No nibble is read in vain -/

/-- The loop of R260 had not ended before the last nibble DEC has read: what `DecInv` leaves open of D_NIBBLES. -/
def DecReadsInNeed (s : State) : Prop :=
  ∀ k < s.dec.nibbles.toNat, (decWalk s.dec.count.toNat ((unpack s.host.decSent).take k)).ending = none

section
variable {s t : State}

theorem decReadsInNeed_of_no_nibble (h : s.dec.nibbles = 0) : DecReadsInNeed s := by
  intro k hk
  rw [h] at hk
  exact absurd hk (Nat.not_lt_zero k)

/-- It speaks of D_COUNT, D_NIBBLES and the bytes of the nibbles read, and of nothing else. -/
theorem DecReadsInNeed.of_taken (h : DecReadsInNeed s) (hcount : t.dec.count = s.dec.count)
    (hnibbles : t.dec.nibbles = s.dec.nibbles) (htaken : s.host.decSent <+: t.host.decSent)
    (hle : s.dec.nibbles.toNat ≤ 2 * s.host.decSent.length) : DecReadsInNeed t := by
  intro k hk
  rw [hnibbles] at hk
  obtain ⟨more, hmore⟩ := htaken
  rw [hcount, ← hmore, unpack_append, List.take_append_of_le_length (by rw [unpack_length]; omega)]
  exact h k hk

/-- The nibble that a group step reads is one the loop reads. -/
theorem DecReadsInNeed.nibbleRead (h : DecReadsInNeed s) (hread : DecReading s) (hreads : (decRead s).ending = none)
    {x : Nibble} (hr : NibbleRead x s t) : DecReadsInNeed t := by
  intro k hk
  rw [hr.nibbles] at hk
  have hle : k ≤ s.dec.nibbles.toNat := Nat.le_of_lt_succ hk
  rw [hr.count, hr.take_eq hread hle]
  rcases hle.lt_or_eq with hlt | rfl
  · exact h k hlt
  · exact hreads

end

/-! ## Every operation keeps it -/

/-- Both invariants of a decode job. -/
def DecJobInv (s : State) : Prop := DecInv s ∧ DecReadsInNeed s

/-- A check at the end of a group leaves D_NIBBLES and D_COUNT alone. -/
def KeepsReadCount (finish : Dec → Dec) : Prop := ∀ d, (finish d).nibbles = d.nibbles ∧ (finish d).count = d.count

theorem keepsReadCount_overrunCheck : KeepsReadCount overrunCheck := by
  intro d
  rcases overrunCheck_cases d with ⟨-, h⟩ | ⟨-, -, h⟩ <;> rw [h] <;> exact ⟨rfl, rfl⟩

theorem keepsReadCount_rangeCheck : KeepsReadCount rangeCheck := by
  intro d
  rcases rangeCheck_cases d with ⟨-, h⟩ | ⟨-, -, h⟩ | ⟨-, v, -, h⟩ <;> rw [h] <;> exact ⟨rfl, rfl⟩

section
variable {s : State}

theorem DecReadsInNeed.groupStep (h : DecReadsInNeed s) (hread : DecReading s) (hreads : (decRead s).ending = none)
    {finish : Dec → Dec} (hfinish : KeepsReadCount finish) : DecReadsInNeed (groupStep finish s) := by
  have hafter (t : State) (x : Nibble) (hr : NibbleRead x s t) :
      DecReadsInNeed { t with dec := if vldDone x then finish t.dec else t.dec } := by
    obtain ⟨hnibbles, hcount⟩ := hfinish t.dec
    have hneed := h.nibbleRead hread hreads hr
    split
    · exact hneed.of_taken hcount hnibbles List.prefix_rfl hr.reading.nibbles_le
    · exact hneed
  rcases groupStep_cases finish s with ⟨h', -⟩ | ⟨-, -, h'⟩ | ⟨hlo, h'⟩ | ⟨hlo, hlt, b, -, h'⟩ <;> rw [h']
  · exact h
  · exact h
  · exact hafter _ _ (hread.lowRead hlo)
  · exact hafter _ _ (hread.highRead hlo hlt b)

theorem DecJobInv.runGroup (h : DecJobInv s) : DecReadsInNeed (runGroupStep s) := by
  obtain ⟨hinv, hneed⟩ := h
  unfold runGroupStep
  split
  · next hs =>
    obtain ⟨hread, hphase, -⟩ := (decInv_runGroup hs).mp hinv
    exact hneed.groupStep hread (ending_of_run hphase) keepsReadCount_overrunCheck
  · exact hneed

theorem DecJobInv.codeGroup (h : DecJobInv s) : DecReadsInNeed (codeGroupStep s) := by
  obtain ⟨hinv, hneed⟩ := h
  unfold codeGroupStep
  split
  · next hs =>
    obtain ⟨hread, hphase, -⟩ := (decInv_codeGroup hs).mp hinv
    exact hneed.groupStep hread (ending_of_code hphase) keepsReadCount_rangeCheck
  · exact hneed

theorem DecReadsInNeed.emitZeros (h : DecReadsInNeed s) : DecReadsInNeed { s with dec := emitZerosStep s.dec } := by
  rcases emitZerosStep_cases s.dec with h' | ⟨-, ⟨-, -, h'⟩ | ⟨-, -, h'⟩ | ⟨-, -, h'⟩⟩ <;> rw [h'] <;> exact h

theorem DecReadsInNeed.emitValue (h : DecReadsInNeed s) : DecReadsInNeed { s with dec := emitValueStep s.dec } := by
  rcases emitValueStep_cases s.dec with h' | ⟨-, -, ⟨-, h'⟩ | ⟨-, h'⟩⟩ <;> rw [h'] <;> exact h

theorem DecJobInv.drain (h : DecJobInv s) : DecReadsInNeed (drainStep s) := by
  obtain ⟨hinv, hneed⟩ := h
  rcases drainStep_cases s with h' | ⟨hs, ⟨-, b, -, h'⟩ | ⟨-, -, h'⟩⟩ <;> rw [h']
  · exact hneed
  · obtain ⟨-, hle, -⟩ := (decInv_drain hs).mp hinv
    exact hneed.of_taken rfl rfl (List.prefix_append _ _) hle
  · exact hneed

end

theorem decJobInv_keptByOps : KeptByOps DecJobInv where
  parts s t h he hd := by
    refine ⟨decInv_keptByOps.parts s t h.1 he hd, ?_⟩
    obtain ⟨hregs, -, hsent, -⟩ := DecPart.mk.inj hd
    unfold DecReadsInNeed
    rw [hregs, hsent]
    exact h.2
  encStart s c h hs := ⟨decInv_keptByOps.encStart s c h.1 hs, h.2⟩
  decStart s c l h hs := ⟨decInv_keptByOps.decStart s c l h.1 hs, decReadsInNeed_of_no_nibble rfl⟩
  encOffer _ _ h := h
  decOffer _ _ h := h
  takeByte s h := by
    refine ⟨decInv_keptByOps.takeByte s h.1, ?_⟩
    rcases hostTakeByte_cases s with ⟨-, h'⟩ | ⟨-, h'⟩ <;> rw [h'] <;> exact h.2
  takePixel s h := by
    refine ⟨decInv_keptByOps.takePixel s h.1, ?_⟩
    rcases hostTakePixel_cases s with ⟨-, h'⟩ | ⟨-, h'⟩ <;> rw [h'] <;> exact h.2
  reset s h := ⟨decInv_keptByOps.reset s h.1, decReadsInNeed_of_no_nibble rfl⟩
  acceptPixel s h := by
    refine ⟨decInv_keptByOps.acceptPixel s h.1, ?_⟩
    rw [actsWithin_acceptPixelStep.frame s]
    exact h.2
  acceptEnd _ h := h
  emitRun _ h := h
  emitCode _ h := h
  emitTail _ h := h
  flush _ h := h
  runGroup s h := ⟨decInv_keptByOps.runGroup s h.1, h.runGroup⟩
  emitZeros s h := ⟨decInv_keptByOps.emitZeros s h.1, h.2.emitZeros⟩
  codeGroup s h := ⟨decInv_keptByOps.codeGroup s h.1, h.codeGroup⟩
  emitValue s h := ⟨decInv_keptByOps.emitValue s h.1, h.2.emitValue⟩
  drain s h := ⟨decInv_keptByOps.drain s h.1, h.drain⟩

/-! ## The end of a job -/

section
variable {s : State}

/-- RVL_Decode on the bytes DEC took goes the way of the nibbles DEC has read, and on from there. -/
theorem DecReadsInNeed.decodeRun_eq (h : DecReadsInNeed s) (hle : s.dec.nibbles.toNat ≤ 2 * s.host.decSent.length) :
    decodeRun s.host.decSent s.dec.count.toNat =
      walkOutcome s.dec.count.toNat (decRead s) ((unpack s.host.decSent).drop s.dec.nibbles.toNat)
        s.dec.nibbles.toNat := by
  have hlength : ((unpack s.host.decSent).take s.dec.nibbles.toNat).length = s.dec.nibbles.toNat :=
    List.length_take_of_le (by rwa [unpack_length])
  rw [decodeRun_eq_walkOutcome]
  conv_lhs => rw [← List.take_append_drop s.dec.nibbles.toNat (unpack s.host.decSent)]
  rw [walkOutcome_append _ _ _ _ fun k hk => ?_, Nat.zero_add, hlength]
  · rfl
  · rw [hlength] at hk
    rw [List.take_take, Nat.min_eq_left hk.le]
    exact h k hk

/-- With every byte taken, RVL_Decode of them ends as DEC has recorded, at nibble D_NIBBLES (R280, R330). -/
theorem DecReadsInNeed.decodeRun_of_ended (h : DecReadsInNeed s) (hended : decEnded s)
    (hall : s.host.decSent.length = s.dec.len.toNat) :
    decodeRun s.host.decSent s.dec.count.toNat =
      ⟨s.dec.err.elim (.ok (decDelivered s)) .error, s.dec.nibbles.toNat⟩ := by
  obtain ⟨hle, -, hend⟩ := hended
  rw [h.decodeRun_eq hle]
  cases herr : s.dec.err with
  | none =>
    simp only [herr] at hend
    obtain ⟨hphase, hout⟩ := hend
    rw [walkOutcome_of_ending (ending_of_finished hphase), hout]
    rfl
  | some e =>
    cases e with
    | truncated =>
      simp only [herr] at hend
      obtain ⟨hreads, hnibbles, -⟩ := hend
      rw [List.drop_eq_nil_of_le (by rw [unpack_length]; omega), walkOutcome_nil (ending_eq_none.mpr hreads)]
      rfl
    | overrun =>
      simp only [herr] at hend
      rw [walkOutcome_of_ending (ending_of_failed hend.1)]
      rfl
    | outOfRange =>
      simp only [herr] at hend
      rw [walkOutcome_of_ending (ending_of_failed hend.1)]
      rfl

/-- What both final states say: every byte is taken, none of the pixels delivered waits, and DONE is the end without an
error. -/
theorem DecInv.final (h : DecInv s) (hs : s.dec.state = .done ∨ s.dec.state = .error) :
    DecCounted s ∧ decEnded s ∧ s.dec.bytesIn = s.dec.len ∧ s.dec.poValid = false ∧
      s.dec.state = (if s.dec.err = none then .done else .error) := by
  rcases hs with hs | hs
  · obtain ⟨hcounted, hended, herr, hbytes, hpo⟩ := (decInv_done hs).mp h
    exact ⟨hcounted, hended, hbytes, hpo, by rw [if_pos herr, hs]⟩
  · obtain ⟨hcounted, hended, herr, hbytes, hpo⟩ := (decInv_error hs).mp h
    exact ⟨hcounted, hended, hbytes, hpo, by rw [if_neg herr, hs]⟩

end

/-- Settles O48: both invariants in every run from reset, read at the end of the job. -/
theorem decodeJobGivesRvlDecode : Obligations.DecodeJobGivesRvlDecode := by
  intro agenda k s hrun hs
  have hreset : DecJobInv { State.reset with agenda := agenda } :=
    ⟨decInv_reset rfl rfl rfl, decReadsInNeed_of_no_nibble rfl⟩
  obtain ⟨hinv, hneed⟩ := runSteps_keeps (fun _ _ => decJobInv_keptByOps.step) k _ s hreset hrun
  obtain ⟨⟨hsent, -⟩, hended, hbytes, hpo, hstate⟩ := hinv.final hs
  have hall : s.host.decSent.length = s.dec.len.toNat := by rw [← hsent, hbytes]
  have hdelivered : decDelivered s = s.host.decGot := by simp [decDelivered, hpo]
  have hdecode := hneed.decodeRun_of_ended hended hall
  refine ⟨hall, hbytes, by rw [hdecode], ?_⟩
  rw [rvlDecode, hdecode, hdelivered]
  cases herr : s.dec.err with
  | none => exact ⟨by rw [hstate, if_pos herr], rfl, rfl⟩
  | some e => exact ⟨by rw [hstate, if_neg (by simp [herr])], rfl⟩

end Sys2Proof.Machine
end

section
/-! The host interface (R301 to R303, R310, R311, R320, R321). A start command is BUSY or begins a job, by `encBusy` and
`decBusy`; the jobs without work are followed to their ends by the rules for one engine step; a take has the two cases
of its holding register; the value of a status read comes from a table of sixteen registers. -/

namespace Sys2Proof.Machine

open Sys2Proof

/-! ## ENC_START -/

theorem exec_encStart_of_busy {s : State} (h : encBusy s.enc.state = true) (count : Count) (len : Length) :
    exec (.encStart count len) s = .next { s with cmdErr := .busy } := by
  simp [exec, execEncStart, h, raiseCmd]

theorem encBusy_of_running {st : EncState}
    (h : st = .accept ∨ st = .emitRun ∨ st = .emitCode ∨ st = .emitTail ∨ st = .flush) : encBusy st = true := by
  rcases h with rfl | rfl | rfl | rfl | rfl <;> rfl

theorem encNext_of_all_taken {e : Enc} (hs : e.state = .accept) (hn : e.index = e.count) :
    encNext e = some .encAcceptEnd := by
  simp [encNext, hs, hn]

theorem encNext_of_flush {e : Enc} (hs : e.state = .flush) : encNext e = some .encFlush := by simp [encNext, hs]

/-! A job of no pixel has no run and nothing pending when it ends. -/

theorem exec_encAcceptEnd_of_no_pixel {t : State} (he : t.enc = encJobStart 0) :
    exec .encAcceptEnd t = .next { t with enc := { encJobStart 0 with state := .flush } } := by
  rw [exec_encAcceptEnd, he, acceptEndStep_of_no_run rfl rfl rfl]

theorem exec_encFlush_of_no_pixel {t : State} (he : t.enc = { encJobStart 0 with state := .flush }) :
    exec .encFlush t = .next { t with enc := { encJobStart 0 with state := .done } } := by
  rw [exec_encFlush, he, flushStep_of_empty rfl rfl rfl]

/-- Settles O7: the command by `encBusy`, and the job of no pixel through ACCEPT and FLUSH to DONE. -/
theorem encStartBeginsAJob : Obligations.EncStartBeginsAJob := by
  refine ⟨fun count len s => ⟨fun hs => ?_, fun hs => ?_⟩, fun len s hs => ?_, rfl⟩
  · exact exec_encStart_of_busy (encBusy_of_running hs) count len
  · exact ⟨[], [], exec_encStart_of_not_busy (encBusy_eq_false hs) count len⟩
  · exact ⟨_, _, _, exec_encStart_of_not_busy (encBusy_eq_false hs) 0 len,
      encNext_of_all_taken rfl rfl, exec_encAcceptEnd_of_no_pixel rfl, rfl,
      encNext_of_flush rfl, exec_encFlush_of_no_pixel rfl, rfl, encNext_of_not_busy rfl, rfl, rfl, rfl⟩

/-! ## DEC_START -/

theorem exec_decStart_of_busy {s : State} (h : decBusy s.dec.state = true) (count : Count) (len : Length) :
    exec (.decStart count len) s = .next { s with cmdErr := .busy } := by
  simp [exec, execDecStart, h, raiseCmd]

theorem decBusy_of_running {st : DecState}
    (h : st = .runGroup ∨ st = .emitZeros ∨ st = .codeGroup ∨ st = .emitValue ∨ st = .drain) :
    decBusy st = true := by
  rcases h with rfl | rfl | rfl | rfl | rfl <;> rfl

theorem decNext_of_runGroup {d : Dec} (hs : d.state = .runGroup) : decNext d = some .decRunGroup := by
  simp [decNext, hs]

theorem decNext_of_drain {d : Dec} (hs : d.state = .drain) : decNext d = some .decDrain := by simp [decNext, hs]

/-- The registers of a new job by the count as a number, where `decJobStart` tests it as a word. -/
theorem decJobStart_eq (count : Count) (len : Length) :
    decJobStart count len =
      { decReset with count := count, len := len, state := if 0 < count.toNat then .runGroup else .drain } := by
  by_cases hcount : count = 0
  · subst hcount
    rfl
  · have hpos : 0 < count.toNat := by bv_omega
    rw [decJobStart, if_neg hcount, if_pos hpos]

theorem decJobStart_state_of_pos {count : Count} (hpos : 0 < count.toNat) (len : Length) :
    (decJobStart count len).state = .runGroup := by
  rw [decJobStart_eq]
  exact if_pos hpos

/-- With LEN = 0, UP_READ answers END at the first nibble of the job (R151, R270). -/
theorem exec_decRunGroup_of_empty_buffer {t : State} {count : Count} (hpos : 0 < count.toNat)
    (hd : t.dec = decJobStart count 0) :
    exec .decRunGroup t = .next { t with dec := raiseDecode .truncated t.dec } := by
  have hs : t.dec.state = .runGroup := by rw [hd, decJobStart_state_of_pos hpos]
  have hlo : t.dec.loPend = false := by rw [hd]; rfl
  have hend : ¬t.dec.bytesIn < t.dec.len := by rw [hd]; exact BitVec.lt_irrefl 0
  rw [exec_decRunGroup, runGroupStep, if_pos hs, groupStep_of_end overrunCheck hlo hend]

theorem exec_decDrain_of_end {t : State} (hs : t.dec.state = .drain) (hend : ¬t.dec.bytesIn < t.dec.len)
    (hroom : t.dec.poValid = false) :
    exec .decDrain t = .next { t with dec := { t.dec with state := if t.dec.err = none then .done else .error } } := by
  rw [exec_decDrain, drainStep_of_end hs hend hroom]

/-- Settles O8: the command by `decBusy`, and the job without a byte through its first nibble and DRAIN to ERROR. -/
theorem decStartBeginsAJob : Obligations.DecStartBeginsAJob := by
  refine ⟨fun count len s => ⟨fun hs => ?_, fun hs => ?_⟩, fun count s hpos hs => ?_, rfl⟩
  · exact exec_decStart_of_busy (decBusy_of_running hs) count len
  · refine ⟨[], [], ?_⟩
    rw [exec_decStart_of_not_busy (decBusy_eq_false hs), decJobStart_eq]
    rfl
  · exact ⟨_, _, _, exec_decStart_of_not_busy (decBusy_eq_false hs) count 0,
      decNext_of_runGroup (decJobStart_state_of_pos hpos 0), exec_decRunGroup_of_empty_buffer hpos rfl,
      decNext_of_drain rfl, exec_decDrain_of_end rfl (BitVec.lt_irrefl 0) rfl, rfl, rfl, rfl⟩

/-! ## The reserved commands -/

theorem exec_cmdReserved {i : Instr} {count : Count} {len : Length}
    (hi : i = .cmdReserved10 count len ∨ i = .cmdReserved11 count len) (s : State) :
    exec i s = .next { s with cmdErr := .reservedOp } := by
  rcases hi with rfl | rfl <;> rfl

/-- Settles O9: both reserved commands do the same. -/
theorem reservedCommandsAreRejected : Obligations.ReservedCommandsAreRejected :=
  ⟨fun _ _ s => ⟨exec_cmdReserved (.inl rfl) s, exec_cmdReserved (.inr rfl) s⟩, rfl, rfl⟩

/-! ## The takes -/

theorem exec_encTake (s : State) : exec .encTake s = .next (hostTakeByte s) := rfl

theorem exec_decTake (s : State) : exec .decTake s = .next (hostTakePixel s) := rfl

/-- Pixels are a result at DONE only: at ERROR the result is the error, and before that there is none (R76). -/
theorem decodeResult_eq_ok_iff (s : State) (out : List Pixel) :
    decodeResult s = some (.ok out) ↔ s.dec.state = .done ∧ out = s.host.decGot := by
  unfold decodeResult
  cases hs : s.dec.state with
  | done => simp [eq_comm]
  | _ => simp

/-- Settles O11: each take by the two cases of its holding register. -/
theorem takesDeliver : Obligations.TakesDeliver := by
  intro s
  refine ⟨fun hv => ?_, fun hv => ?_, fun hv => ?_, fun hv => ?_, decodeResult_eq_ok_iff s⟩
  · rw [exec_encTake, hostTakeByte, if_pos hv]
  · rw [exec_encTake, hostTakeByte, hv, if_neg Bool.false_ne_true]
  · rw [exec_decTake, hostTakePixel, if_pos hv]
  · rw [exec_decTake, hostTakePixel, hv, if_neg Bool.false_ne_true]

/-! ## Status reads -/

/-- The sixteen status registers as numbers, in the order of their SEL (R27, R320, R321). -/
def statusTable (s : State) : List Nat :=
  [ (cmdErrCode s.cmdErr).toNat, (encStateCode s.enc.state).toNat, s.enc.count.toNat, s.enc.index.toNat,
    s.enc.bytes.toNat, (decStateCode s.dec.state).toNat, (errCode s.dec.err).toNat, s.dec.count.toNat,
    s.dec.len.toNat, s.dec.produced.toNat, s.dec.bytesIn.toNat, s.dec.nibbles.toNat, 0, 0, 0, 0 ]

/-- Every register fits the 36 bits of a read, the widest being D_NIBBLES with 35, so no bit of it is cut off. -/
theorem statusValue_toNat (s : State) (sel : BitVec 4) :
    some (statusValue s sel).toNat = (statusTable s)[sel.toNat]? := by
  have hsel : sel.toNat < 16 := sel.isLt
  unfold statusValue
  generalize sel.toNat = k at hsel
  interval_cases k <;> simp [statusTable, -BitVec.toNat_setWidth, BitVec.toNat_setWidth_of_le]

theorem exec_statusRead (sel : BitVec 4) (s : State) : exec (.statusRead sel) s = .next (readStatus sel s) := rfl

theorem exec_statusReadUnused (sel : BitVec 4) (s : State) :
    exec (.statusReadUnused sel) s = .next (readStatus sel s) := rfl

/-- Settles O12: the value by the table of registers, and the codes as the spec's tables number them. -/
theorem statusReadsReturnRegisters : Obligations.StatusReadsReturnRegisters :=
  ⟨fun sel s => ⟨statusValue s sel, exec_statusRead sel s, exec_statusReadUnused sel s, statusValue_toNat s sel⟩,
    rfl, rfl, rfl, rfl⟩

end Sys2Proof.Machine
end

section
/-! The three invariants as statements about one step, and at reset. `encInv_keptByOps`, `decInv_keptByOps` and
`counterInv_keptByOps` have them operation by operation. -/

namespace Sys2Proof.Machine

open Sys2Proof

/-- Settles O42: every operation keeps `EncInv`, so every step does. -/
theorem everyStepKeepsEncInv : Obligations.EveryStepKeepsEncInv := fun _ _ h ht => encInv_keptByOps.step h ht

/-- Settles O43: every operation keeps `DecInv`, so every step does. -/
theorem everyStepKeepsDecInv : Obligations.EveryStepKeepsDecInv := fun _ _ h ht => decInv_keptByOps.step h ht

/-- Settles O44: every operation keeps both engines' bounds, so every step does. -/
theorem everyStepKeepsCounterInv : Obligations.EveryStepKeepsCounterInv := fun _ _ h ht =>
  counterInv_keptByOps.step h ht

/-- Settles O45: each engine's registers after reset, with empty records. -/
theorem invariantsHoldAtReset : Obligations.InvariantsHoldAtReset :=
  ⟨encInv_reset rfl rfl rfl, decInv_reset rfl rfl rfl, encCounters_kept.reset, decCounters_reset⟩

end Sys2Proof.Machine
end

section
/-! The encodings (R80 to R90). An item of w bits, widened to the 72 of `Item`, gives its bits back, and an item with no
bit beyond w is its low w bits, widened; so decoding and encoding invert each other format by format. -/

namespace Sys2Proof.Machine

open Sys2Proof

/-! ## Widening -/

section
variable {w : Nat}

/-- The low bits of a widened word are the word. -/
theorem extractLsb'_setWidth (b : BitVec w) (h : w ≤ 72) : (b.setWidth 72).extractLsb' 0 w = b := by
  apply BitVec.eq_of_toNat_eq
  rw [BitVec.extractLsb'_toNat, Nat.shiftRight_zero, BitVec.toNat_setWidth_of_le h, Nat.mod_eq_of_lt b.isLt]

/-- A word with no bit beyond w is its low w bits, widened. -/
theorem setWidth_extractLsb' {b : BitVec 72} (hb : b.toNat < 2 ^ w) (h : w ≤ 72) :
    (b.extractLsb' 0 w).setWidth 72 = b := by
  apply BitVec.eq_of_toNat_eq
  rw [BitVec.toNat_setWidth_of_le h, BitVec.extractLsb'_toNat, Nat.shiftRight_zero, Nat.mod_eq_of_lt hb]

end

/-! ## The fields of a command word -/

section
variable (op : BitVec 2) (count : Count) (len : Length)

/-- {OP, COUNT, LEN} as a number (R88). -/
theorem encodeCommand_toNat :
    (encodeCommand op count len).toNat = op.toNat * 2 ^ 66 + count.toNat * 2 ^ 34 + len.toNat := by
  have hc := count.isLt
  have hl := len.isLt
  unfold encodeCommand
  rw [BitVec.toNat_append, BitVec.toNat_append, BitVec.toNat_append, BitVec.toNat_ofNat, Nat.zero_mod,
    Nat.zero_shiftLeft, Nat.zero_or, ← Nat.shiftLeft_add_eq_or_of_lt hc, ← Nat.shiftLeft_add_eq_or_of_lt hl,
    Nat.shiftLeft_eq, Nat.shiftLeft_eq]
  omega

theorem encodeCommand_op : (encodeCommand op count len).extractLsb' 66 2 = op := by
  have ho := op.isLt
  have hc := count.isLt
  have hl := len.isLt
  apply BitVec.eq_of_toNat_eq
  rw [BitVec.extractLsb'_toNat, encodeCommand_toNat, Nat.shiftRight_eq_div_pow]
  omega

theorem encodeCommand_count : (encodeCommand op count len).extractLsb' 34 32 = count := by
  have ho := op.isLt
  have hc := count.isLt
  have hl := len.isLt
  apply BitVec.eq_of_toNat_eq
  rw [BitVec.extractLsb'_toNat, encodeCommand_toNat, Nat.shiftRight_eq_div_pow]
  omega

theorem encodeCommand_len : (encodeCommand op count len).extractLsb' 0 34 = len := by
  have hl := len.isLt
  apply BitVec.eq_of_toNat_eq
  rw [BitVec.extractLsb'_toNat, encodeCommand_toNat, Nat.shiftRight_zero]
  omega

end

/-- A word of 68 bits is the command word of its fields. -/
theorem encodeCommand_fields {b : BitVec 72} (hb : b.toNat < 2 ^ 68) :
    encodeCommand (b.extractLsb' 66 2) (b.extractLsb' 34 32) (b.extractLsb' 0 34) = b := by
  apply BitVec.eq_of_toNat_eq
  rw [encodeCommand_toNat]
  simp only [BitVec.extractLsb'_toNat, Nat.shiftRight_eq_div_pow]
  omega

/-- The instruction of a command word, by its OP (R89). -/
theorem decodeCommand_encodeCommand (op : BitVec 2) (count : Count) (len : Length) :
    decodeCommand (encodeCommand op count len) =
      if op = 0b00#2 then .encStart count len
      else if op = 0b01#2 then .decStart count len
      else if op = 0b10#2 then .cmdReserved10 count len
      else .cmdReserved11 count len := by
  simp only [decodeCommand, encodeCommand_op, encodeCommand_count, encodeCommand_len]

/-- The command word is the item of the instruction it decodes to. -/
theorem encode_decodeCommand {b : BitVec 72} (hb : b.toNat < 2 ^ 68) : encode (decodeCommand b) = some ⟨.cmd68, b⟩ := by
  have hfields := encodeCommand_fields hb
  have hop : ∀ op : BitVec 2, op = 0b00#2 ∨ op = 0b01#2 ∨ op = 0b10#2 ∨ op = 0b11#2 := by decide
  rcases hop (b.extractLsb' 66 2) with h | h | h | h <;> rw [h] at hfields <;> simp [decodeCommand, h, encode, hfields]

/-! ## Nibbles and status numbers -/

theorem encode_decodeNibble (n : Nibble) : encode (decodeNibble n) = some ⟨.nibble4, n.setWidth 72⟩ := by
  have hn := mkNibble_contBit_payload n
  unfold decodeNibble
  cases hc : contBit n <;> rw [hc] at hn <;> simp [encode, hn]

theorem decodeNibble_mkNibble (c : Bool) (p : BitVec 3) :
    decodeNibble (mkNibble c p) = if c then .nibCont p else .nibTerm p := by simp [decodeNibble]

theorem encode_decodeStatus (sel : BitVec 4) : encode (decodeStatus sel) = some ⟨.status, sel.setWidth 72⟩ := by
  unfold decodeStatus
  split <;> rfl

theorem wellFormed_decodeStatus (sel : BitVec 4) : WellFormed (decodeStatus sel) = true := by
  unfold decodeStatus
  split
  · next h => exact decide_eq_true h
  · next h => exact decide_eq_true (Nat.le_of_not_lt h)

/-! ## The decoder -/

theorem decode_eq_ok {it : Item} {i : Instr} :
    decode it = .ok i ↔ it.bits.toNat < 2 ^ formatWidth it.format ∧ decodeBits it.format it.bits = i := by
  unfold decode
  split <;> simp [*]

theorem decode_eq_error {it : Item} {b : BadItem} :
    decode it = .error b ↔ b = .tooWide it.format ∧ 2 ^ formatWidth it.format ≤ it.bits.toNat := by
  unfold decode
  split
  · next h => simp [Nat.not_le.mpr h]
  · next h => simp [Nat.le_of_not_lt h, eq_comm]

/-- The item of an instruction of the table's first three sorts has the bits its format reads back. -/
theorem decodeBits_encode {i : Instr} {it : Item} (hwf : WellFormed i = true) (h : encode i = some it) :
    decodeBits it.format it.bits = i := by
  cases i with
  | encStart count len | decStart count len | cmdReserved10 count len | cmdReserved11 count len =>
    cases h
    exact decodeCommand_encodeCommand _ count len
  | nibTerm p | nibCont p =>
    cases h
    simp only [decodeBits, extractLsb'_setWidth _ (by decide : 4 ≤ 72), decodeNibble_mkNibble]
    rfl
  | streamByte hi lo =>
    cases h
    simp only [decodeBits, extractLsb'_setWidth _ (by decide : 8 ≤ 72), hiNibble_byteOf, loNibble_byteOf]
  | statusRead sel =>
    cases h
    simp only [decodeBits, extractLsb'_setWidth _ (by decide : 4 ≤ 72)]
    exact if_pos (of_decide_eq_true hwf)
  | statusReadUnused sel =>
    cases h
    simp only [decodeBits, extractLsb'_setWidth _ (by decide : 4 ≤ 72)]
    exact if_neg (Nat.not_lt.mpr (of_decide_eq_true hwf))
  | pixel v | encPixelIn v =>
    cases h
    exact congrArg _ (extractLsb'_setWidth v (by decide))
  | statusSel sel =>
    cases h
    exact congrArg _ (extractLsb'_setWidth sel (by decide))
  | decByteIn b =>
    cases h
    exact congrArg _ (extractLsb'_setWidth b (by decide))
  | encTake | decTake | reset =>
    cases h
    rfl
  | _ => cases h

/-- The format of an item holds its bits, instruction by instruction (R68). -/
theorem encode_fits {i : Instr} {it : Item} (h : encode i = some it) : it.bits.toNat < 2 ^ formatWidth it.format := by
  cases i with
  | encStart count len => exact Laws.ItemFitsItsFormat.encStart count len it h
  | decStart count len => exact Laws.ItemFitsItsFormat.decStart count len it h
  | cmdReserved10 count len => exact Laws.ItemFitsItsFormat.cmdReserved10 count len it h
  | cmdReserved11 count len => exact Laws.ItemFitsItsFormat.cmdReserved11 count len it h
  | nibTerm p => exact Laws.ItemFitsItsFormat.nibTerm p it h
  | nibCont p => exact Laws.ItemFitsItsFormat.nibCont p it h
  | streamByte hi lo => exact Laws.ItemFitsItsFormat.streamByte hi lo it h
  | pixel v => exact Laws.ItemFitsItsFormat.pixel v it h
  | statusSel sel => exact Laws.ItemFitsItsFormat.statusSel sel it h
  | encPixelIn v => exact Laws.ItemFitsItsFormat.encPixelIn v it h
  | decByteIn b => exact Laws.ItemFitsItsFormat.decByteIn b it h
  | encTake => exact Laws.ItemFitsItsFormat.encTake it h
  | decTake => exact Laws.ItemFitsItsFormat.decTake it h
  | statusRead sel => exact Laws.ItemFitsItsFormat.statusRead sel it h
  | statusReadUnused sel => exact Laws.ItemFitsItsFormat.statusReadUnused sel it h
  | reset => exact Laws.ItemFitsItsFormat.reset it h
  | _ => cases h

/-- The instruction of an item's bits has that item, format by format. -/
theorem encode_decodeBits {f : Format} {b : BitVec 72} (hb : b.toNat < 2 ^ formatWidth f) :
    encode (decodeBits f b) = some ⟨f, b⟩ := by
  cases f with
  | cmd68 => exact encode_decodeCommand hb
  | nibble4 => rw [decodeBits, encode_decodeNibble, setWidth_extractLsb' (w := 4) hb (by decide)]
  | status => rw [decodeBits, encode_decodeStatus, setWidth_extractLsb' (w := 4) hb (by decide)]
  | byte8 =>
    simp only [decodeBits, encode, byteOf_hiNibble_loNibble, setWidth_extractLsb' (w := 8) hb (by decide)]
  | decIn => simp only [decodeBits, encode, setWidth_extractLsb' (w := 8) hb (by decide)]
  | sel4 => simp only [decodeBits, encode, setWidth_extractLsb' (w := 4) hb (by decide)]
  | pixel16 | encIn => simp only [decodeBits, encode, setWidth_extractLsb' (w := 16) hb (by decide)]
  | encOut | decOut | resetEvent =>
    have hzero : b = 0 := BitVec.eq_of_toNat_eq (Nat.lt_one_iff.mp hb)
    rw [hzero]
    rfl

theorem wellFormed_decodeBits (f : Format) (b : BitVec 72) : WellFormed (decodeBits f b) = true := by
  cases f with
  | cmd68 =>
    simp only [decodeBits, decodeCommand]
    split_ifs <;> rfl
  | nibble4 =>
    simp only [decodeBits, decodeNibble]
    split <;> rfl
  | status => exact wellFormed_decodeStatus _
  | _ => rfl

/-- Settles O1: the item fits its format, and the format reads its bits back. -/
theorem decodeInvertsEncode : Obligations.DecodeInvertsEncode := fun _ _ hwf h =>
  decode_eq_ok.mpr ⟨encode_fits h, decodeBits_encode hwf h⟩

/-- Settles O2: what fits is the item of what it decodes to, and the rest is refused. -/
theorem decodeIsExact : Obligations.DecodeIsExact := by
  refine fun it => ⟨fun i h => ?_, fun b => decode_eq_error⟩
  obtain ⟨hfits, rfl⟩ := decode_eq_ok.mp h
  exact ⟨encode_decodeBits hfits, wellFormed_decodeBits _ _⟩

/-- Settles O3: each word is the item of its instruction, and decoding inverts encoding. -/
theorem decodesSpecWords : Obligations.DecodesSpecWords :=
  ⟨decodeInvertsEncode (.encStart 13 0) _ rfl rfl, decodeInvertsEncode (.decStart 13 6) _ rfl rfl,
    decodeInvertsEncode (.cmdReserved10 0 0) _ rfl rfl, decodeInvertsEncode (.cmdReserved11 0 0) _ rfl rfl,
    decodeInvertsEncode (.nibTerm 0b111) _ rfl rfl, decodeInvertsEncode (.nibCont 0b001) _ rfl rfl,
    decodeInvertsEncode (.streamByte 0x9 0x2) _ rfl rfl, decodeInvertsEncode (.pixel 65535) _ rfl rfl⟩

end Sys2Proof.Machine
end

section
/-! One step of the machine (R13, R335 to R338, R379; log 15). Every instruction answers a next state and leaves the
order of the moves alone; so a step stops only where its item does not exist, and with no move named the rows of turns
go on for ever. -/

namespace Sys2Proof.Machine

open Sys2Proof

/-! ## Every instruction answers a next state -/

@[simp] theorem graft_turn (side : Side) (p s : State) : (graft side p s).turn = s.turn := by cases side <;> rfl
@[simp] theorem graft_turnsTaken (side : Side) (p s : State) : (graft side p s).turnsTaken = s.turnsTaken := by
  cases side <;> rfl

/-- The fields of the order of moves: an instruction reads and writes none of them. -/
def SameOrder (t s : State) : Prop := t.agenda = s.agenda ∧ t.turn = s.turn ∧ t.turnsTaken = s.turnsTaken

theorem RunsOn.sameOrder {side : Side} {i : Instr} {s t : State} (h : RunsOn side i) (ht : exec i s = .next t) :
    SameOrder t s := by
  obtain ⟨p, c, r, v, -, rfl⟩ := h.frame ht
  exact ⟨graft_agenda side p s, graft_turn side p s, graft_turnsTaken side p s⟩

theorem RunsOn.next {side : Side} {i : Instr} (h : RunsOn side i) (s : State) : ∃ t, exec i s = .next t := by
  obtain ⟨f, -, hexec⟩ := h
  obtain ⟨c, r, v, -, hs⟩ := hexec s
  exact ⟨_, hs⟩

/-- RESET answers a next state by its own rule, every other instruction as an operation of an engine. -/
theorem exec_next (i : Instr) (s : State) :
    ∃ t, exec i s = .next t ∧ SameOrder t s ∧ t.resets = s.resets + if i = .reset then 1 else 0 := by
  by_cases hr : i = .reset
  · subst hr
    exact ⟨resetEvent s, rfl, ⟨rfl, rfl, rfl⟩, rfl⟩
  · obtain ⟨side, h⟩ := exists_runsOn hr
    obtain ⟨t, ht⟩ := h.next s
    exact ⟨t, ht, h.sameOrder ht, by rw [h.resets_eq ht, if_neg hr, Nat.add_zero]⟩

theorem runTurn_next (o : Option Instr) (s : State) : ∃ t, runTurn o s = .next t ∧ SameOrder t s := by
  cases o with
  | none => exact ⟨s, rfl, rfl, rfl, rfl⟩
  | some i =>
    obtain ⟨t, ht, horder, -⟩ := exec_next i s
    exact ⟨t, ht, horder⟩

/-! ## Where a step stops -/

/-- A move stops exactly at an item that the decoder refuses. -/
theorem runMove_cases (m : Move) (s : State) :
    (∃ t, runMove m s = .next t ∧ SameOrder t s) ∨
    (∃ it b, m = .item it ∧ decode it = .error b ∧ runMove m s = .fault (.noSuchItem b)) := by
  cases m with
  | item it =>
    cases hd : decode it with
    | ok i =>
      obtain ⟨t, ht, horder, -⟩ := exec_next i s
      exact .inl ⟨t, by simp only [runMove, hd, ht], horder⟩
    | error b => exact .inr ⟨it, b, rfl, hd, by simp only [runMove, hd]⟩
  | enc | dec =>
    obtain ⟨t, ht, horder⟩ := runTurn_next _ s
    exact .inl ⟨t, ht, horder⟩

theorem step_ne_refused (s : State) (r : Refusal) : step s ≠ .refused r := by
  unfold step
  rcases runMove_cases (nextMove s).1 (nextMove s).2 with ⟨t, ht, -⟩ | ⟨it, b, -, -, ht⟩ <;> rw [ht] <;> simp

theorem step_of_agenda {s : State} {m : Move} {rest : List Move} (h : s.agenda = m :: rest) :
    step s = runMove m { s with agenda := rest } := by simp only [step, nextMove, h]

theorem step_eq_fault_iff {s : State} {f : Fault} :
    step s = .fault f ↔ ∃ it rest b, s.agenda = .item it :: rest ∧ decode it = .error b ∧ f = .noSuchItem b := by
  constructor
  · intro h
    unfold step at h
    rcases runMove_cases (nextMove s).1 (nextMove s).2 with ⟨t, ht, -⟩ | ⟨it, b, hm, hd, ht⟩ <;> rw [ht] at h
    · cases h
    · obtain ⟨rest, hagenda, -⟩ := agenda_of_nextMove_item hm
      injection h with h
      exact ⟨it, rest, b, hagenda, hd, h.symm⟩
  · rintro ⟨it, rest, b, hagenda, hd, rfl⟩
    simp only [step_of_agenda hagenda, runMove, hd]

/-- Settles O6: RESET and the operations of the engines all answer, so a step stops at a refused item alone. -/
theorem onlyAnOverwideItemStops : Obligations.OnlyAnOverwideItemStops := by
  refine ⟨fun i s => ?_, fun s => ⟨step_ne_refused s, fun f => ?_⟩⟩
  · obtain ⟨t, ht, ⟨hagenda, hturn, htaken⟩, hresets⟩ := exec_next i s
    exact ⟨t, ht, hagenda, hturn, htaken, hresets⟩
  · rw [step_eq_fault_iff]
    constructor
    · rintro ⟨it, rest, b, hagenda, hd, rfl⟩
      obtain ⟨rfl, hwide⟩ := decode_eq_error.mp hd
      exact ⟨it, rest, hagenda, hwide, rfl⟩
    · rintro ⟨it, rest, hagenda, hwide, rfl⟩
      exact ⟨it, rest, _, hagenda, decode_eq_error.mpr ⟨rfl, hwide⟩, rfl⟩

/-- Settles O4: the item at the head of the agenda is the next move, and it is decoded. -/
theorem stepRunsDecodedItem : Obligations.StepRunsDecodedItem := by
  intro s it rest i hagenda hd
  simp only [step_of_agenda hagenda, runMove, hd]

/-! ## Turns -/

section
variable {s : State}

theorem step_of_empty_agenda (h : s.agenda = []) : step s = runMove (freeTurn s).1 (freeTurn s).2 := by
  simp only [step, nextMove, h]

theorem freeTurn_of_row_left (h : s.turnsTaken < turnsOf s.turn) :
    freeTurn s = (turnOf s.turn, { s with turnsTaken := s.turnsTaken + 1 }) := if_pos h

theorem freeTurn_of_row_used (h : ¬s.turnsTaken < turnsOf s.turn) :
    freeTurn s = (turnOf (s.turn + 1), { s with turn := s.turn + 1, turnsTaken := 1 }) := if_neg h

/-- A free turn answers a next state, with the counters that the free turn has set. -/
theorem step_free (h : s.agenda = []) :
    ∃ t, step s = .next t ∧ t.agenda = [] ∧ t.turn = (freeTurn s).2.turn ∧
      t.turnsTaken = (freeTurn s).2.turnsTaken := by
  have hno : ∀ it, (freeTurn s).1 ≠ .item it := fun it hit => by
    rcases freeTurn_cases s with ⟨-, hf⟩ | ⟨-, hf⟩ <;> rw [hf] at hit
    · rcases turnOf_cases s.turn with hturn | hturn <;> cases hturn.symm.trans hit
    · rcases turnOf_cases (s.turn + 1) with hturn | hturn <;> cases hturn.symm.trans hit
  rcases runMove_cases (freeTurn s).1 (freeTurn s).2 with ⟨t, ht, hagenda, hturn, htaken⟩ | ⟨it, -, hit, -⟩
  · exact ⟨t, by rw [step_of_empty_agenda h, ht], by rw [hagenda, freeTurn_agenda, h], hturn, htaken⟩
  · exact absurd hit (hno it)

/-- Where the row is used up, the next turn is the first of the next row. -/
theorem nextMove_of_row_used (h : s.agenda = []) (hused : ¬s.turnsTaken < turnsOf s.turn) :
    (nextMove s).1 = turnOf (s.turn + 1) := by
  simp only [nextMove, h, freeTurn_of_row_used hused]

end

/-- Every row of turns comes to its end: by induction on the turns left of it. -/
theorem row_ends (n : Nat) : ∀ s : State, s.agenda = [] → turnsOf s.turn - s.turnsTaken = n →
    ∃ k t, runSteps k s = .next t ∧ t.agenda = [] ∧ t.turn = s.turn ∧ ¬t.turnsTaken < turnsOf t.turn := by
  induction n with
  | zero => exact fun s h hn => ⟨0, s, rfl, h, rfl, by omega⟩
  | succ n ih =>
    intro s h hn
    obtain ⟨t, ht, hagenda, hturn, htaken⟩ := step_free h
    rw [freeTurn_of_row_left (by omega)] at hturn htaken
    simp only at hturn htaken
    obtain ⟨k, u, hu, hu_agenda, hu_turn, hused⟩ := ih t hagenda (by rw [hturn, htaken]; omega)
    exact ⟨k + 1, u, by simp only [runSteps, ht, hu], hu_agenda, hu_turn.trans hturn, hused⟩

/-- After the end of this row the next one begins, and ends. -/
theorem two_rows_end {s : State} (h : s.agenda = []) :
    ∃ j t k u, runSteps j s = .next t ∧ t.agenda = [] ∧ (nextMove t).1 = turnOf (s.turn + 1) ∧
      runSteps k s = .next u ∧ u.agenda = [] ∧ (nextMove u).1 = turnOf (s.turn + 2) := by
  obtain ⟨j, t, ht, ht_agenda, ht_turn, ht_used⟩ := row_ends _ s h rfl
  obtain ⟨v, hv, hv_agenda, hv_turn, -⟩ := step_free ht_agenda
  rw [freeTurn_of_row_used ht_used] at hv_turn
  simp only at hv_turn
  obtain ⟨k, u, hu, hu_agenda, hu_turn, hu_used⟩ := row_ends _ v hv_agenda rfl
  refine ⟨j, t, j + (k + 1), u, ht, ht_agenda, ?_, ?_, hu_agenda, ?_⟩
  · rw [nextMove_of_row_used ht_agenda ht_used, ht_turn]
  · rw [runSteps_add (k + 1) j s t ht]
    simp only [runSteps, hv, hu]
  · rw [nextMove_of_row_used hu_agenda hu_used, hu_turn, hv_turn, ht_turn]

/-- Two rows that follow each other are the two engines'. -/
theorem turnOf_succ_or {m : Move} (hm : m = .enc ∨ m = .dec) (k : Nat) : m = turnOf k ∨ m = turnOf (k + 1) := by
  unfold turnOf
  rcases Nat.mod_two_eq_zero_or_one k with hk | hk
  · rw [if_pos hk, if_neg (by omega)]
    exact hm
  · rw [if_neg (by omega), if_pos (by omega)]
    exact hm.symm

/-- Settles O5: a named turn by the state's engine step; the free turns row by row. -/
theorem stepTakesEngineTurns : Obligations.StepTakesEngineTurns := by
  intro s rest
  refine ⟨fun h => ?_, fun h => ?_, fun h hleft => ?_, fun h hused => ?_, fun h m hm => ?_⟩
  · rw [step_of_agenda h, runMove, encNext]
    cases s.enc.state with
    | accept =>
      simp only
      split_ifs <;> rfl
    | _ => rfl
  · rw [step_of_agenda h, runMove, decNext]
    cases s.dec.state <;> rfl
  · rw [step_of_empty_agenda h, freeTurn_of_row_left hleft, step_of_agenda rfl, ← h]
  · rw [step_of_empty_agenda h, freeTurn_of_row_used hused, step_of_agenda rfl, ← h]
  · obtain ⟨j, t, k, u, ht, ht_agenda, ht_move, hu, hu_agenda, hu_move⟩ := two_rows_end h
    rcases turnOf_succ_or hm (s.turn + 1) with rfl | rfl
    · exact ⟨j, t, ht, ht_agenda, ht_move⟩
    · exact ⟨k, u, hu, hu_agenda, hu_move⟩

/-! ## Several instances -/

section
variable {k : Nat} {cores : List State} {s t : State}

theorem stepInstance_of_next (hs : cores[k]? = some s) (ht : step s = .next t) :
    stepInstance k cores = .next (cores.set k t) := by simp only [stepInstance, hs, ht]

/-- The instances after a step are those before it, but for the k-th. -/
theorem stepInstance_eq_next {after : List State} (h : stepInstance k cores = .next after) :
    after = cores ∨ ∃ t, after = cores.set k t := by
  unfold stepInstance at h
  split at h
  · injection h with h
    exact .inl h.symm
  · split at h
    · injection h with h
      exact .inr ⟨_, h.symm⟩
    · cases h
    · cases h

end

/-- Settles O54: the list after a step differs from the list before it in the k-th place alone. -/
theorem instancesShareNothing : Obligations.InstancesShareNothing := by
  refine fun k cores => ⟨fun s hs t ht => stepInstance_of_next hs ht, fun after h => ?_, fun n s hs => ?_⟩
  · rcases stepInstance_eq_next h with rfl | ⟨t, rfl⟩
    · exact ⟨rfl, fun _ _ => rfl⟩
    · exact ⟨List.length_set, fun j hj => List.getElem?_set_ne hj.symm⟩
  · exact List.eq_of_mem_replicate hs

end Sys2Proof.Machine
end

section
/-! The exception of the machine and the reset event (R331, R360, R361). -/

namespace Sys2Proof.Machine

open Sys2Proof

/-! ## A decode error -/

theorem decodeResult_of_drain {s : State} (h : s.dec.state = .drain) : decodeResult s = none := by
  simp [decodeResult, h]

theorem decodeResult_of_done {s : State} (h : s.dec.state = .done) : decodeResult s = some (.ok s.host.decGot) := by
  simp [decodeResult, h]

theorem decodeResult_of_error {s : State} (h : s.dec.state = .error) {code : ErrCode} (herr : s.dec.err = some code) :
    decodeResult s = some (.error code) := by simp [decodeResult, h, herr]

/-- Settles O33: the entry is `raiseDecode`, and the result is read by D_STATE. -/
theorem decodeErrorEntryDrains : Obligations.DecodeErrorEntryDrains := fun _ _ =>
  ⟨rfl, decodeResult_of_drain, fun hs herr => decodeResult_of_error hs herr⟩

/-! ## Reset -/

/-- Every register that a status read can show is 0 after reset. -/
theorem statusTable_resetEvent (s : State) : statusTable (resetEvent s) = List.replicate 16 0 := rfl

theorem statusValue_resetEvent (s : State) (sel : BitVec 4) : statusValue (resetEvent s) sel = 0 := by
  have hsel : sel.toNat < 16 := sel.isLt
  have hvalue := statusValue_toNat (resetEvent s) sel
  rw [statusTable_resetEvent, List.getElem?_replicate, if_pos hsel] at hvalue
  exact BitVec.eq_of_toNat_eq (Option.some.inj hvalue)

/-- Settles O13: the reset event itself, each offer as it then stands, the records empty. -/
theorem resetRestoresResetValues : Obligations.ResetRestoresResetValues := by
  intro s
  exact ⟨_, _, _, _, _, _, _, resetEvent s, rfl, offerAfterReset_cases _ _, offerAfterReset_cases _ _, List.nil_prefix,
    List.nil_prefix, List.nil_prefix, List.nil_prefix, rfl, rfl, rfl, rfl, rfl, rfl, rfl, rfl,
    statusValue_resetEvent s⟩

end Sys2Proof.Machine
end

section
/-! The item formats (R80, R85, R90; log 9). A nibble item is the group step, a byte or a pixel item an offer and the
step that takes it: each is brought back to the engine's own step in its state. -/

namespace Sys2Proof.Machine

open Sys2Proof

/-! ## Nibbles -/

/-- The check that ends the group DEC is in (R272, R275). -/
def groupCheck (d : Dec) : Dec → Dec := if d.state = .runGroup then overrunCheck else rangeCheck

section
variable {s : State}

theorem decInGroup_iff {d : Dec} : decInGroup d = true ↔ d.state = .runGroup ∨ d.state = .codeGroup := by
  simp [decInGroup]

theorem byteStep_of_group (hs : s.dec.state = .runGroup ∨ s.dec.state = .codeGroup) :
    byteStep s = groupStep (groupCheck s.dec) s := by
  rcases hs with hs | hs <;> simp [byteStep, groupCheck, runGroupStep, codeGroupStep, hs]

theorem byteStep_of_drain (hs : s.dec.state = .drain) : byteStep s = drainStep s := by simp [byteStep, hs]

theorem nibbleStep_of_next {n : Nibble} (hs : s.dec.state = .runGroup ∨ s.dec.state = .codeGroup)
    (hn : nextNibble s = some n) : nibbleStep n s = groupStep (groupCheck s.dec) s := by
  rw [nibbleStep, if_pos (by simp [decInGroup_iff.mpr hs, hn]), byteStep_of_group hs]

theorem nibbleStep_of_other {n : Nibble}
    (h : ¬((s.dec.state = .runGroup ∨ s.dec.state = .codeGroup) ∧ nextNibble s = some n)) : nibbleStep n s = s := by
  rcases nibbleStep_cases n s with h' | ⟨hgroup, hn, -⟩
  · exact h'
  · exact absurd ⟨decInGroup_iff.mp hgroup, hn⟩ h

theorem nextNibble_of_pending (hlo : s.dec.loPend = true) : nextNibble s = some s.dec.lo := by simp [nextNibble, hlo]

theorem nextNibble_of_byte (hlo : s.dec.loPend = false) (hlt : s.dec.bytesIn < s.dec.len) {b : Byte}
    (ho : s.host.decOffer = some b) : nextNibble s = some (hiNibble b) := by simp [nextNibble, hlo, hlt, ho]

end

theorem exec_nibble (c : Bool) (p : BitVec 3) (s : State) :
    exec (if c then .nibCont p else .nibTerm p) s = .next (nibbleStep (mkNibble c p) s) := by cases c <;> rfl

/-- Settles O14: the group step, when the item is the nibble UP_READ returns. -/
theorem nibbleItemsAreReadByDec : Obligations.NibbleItemsAreReadByDec := by
  intro c p s
  simp only [exec_nibble]
  refine ⟨fun hs hlo hn => ?_, fun hs hlo hlt b ho hn => ?_, fun hoff => ?_⟩
  · have hnext : nextNibble s = some (mkNibble c p) := by rw [nextNibble_of_pending hlo, hn]
    rw [nibbleStep_of_next hs hnext, groupStep_of_pending _ hlo, groupCheck, ← hn]
  · have hnext : nextNibble s = some (mkNibble c p) := by rw [nextNibble_of_byte hlo hlt ho, hn]
    rw [nibbleStep_of_next hs hnext, groupStep_of_byte _ hlo hlt ho, hn, groupCheck]
  · rw [nibbleStep_of_other hoff]

/-! ## Bytes and pixels -/

/-- The state with a pixel, or none, on offer. -/
def State.withPixelOffer (o : Option Pixel) (s : State) : State := { s with host := { s.host with encOffer := o } }

/-- The state with a byte, or none, on offer. -/
def State.withByteOffer (o : Option Byte) (s : State) : State := { s with host := { s.host with decOffer := o } }

section
variable {s : State}

/-- An item offered and taken in one step leaves no offer, as there was none. -/
theorem host_of_byte_passed (ho : s.host.decOffer = none) (sent : List Byte) :
    { s.host with decOffer := none, decSent := sent } = { s.host with decSent := sent } := by rw [← ho]

theorem host_of_pixel_passed (ho : s.host.encOffer = none) (sent : List Pixel) :
    { s.host with encOffer := none, encSent := sent } = { s.host with encSent := sent } := by rw [← ho]

theorem offerByte_of_none {h : HostSide} (ho : h.decOffer = none) (b : Byte) :
    offerByte b h = { h with decOffer := some b } := by simp [offerByte, ho]

theorem offerByte_of_standing {h : HostSide} (ho : h.decOffer ≠ none) (b : Byte) : offerByte b h = h :=
  (offerByte_cases b h).elim (fun h' => absurd h'.1 ho) And.right

theorem offerPixel_of_none {h : HostSide} (ho : h.encOffer = none) (v : Pixel) :
    offerPixel v h = { h with encOffer := some v } := by simp [offerPixel, ho]

theorem offerPixel_of_standing {h : HostSide} (ho : h.encOffer ≠ none) (v : Pixel) : offerPixel v h = h :=
  (offerPixel_cases v h).elim (fun h' => absurd h'.1 ho) And.right

theorem byteTransfer_of_ready (hw : decWantsByte s.dec = true) (ho : s.host.decOffer = none) (b : Byte) :
    byteTransfer b s = byteStep (s.withByteOffer (some b)) := by
  rw [byteTransfer, if_pos (by simp [hw, ho]), offerByte_of_none ho, State.withByteOffer]

theorem byteTransfer_of_not_ready (h : decWantsByte s.dec = false ∨ s.host.decOffer ≠ none) (b : Byte) :
    byteTransfer b s = s := by
  rcases byteTransfer_cases b s with h' | ⟨hw, ho, -⟩
  · exact h'
  · simp [hw, ho] at h

theorem pixelTransfer_of_ready (hs : s.enc.state = .accept) (hlt : s.enc.index < s.enc.count)
    (ho : s.host.encOffer = none) (v : Pixel) :
    pixelTransfer v s = acceptPixelStep (s.withPixelOffer (some v)) := by
  rw [pixelTransfer, if_pos (by simp [encWantsPixel_iff.mpr ⟨hs, hlt⟩, ho]), offerPixel_of_none ho,
    State.withPixelOffer]

theorem pixelTransfer_of_not_ready
    (h : ¬(s.enc.state = .accept ∧ s.enc.index < s.enc.count ∧ s.host.encOffer = none)) (v : Pixel) :
    pixelTransfer v s = s := by
  rcases pixelTransfer_cases v s with h' | ⟨hw, ho, -⟩
  · exact h'
  · obtain ⟨hs, hlt⟩ := encWantsPixel_iff.mp hw
    exact absurd ⟨hs, hlt, ho⟩ h

theorem decWantsByte_of_group (hs : s.dec.state = .runGroup ∨ s.dec.state = .codeGroup) (hlo : s.dec.loPend = false)
    (hlt : s.dec.bytesIn < s.dec.len) : decWantsByte s.dec = true := by
  simp [decWantsByte, decInGroup_iff.mpr hs, hlo, hlt]

theorem decWantsByte_of_drain (hs : s.dec.state = .drain) (hlt : s.dec.bytesIn < s.dec.len) :
    decWantsByte s.dec = true := by simp [decWantsByte, hs, hlt]

/-- The byte is taken for its high nibble (R151). -/
theorem byteTransfer_of_group (hs : s.dec.state = .runGroup ∨ s.dec.state = .codeGroup) (hlo : s.dec.loPend = false)
    (hlt : s.dec.bytesIn < s.dec.len) (ho : s.host.decOffer = none) (b : Byte) :
    byteTransfer b s =
      { s with
        dec := afterNibble (groupCheck s.dec) (hiNibble b)
          { s.dec with bytesIn := s.dec.bytesIn + 1, lo := loNibble b, loPend := true }
        host := { s.host with decSent := s.host.decSent ++ [b] } } := by
  rw [byteTransfer_of_ready (decWantsByte_of_group hs hlo hlt) ho,
    byteStep_of_group (s := s.withByteOffer (some b)) hs,
    groupStep_of_byte (s := s.withByteOffer (some b)) _ hlo hlt rfl, ← host_of_byte_passed ho]
  rfl

/-- The byte is dropped (R152). -/
theorem byteTransfer_of_drain (hs : s.dec.state = .drain) (hlt : s.dec.bytesIn < s.dec.len)
    (ho : s.host.decOffer = none) (b : Byte) :
    byteTransfer b s =
      { s with
        dec := { s.dec with bytesIn := s.dec.bytesIn + 1 }
        host := { s.host with decSent := s.host.decSent ++ [b] } } := by
  rw [byteTransfer_of_ready (decWantsByte_of_drain hs hlt) ho,
    byteStep_of_drain (s := s.withByteOffer (some b)) hs,
    drainStep_of_byte (s := s.withByteOffer (some b)) hs hlt rfl, ← host_of_byte_passed ho]
  rfl

/-- The pixel is taken, a zero counted or a run group begun (R240). -/
theorem pixelTransfer_of_accept (hs : s.enc.state = .accept) (hlt : s.enc.index < s.enc.count)
    (ho : s.host.encOffer = none) (v : Pixel) :
    pixelTransfer v s =
      { s with
        enc :=
          if v = 0 then { s.enc with index := s.enc.index + 1, run := s.enc.run + 1 }
          else { vleLoad s.enc.run { s.enc with index := s.enc.index + 1, pix := v } with state := .emitRun }
        host := { s.host with encSent := s.host.encSent ++ [v] } } := by
  rw [pixelTransfer_of_ready hs hlt ho, ← host_of_pixel_passed ho]
  by_cases hv : v = 0
  · rw [acceptPixelStep_of_zero (s := s.withPixelOffer (some v)) hs hlt rfl (beq_iff_eq.mpr hv), if_pos hv]
    rfl
  · rw [acceptPixelStep_of_nonzero (s := s.withPixelOffer (some v)) hs hlt rfl (isZero_eq_false hv), if_neg hv]
    rfl

end

theorem exec_streamByte (hi lo : Nibble) (s : State) :
    exec (.streamByte hi lo) s = .next (byteTransfer (byteOf hi lo) s) := rfl

theorem exec_pixel (v : Pixel) (s : State) : exec (.pixel v) s = .next (pixelTransfer v s) := rfl

/-- Settles O15: a byte by the state of DEC, a pixel by that of ENC; the status read is the read itself. -/
theorem byteAndPixelItemsTransfer : Obligations.ByteAndPixelItemsTransfer := by
  refine ⟨fun hi lo s => ⟨fun hs hlo hlt ho => ?_, fun hs hlt ho => ?_, fun hoff => ?_⟩,
    fun v s => ⟨fun hs hlt ho => ?_, fun hoff => ?_⟩, fun _ _ => rfl⟩
  · rw [exec_streamByte, byteTransfer_of_group hs hlo hlt ho, hiNibble_byteOf, loNibble_byteOf, groupCheck]
  · rw [exec_streamByte, byteTransfer_of_drain hs hlt ho]
  · rw [exec_streamByte, byteTransfer_of_not_ready hoff]
  · rw [exec_pixel, pixelTransfer_of_accept hs hlt ho]
    rfl
  · rw [exec_pixel, pixelTransfer_of_not_ready hoff]

end Sys2Proof.Machine
end

section
/-! What a step can do to an engine's part of the state, once for all steps: nothing, the engine's own turn, the host's
take or offer, or an offer taken in the same step; and beside these only the start command and RESET. The host's offers
(R305, R306) and the predictors (R210) are read off it. -/

namespace Sys2Proof.Machine

open Sys2Proof

/-! ## The turn of an engine, as an operation -/

/-- ENC's turn: the engine step of its state (R240 to R247). -/
def encTurn (s : State) : State :=
  match s.enc.state with
  | .idle => s
  | .accept => if s.enc.index < s.enc.count then acceptPixelStep s else { s with enc := acceptEndStep s.enc }
  | .emitRun => { s with enc := emitRunStep s.enc }
  | .emitCode => { s with enc := emitCodeStep s.enc }
  | .emitTail => { s with enc := emitTailStep s.enc }
  | .flush => { s with enc := flushStep s.enc }
  | .done => s

/-- DEC's turn: the engine step of its state (R270 to R279). -/
def decTurn (s : State) : State :=
  match s.dec.state with
  | .idle => s
  | .runGroup => runGroupStep s
  | .emitZeros => { s with dec := emitZerosStep s.dec }
  | .codeGroup => codeGroupStep s
  | .emitValue => { s with dec := emitValueStep s.dec }
  | .drain => drainStep s
  | .done => s
  | .error => s

section
variable {s : State}

theorem encTurn_of_pixel (hs : s.enc.state = .accept) (hlt : s.enc.index < s.enc.count) :
    encTurn s = acceptPixelStep s := by simp only [encTurn, hs, hlt, if_true]

theorem encTurn_of_end (hs : s.enc.state = .accept) (hlt : ¬s.enc.index < s.enc.count) :
    encTurn s = { s with enc := acceptEndStep s.enc } := by simp only [encTurn, hs, hlt, if_false]

theorem encTurn_of_emitRun (hs : s.enc.state = .emitRun) : encTurn s = { s with enc := emitRunStep s.enc } := by
  simp only [encTurn, hs]

theorem encTurn_of_emitCode (hs : s.enc.state = .emitCode) : encTurn s = { s with enc := emitCodeStep s.enc } := by
  simp only [encTurn, hs]

theorem encTurn_of_emitTail (hs : s.enc.state = .emitTail) : encTurn s = { s with enc := emitTailStep s.enc } := by
  simp only [encTurn, hs]

theorem encTurn_of_flush (hs : s.enc.state = .flush) : encTurn s = { s with enc := flushStep s.enc } := by
  simp only [encTurn, hs]

theorem encTurn_of_not_busy (hs : encBusy s.enc.state = false) : encTurn s = s := by
  unfold encTurn
  cases h : s.enc.state <;> simp_all [encBusy]

theorem decTurn_of_group (hs : s.dec.state = .runGroup ∨ s.dec.state = .codeGroup) :
    decTurn s = groupStep (groupCheck s.dec) s := by
  rcases hs with hs | hs <;> simp [decTurn, groupCheck, runGroupStep, codeGroupStep, hs]

theorem decTurn_of_emitZeros (hs : s.dec.state = .emitZeros) : decTurn s = { s with dec := emitZerosStep s.dec } := by
  simp only [decTurn, hs]

theorem decTurn_of_emitValue (hs : s.dec.state = .emitValue) : decTurn s = { s with dec := emitValueStep s.dec } := by
  simp only [decTurn, hs]

theorem decTurn_of_drain (hs : s.dec.state = .drain) : decTurn s = drainStep s := by simp only [decTurn, hs]

theorem decTurn_of_not_busy (hs : decBusy s.dec.state = false) : decTurn s = s := by
  unfold decTurn
  cases h : s.dec.state <;> simp_all [decBusy]

end

/-- With E_INDEX above E_COUNT no rule applies, and ACCEPT's second step changes nothing there (log 25). -/
theorem runTurn_encNext (s : State) : runTurn (encNext s.enc) s = .next (encTurn s) := by
  unfold encNext encTurn
  cases hs : s.enc.state with
  | accept =>
    simp only
    by_cases hlt : s.enc.index < s.enc.count
    · rw [if_pos hlt, if_pos hlt]
      rfl
    · rw [if_neg hlt, if_neg hlt]
      by_cases hn : s.enc.index = s.enc.count
      · rw [if_pos hn]
        rfl
      · rw [if_neg hn, acceptEndStep_of_disabled fun h => hn h.2]
        rfl
  | _ => rfl

theorem runTurn_decNext (s : State) : runTurn (decNext s.dec) s = .next (decTurn s) := by
  unfold decNext decTurn
  cases s.dec.state <;> rfl

theorem actsWithin_encTurn : ActsWithin .enc encTurn := by
  intro p s
  unfold encTurn
  rw [graft_enc_enc]
  cases p.enc.state with
  | accept =>
    simp only
    split
    · exact actsWithin_acceptPixelStep p s
    · rfl
  | _ => rfl

theorem actsWithin_decTurn : ActsWithin .dec decTurn := by
  intro p s
  unfold decTurn
  rw [graft_dec_dec]
  cases p.dec.state with
  | runGroup => exact actsWithin_runGroupStep p s
  | codeGroup => exact actsWithin_codeGroupStep p s
  | drain => exact actsWithin_drainStep p s
  | _ => rfl

/-! ## The operations of a step -/

/-- The operations on ENC's part that a step can be, but for the start of a job and RESET. -/
inductive EncOp : (State → State) → Prop where
  | nothing : EncOp fun s => s
  | turn : EncOp encTurn
  | take : EncOp hostTakeByte
  | offer (v : Pixel) : EncOp fun s => { s with host := offerPixel v s.host }
  | transfer (v : Pixel) : EncOp (pixelTransfer v)

/-- The operations on DEC's part that a step can be, but for the start of a job and RESET. -/
inductive DecOp : (State → State) → Prop where
  | nothing : DecOp fun s => s
  | turn : DecOp decTurn
  | take : DecOp hostTakePixel
  | offer (b : Byte) : DecOp fun s => { s with host := offerByte b s.host }
  | transfer (b : Byte) : DecOp (byteTransfer b)
  | nibble (n : Nibble) : DecOp (nibbleStep n)

theorem EncOp.actsWithin {f : State → State} (h : EncOp f) : ActsWithin .enc f := by
  cases h with
  | nothing => exact .id
  | turn => exact actsWithin_encTurn
  | take => exact actsWithin_hostTakeByte
  | offer v => exact actsWithin_offerPixel v
  | transfer v => exact actsWithin_pixelTransfer v

theorem DecOp.actsWithin {f : State → State} (h : DecOp f) : ActsWithin .dec f := by
  cases h with
  | nothing => exact .id
  | turn => exact actsWithin_decTurn
  | take => exact actsWithin_hostTakePixel
  | offer b => exact actsWithin_offerByte b
  | transfer b => exact actsWithin_byteTransfer b
  | nibble n => exact actsWithin_nibbleStep n

/-- An item, by what it does to ENC's part. -/
theorem exec_encPart {i : Instr} {s t : State} (hi : (encode i).isSome = true) (ht : exec i s = .next t) :
    (i = .reset ∧ t.enc = encReset) ∨
    (∃ count len, i = .encStart count len ∧ encBusy s.enc.state = false ∧ t.enc = encJobStart count ∧
      t.host.encOffer = s.host.encOffer) ∨
    ∃ f, EncOp f ∧ encPart t = encPart (f s) := by
  by_cases hr : i = .reset
  · subst hr
    injection ht with ht
    exact .inl ⟨rfl, by rw [← ht, resetEvent_enc]⟩
  by_cases hside : sideOf i = some .enc
  · cases i <;>
      simp only [sideOf, encode, Option.some.injEq, reduceCtorEq, Option.isSome_none, Bool.false_eq_true] at hside hi
    case encStart count len =>
      cases hs : encBusy s.enc.state with
      | true =>
        rw [exec_encStart_of_busy hs] at ht
        injection ht with ht
        exact .inr (.inr ⟨_, .nothing, by rw [← ht]; rfl⟩)
      | false =>
        rw [exec_encStart_of_not_busy hs] at ht
        injection ht with ht
        exact .inr (.inl ⟨count, len, rfl, rfl, by rw [← ht], by rw [← ht]⟩)
    case pixel v => injection ht with ht; exact .inr (.inr ⟨_, .transfer v, by rw [← ht]⟩)
    case encPixelIn v => injection ht with ht; exact .inr (.inr ⟨_, .offer v, by rw [← ht]⟩)
    case encTake => injection ht with ht; exact .inr (.inr ⟨_, .take, by rw [← ht]⟩)
  · exact .inr (.inr ⟨_, .nothing, (exec_agree_of_not_sideOf hside hr ht).1⟩)

/-- An item, by what it does to DEC's part. -/
theorem exec_decPart {i : Instr} {s t : State} (hi : (encode i).isSome = true) (ht : exec i s = .next t) :
    (i = .reset ∧ t.dec = decReset) ∨
    (∃ count len, i = .decStart count len ∧ decBusy s.dec.state = false ∧ t.dec = decJobStart count len ∧
      t.host.decOffer = s.host.decOffer) ∨
    ∃ f, DecOp f ∧ decPart t = decPart (f s) := by
  by_cases hr : i = .reset
  · subst hr
    injection ht with ht
    exact .inl ⟨rfl, by rw [← ht, resetEvent_dec]⟩
  by_cases hside : sideOf i = some .dec
  · cases i <;>
      simp only [sideOf, encode, Option.some.injEq, reduceCtorEq, Option.isSome_none, Bool.false_eq_true] at hside hi
    case decStart count len =>
      cases hs : decBusy s.dec.state with
      | true =>
        rw [exec_decStart_of_busy hs] at ht
        injection ht with ht
        exact .inr (.inr ⟨_, .nothing, by rw [← ht]; rfl⟩)
      | false =>
        rw [exec_decStart_of_not_busy hs] at ht
        injection ht with ht
        exact .inr (.inl ⟨count, len, rfl, rfl, by rw [← ht], by rw [← ht]⟩)
    case nibTerm p => injection ht with ht; exact .inr (.inr ⟨_, .nibble _, by rw [← ht]⟩)
    case nibCont p => injection ht with ht; exact .inr (.inr ⟨_, .nibble _, by rw [← ht]⟩)
    case streamByte hi lo => injection ht with ht; exact .inr (.inr ⟨_, .transfer _, by rw [← ht]⟩)
    case decByteIn b => injection ht with ht; exact .inr (.inr ⟨_, .offer b, by rw [← ht]⟩)
    case decTake => injection ht with ht; exact .inr (.inr ⟨_, .take, by rw [← ht]⟩)
  · exact .inr (.inr ⟨_, .nothing, (exec_agree_of_not_sideOf hside hr ht).1⟩)

/-- The state a move is taken in differs from the one before it in the order of the moves alone. -/
theorem agree_nextMove (side : Side) (s : State) : Agree side (nextMove s).2 s := by
  cases side <;> exact ⟨by simp [encPart, decPart], by simp⟩

section
variable {s t : State}

/-- A step, by what it does to ENC's part. -/
theorem step_encPart (ht : step s = .next t) :
    (∃ it rest, s.agenda = .item it :: rest ∧
      ((decode it = .ok .reset ∧ t.enc = encReset) ∨
        ∃ count len, decode it = .ok (.encStart count len) ∧ encBusy s.enc.state = false ∧
          t.enc = encJobStart count ∧ t.host.encOffer = s.host.encOffer)) ∨
    ∃ f, EncOp f ∧ encPart t = encPart (f s) := by
  rcases step_cases ht with ⟨it, rest, i, hagenda, hi, ht⟩ | ht | ht
  · rcases exec_encPart (decode_encodable hi) ht with ⟨rfl, h⟩ | ⟨count, len, rfl, hs, h, ho⟩ | ⟨f, hf, h⟩
    · exact .inl ⟨it, rest, hagenda, .inl ⟨hi, h⟩⟩
    · exact .inl ⟨it, rest, hagenda, .inr ⟨count, len, hi, hs, h, ho⟩⟩
    · exact .inr ⟨f, hf, h.trans (hf.actsWithin.congr (agree_withAgenda .enc s rest)).1⟩
  · rw [← nextMove_enc s, runTurn_encNext] at ht
    injection ht with ht
    exact .inr ⟨_, .turn, by rw [← ht]; exact (actsWithin_encTurn.congr (agree_nextMove .enc s)).1⟩
  · have hagree : Agree .enc t (nextMove s).2 := runTurn_agree Side.noConfusion (fun _ => sideOf_decNext) ht
    exact .inr ⟨_, .nothing, (hagree.trans (agree_nextMove .enc s)).1⟩

/-- A step, by what it does to DEC's part. -/
theorem step_decPart (ht : step s = .next t) :
    (∃ it rest, s.agenda = .item it :: rest ∧
      ((decode it = .ok .reset ∧ t.dec = decReset) ∨
        ∃ count len, decode it = .ok (.decStart count len) ∧ decBusy s.dec.state = false ∧
          t.dec = decJobStart count len ∧ t.host.decOffer = s.host.decOffer)) ∨
    ∃ f, DecOp f ∧ decPart t = decPart (f s) := by
  rcases step_cases ht with ⟨it, rest, i, hagenda, hi, ht⟩ | ht | ht
  · rcases exec_decPart (decode_encodable hi) ht with ⟨rfl, h⟩ | ⟨count, len, rfl, hs, h, ho⟩ | ⟨f, hf, h⟩
    · exact .inl ⟨it, rest, hagenda, .inl ⟨hi, h⟩⟩
    · exact .inl ⟨it, rest, hagenda, .inr ⟨count, len, hi, hs, h, ho⟩⟩
    · exact .inr ⟨f, hf, h.trans (hf.actsWithin.congr (agree_withAgenda .dec s rest)).1⟩
  · have hagree : Agree .dec t (nextMove s).2 := runTurn_agree Side.noConfusion (fun _ => sideOf_encNext) ht
    exact .inr ⟨_, .nothing, (hagree.trans (agree_nextMove .dec s)).1⟩
  · rw [← nextMove_dec s, runTurn_decNext] at ht
    injection ht with ht
    exact .inr ⟨_, .turn, by rw [← ht]; exact (actsWithin_decTurn.congr (agree_nextMove .dec s)).1⟩

end

/-- An item that decodes to an instruction is the one the host sends for it. -/
theorem sendItem_of_decode {it : Item} {i : Instr} (h : decode it = .ok i) : sendItem i = [.item it] := by
  simp only [sendItem, (decodeIsExact it).1 i h |>.1]

/-! ## What an operation does to the offer -/

/-- ENC takes the pixel p on offer in ACCEPT, with a pixel missing (R240). -/
def PixelTaken (p : Pixel) (s t : State) : Prop :=
  s.enc.state = .accept ∧ s.enc.index < s.enc.count ∧ s.host.encOffer = some p ∧
    t.host = { s.host with encOffer := none, encSent := s.host.encSent ++ [p] } ∧ t.enc.index = s.enc.index + 1

/-- DEC takes the byte b on offer where UP_READ or UP_DISCARD needs one (R151, R152). -/
def ByteTaken (b : Byte) (s t : State) : Prop :=
  decWantsByte s.dec = true ∧ s.host.decOffer = some b ∧
    t.host = { s.host with decOffer := none, decSent := s.host.decSent ++ [b] } ∧ t.dec.bytesIn = s.dec.bytesIn + 1

theorem encTurn_host (s : State) : (encTurn s).host = s.host ∨ ∃ p, PixelTaken p s (encTurn s) := by
  cases hs : s.enc.state with
  | accept =>
    by_cases hlt : s.enc.index < s.enc.count
    · rw [encTurn_of_pixel hs hlt]
      rcases acceptPixelStep_cases s with h | ⟨-, -, p, ho, ⟨-, h⟩ | ⟨-, h⟩⟩ <;> rw [h]
      · exact .inl rfl
      · exact .inr ⟨p, hs, hlt, ho, rfl, rfl⟩
      · exact .inr ⟨p, hs, hlt, ho, rfl, rfl⟩
    · rw [encTurn_of_end hs hlt]
      exact .inl rfl
  | idle | done => rw [encTurn_of_not_busy (by rw [hs]; rfl)]; exact .inl rfl
  | emitRun => rw [encTurn_of_emitRun hs]; exact .inl rfl
  | emitCode => rw [encTurn_of_emitCode hs]; exact .inl rfl
  | emitTail => rw [encTurn_of_emitTail hs]; exact .inl rfl
  | flush => rw [encTurn_of_flush hs]; exact .inl rfl

section
variable (d : Dec)

@[simp] theorem overrunCheck_bytesIn : (overrunCheck d).bytesIn = d.bytesIn := by
  rcases overrunCheck_cases d with ⟨-, h⟩ | ⟨-, -, h⟩ <;> simp [h]

@[simp] theorem rangeCheck_bytesIn : (rangeCheck d).bytesIn = d.bytesIn := by
  rcases rangeCheck_cases d with ⟨-, h⟩ | ⟨-, -, h⟩ | ⟨-, v, -, h⟩ <;> rw [h] <;> rfl

@[simp] theorem overrunCheck_prev : (overrunCheck d).prev = d.prev := by
  rcases overrunCheck_cases d with ⟨-, h⟩ | ⟨-, -, h⟩ <;> simp [h]

/-- The value phase: D_PREV becomes D_VAL as the code is accepted, and stays with a code out of range (R275). -/
theorem rangeCheck_prev :
    (rangeCheck d).prev = d.prev ∨ ((rangeCheck d).state = .emitValue ∧ (rangeCheck d).prev = (rangeCheck d).val) := by
  rcases rangeCheck_cases d with ⟨-, h⟩ | ⟨-, -, h⟩ | ⟨-, v, -, h⟩ <;> rw [h]
  · exact .inl rfl
  · exact .inl rfl
  · exact .inr ⟨rfl, rfl⟩

theorem afterNibble_groupCheck_bytesIn (c : Dec) (n : Nibble) :
    (afterNibble (groupCheck c) n d).bytesIn = d.bytesIn := by
  unfold afterNibble groupCheck
  split_ifs <;> simp

end

theorem decTurn_host (s : State) : (decTurn s).host = s.host ∨ ∃ b, ByteTaken b s (decTurn s) := by
  have hgroup (hs : s.dec.state = .runGroup ∨ s.dec.state = .codeGroup) :
      (decTurn s).host = s.host ∨ ∃ b, ByteTaken b s (decTurn s) := by
    rw [decTurn_of_group hs]
    rcases groupStep_cases (groupCheck s.dec) s with ⟨h, -⟩ | ⟨-, -, h⟩ | ⟨-, h⟩ | ⟨hlo, hlt, b, ho, h⟩ <;> rw [h]
    · exact .inl rfl
    · exact .inl rfl
    · exact .inl rfl
    · exact .inr ⟨b, decWantsByte_of_group hs hlo hlt, ho, rfl, afterNibble_groupCheck_bytesIn _ _ _⟩
  cases hs : s.dec.state with
  | runGroup => exact hgroup (.inl hs)
  | codeGroup => exact hgroup (.inr hs)
  | idle | done | error => rw [decTurn_of_not_busy (by rw [hs]; rfl)]; exact .inl rfl
  | emitZeros => rw [decTurn_of_emitZeros hs]; exact .inl rfl
  | emitValue => rw [decTurn_of_emitValue hs]; exact .inl rfl
  | drain =>
    rw [decTurn_of_drain hs]
    rcases drainStep_cases s with h | ⟨-, ⟨hlt, b, ho, h⟩ | ⟨-, -, h⟩⟩ <;> rw [h]
    · exact .inl rfl
    · exact .inr ⟨b, decWantsByte_of_drain hs hlt, ho, rfl, rfl⟩
    · exact .inl rfl

/-! ## An item transfer, by the turn that takes the item -/

section
variable (s : State)

theorem pixelTransfer_eq (v : Pixel) :
    pixelTransfer v s = s ∨
      (s.host.encOffer = none ∧ pixelTransfer v s = encTurn (s.withPixelOffer (some v))) := by
  by_cases h : s.enc.state = .accept ∧ s.enc.index < s.enc.count ∧ s.host.encOffer = none
  · obtain ⟨hs, hlt, ho⟩ := h
    rw [pixelTransfer_of_ready hs hlt ho, encTurn_of_pixel (s := s.withPixelOffer (some v)) hs hlt]
    exact .inr ⟨ho, rfl⟩
  · exact .inl (pixelTransfer_of_not_ready h v)

theorem decWantsByte_cases {d : Dec} (h : decWantsByte d = true) :
    d.bytesIn < d.len ∧
      (d.state = .drain ∨ ((d.state = .runGroup ∨ d.state = .codeGroup) ∧ d.loPend = false)) := by
  simpa [decWantsByte, decInGroup] using h

/-- Where DEC wants a byte, the step that takes one is its turn. -/
theorem byteStep_eq_decTurn
    (h : s.dec.state = .drain ∨ s.dec.state = .runGroup ∨ s.dec.state = .codeGroup) : byteStep s = decTurn s := by
  rcases h with hs | hs
  · rw [byteStep_of_drain hs, decTurn_of_drain hs]
  · rw [byteStep_of_group hs, decTurn_of_group hs]

theorem byteTransfer_eq (b : Byte) :
    byteTransfer b s = s ∨
      (s.host.decOffer = none ∧ byteTransfer b s = decTurn (s.withByteOffer (some b))) := by
  by_cases h : decWantsByte s.dec = true ∧ s.host.decOffer = none
  · obtain ⟨hw, ho⟩ := h
    have hs := (decWantsByte_cases hw).2.imp_right And.left
    rw [byteTransfer_of_ready hw ho, byteStep_eq_decTurn (s.withByteOffer (some b)) hs]
    exact .inr ⟨ho, rfl⟩
  · refine .inl (byteTransfer_of_not_ready ?_ b)
    rcases not_and_or.mp h with hw | ho
    · exact .inl (eq_false_of_ne_true hw)
    · exact .inr ho

theorem nibbleStep_eq (n : Nibble) : nibbleStep n s = s ∨ nibbleStep n s = decTurn s := by
  rcases nibbleStep_cases n s with h | ⟨hgroup, -, h⟩
  · exact .inl h
  · exact .inr (h.trans (byteStep_eq_decTurn s (.inr (decInGroup_iff.mp hgroup))))

end

/-! ## The host's offers -/

section
variable {s : State} {f : State → State}

theorem hostTakeByte_offer (s : State) : (hostTakeByte s).host.encOffer = s.host.encOffer := by
  rcases hostTakeByte_cases s with ⟨-, h⟩ | ⟨-, h⟩ <;> rw [h]

theorem hostTakePixel_offer (s : State) : (hostTakePixel s).host.decOffer = s.host.decOffer := by
  rcases hostTakePixel_cases s with ⟨-, h⟩ | ⟨-, h⟩ <;> rw [h]

/-- No operation but ENC's turn touches a standing offer. -/
theorem EncOp.offer_kept_or_taken (hf : EncOp f) {p : Pixel} (ho : s.host.encOffer = some p) :
    (f s).host.encOffer = some p ∨ PixelTaken p s (f s) := by
  cases hf with
  | nothing => exact .inl ho
  | turn =>
    rcases encTurn_host s with h | ⟨q, h⟩
    · exact .inl (by rw [h, ho])
    · have ⟨_, _, hq, _⟩ := h
      exact .inr (Option.some.inj (hq.symm.trans ho) ▸ h)
  | take => exact .inl ((hostTakeByte_offer s).trans ho)
  | offer v => exact .inl (by simp only [offerPixel_of_standing (by simp [ho] : s.host.encOffer ≠ none), ho])
  | transfer v =>
    rcases pixelTransfer_eq s v with h | ⟨hnone, -⟩
    · exact .inl (by rw [h, ho])
    · simp [ho] at hnone

/-- No operation but DEC's turn, or a nibble item that is one, touches a standing offer. -/
theorem DecOp.offer_kept_or_taken (hf : DecOp f) {b : Byte} (ho : s.host.decOffer = some b) :
    (f s).host.decOffer = some b ∨ ByteTaken b s (f s) := by
  have hturn : (decTurn s).host.decOffer = some b ∨ ByteTaken b s (decTurn s) := by
    rcases decTurn_host s with h | ⟨c, h⟩
    · exact .inl (by rw [h, ho])
    · have ⟨_, hc, _⟩ := h
      exact .inr (Option.some.inj (hc.symm.trans ho) ▸ h)
  cases hf with
  | nothing => exact .inl ho
  | turn => exact hturn
  | take => exact .inl ((hostTakePixel_offer s).trans ho)
  | offer c => exact .inl (by simp only [offerByte_of_standing (by simp [ho] : s.host.decOffer ≠ none), ho])
  | transfer c =>
    rcases byteTransfer_eq s c with h | ⟨hnone, -⟩
    · exact .inl (by rw [h, ho])
    · simp [ho] at hnone
  | nibble n =>
    rcases nibbleStep_eq s n with h | h <;> rw [h]
    · exact .inl ho
    · exact hturn

end

theorem exec_encPixelIn (v : Pixel) (s : State) :
    exec (.encPixelIn v) s = .next { s with host := offerPixel v s.host } := rfl

theorem exec_decByteIn (b : Byte) (s : State) :
    exec (.decByteIn b) s = .next { s with host := offerByte b s.host } := rfl

/-- Settles O10: the offer by whether one stands; a step by what it does to each engine's part. -/
theorem offersAreHeld : Obligations.OffersAreHeld := by
  refine ⟨fun v b s => ⟨fun ho => ?_, fun ho => ?_, fun ho => ?_, fun ho => ?_⟩,
    fun s t ht hreset => ⟨fun p ho => ?_, fun b ho => ?_⟩⟩
  · rw [exec_encPixelIn, offerPixel_of_none ho]
  · rw [exec_encPixelIn, offerPixel_of_standing ho]
  · rw [exec_decByteIn, offerByte_of_none ho]
  · rw [exec_decByteIn, offerByte_of_standing ho]
  · rcases step_encPart ht with ⟨it, rest, hagenda, ⟨hi, -⟩ | ⟨count, len, hi, -, -, hoffer⟩⟩ | ⟨f, hf, hpart⟩
    · exact absurd (by rw [hagenda, sendItem_of_decode hi]; rfl) (hreset rest)
    · exact .inl (hoffer.trans ho)
    · obtain ⟨hregs, hoffer, hsent, -⟩ := EncPart.mk.inj hpart
      rw [hregs, hoffer, hsent]
      refine (hf.offer_kept_or_taken ho).imp_right ?_
      rintro ⟨hs, hlt, -, hhost, hindex⟩
      exact ⟨by rw [hhost], by rw [hhost], hs, hlt, hindex⟩
  · rcases step_decPart ht with ⟨it, rest, hagenda, ⟨hi, -⟩ | ⟨count, len, hi, -, -, hoffer⟩⟩ | ⟨f, hf, hpart⟩
    · exact absurd (by rw [hagenda, sendItem_of_decode hi]; rfl) (hreset rest)
    · exact .inl (hoffer.trans ho)
    · obtain ⟨hregs, hoffer, hsent, -⟩ := DecPart.mk.inj hpart
      rw [hregs, hoffer, hsent]
      refine (hf.offer_kept_or_taken ho).imp_right ?_
      rintro ⟨hw, -, hhost, hbytes⟩
      exact ⟨by rw [hhost], by rw [hhost], hw, hbytes⟩

/-! ## The predictors -/

/-- E_PREV in the value phase: E_PIX, as a run group ends (R242). -/
def EncValuePhase (s t : State) : Prop :=
  s.enc.state = .emitRun ∧ t.enc.state = .emitCode ∧ t.enc.prev = s.enc.pix

/-- D_PREV in the value phase: D_VAL, as a code group ends (R275). -/
def DecValuePhase (s t : State) : Prop :=
  s.dec.state = .codeGroup ∧ t.dec.state = .emitValue ∧ t.dec.prev = t.dec.val

theorem encTurn_prev (s : State) : (encTurn s).enc.prev = s.enc.prev ∨ EncValuePhase s (encTurn s) := by
  have hemit (onLast : Enc → Enc) (hlast : ∀ e, (onLast e).prev = e.prev) :
      (emitStep onLast s.enc).prev = s.enc.prev := by
    rcases emitStep_cases onLast s.enc with ⟨-, h⟩ | ⟨-, -, h⟩ | ⟨-, -, h⟩ <;> simp [h, hlast]
  cases hs : s.enc.state with
  | accept =>
    by_cases hlt : s.enc.index < s.enc.count
    · rw [encTurn_of_pixel hs hlt]
      rcases acceptPixelStep_cases s with h | ⟨-, -, p, -, ⟨-, h⟩ | ⟨-, h⟩⟩ <;> rw [h] <;> exact .inl rfl
    · rw [encTurn_of_end hs hlt]
      rcases acceptEndStep_cases s.enc with h | ⟨-, -, ⟨-, h⟩ | ⟨-, h⟩⟩ <;> rw [h] <;> exact .inl rfl
  | idle | done => rw [encTurn_of_not_busy (by rw [hs]; rfl)]; exact .inl rfl
  | emitRun =>
    rw [encTurn_of_emitRun hs, emitRunStep, if_pos hs]
    rcases emitStep_cases startCode s.enc with ⟨-, h⟩ | ⟨-, -, h⟩ | ⟨-, -, h⟩ <;> rw [h]
    · exact .inl rfl
    · exact .inr ⟨hs, rfl, afterEmit_pix s.enc⟩
    · exact .inl (afterEmit_prev s.enc)
  | emitCode =>
    rw [encTurn_of_emitCode hs, emitCodeStep, if_pos hs]
    exact .inl (hemit _ fun _ => rfl)
  | emitTail =>
    rw [encTurn_of_emitTail hs, emitTailStep, if_pos hs]
    exact .inl (hemit _ fun _ => rfl)
  | flush =>
    rw [encTurn_of_flush hs]
    rcases flushStep_cases s.enc with h | ⟨-, -, ⟨-, h⟩ | ⟨-, h⟩⟩ <;> rw [h] <;> exact .inl rfl

/-- A nibble changes D_PREV only as the check of a code group does. -/
theorem afterNibble_prev (s : State) (hs : s.dec.state = .runGroup ∨ s.dec.state = .codeGroup) (n : Nibble) {d : Dec}
    (hd : d.prev = s.dec.prev) :
    (afterNibble (groupCheck s.dec) n d).prev = s.dec.prev ∨
      (s.dec.state = .codeGroup ∧ (afterNibble (groupCheck s.dec) n d).state = .emitValue ∧
        (afterNibble (groupCheck s.dec) n d).prev = (afterNibble (groupCheck s.dec) n d).val) := by
  unfold afterNibble groupCheck
  rcases hs with hs | hs
  · left
    simp only [hs, if_true]
    split <;> simp [hd]
  · simp only [hs, reduceCtorEq, if_false, true_and]
    split
    · exact (rangeCheck_prev (vldStep n d)).imp_left fun h => h.trans hd
    · exact .inl hd

theorem decTurn_prev (s : State) : (decTurn s).dec.prev = s.dec.prev ∨ DecValuePhase s (decTurn s) := by
  have hgroup (hs : s.dec.state = .runGroup ∨ s.dec.state = .codeGroup) :
      (decTurn s).dec.prev = s.dec.prev ∨ DecValuePhase s (decTurn s) := by
    rw [decTurn_of_group hs]
    rcases groupStep_cases (groupCheck s.dec) s with ⟨h, -⟩ | ⟨-, -, h⟩ | ⟨-, h⟩ | ⟨-, -, b, -, h⟩ <;> rw [h]
    · exact .inl rfl
    · exact .inl rfl
    · exact afterNibble_prev s hs _ rfl
    · exact afterNibble_prev s hs _ rfl
  cases hs : s.dec.state with
  | runGroup => exact hgroup (.inl hs)
  | codeGroup => exact hgroup (.inr hs)
  | idle | done | error => rw [decTurn_of_not_busy (by rw [hs]; rfl)]; exact .inl rfl
  | emitZeros =>
    rw [decTurn_of_emitZeros hs]
    rcases emitZerosStep_cases s.dec with h | ⟨-, ⟨-, -, h⟩ | ⟨-, -, h⟩ | ⟨-, -, h⟩⟩ <;> rw [h] <;> exact .inl rfl
  | emitValue =>
    rw [decTurn_of_emitValue hs]
    rcases emitValueStep_cases s.dec with h | ⟨-, -, ⟨-, h⟩ | ⟨-, h⟩⟩ <;> rw [h] <;> exact .inl rfl
  | drain =>
    rw [decTurn_of_drain hs]
    rcases drainStep_cases s with h | ⟨-, ⟨-, b, -, h⟩ | ⟨-, -, h⟩⟩ <;> rw [h] <;> exact .inl rfl

section
variable {s : State} {f : State → State}

theorem EncOp.prev (hf : EncOp f) : (f s).enc.prev = s.enc.prev ∨ EncValuePhase s (f s) := by
  cases hf with
  | nothing | offer v => exact .inl rfl
  | turn => exact encTurn_prev s
  | take => rcases hostTakeByte_cases s with ⟨-, h⟩ | ⟨-, h⟩ <;> rw [h] <;> exact .inl rfl
  | transfer v =>
    rcases pixelTransfer_eq s v with h | ⟨-, h⟩ <;> rw [h]
    · exact .inl rfl
    · exact encTurn_prev (s.withPixelOffer (some v))

theorem DecOp.prev (hf : DecOp f) : (f s).dec.prev = s.dec.prev ∨ DecValuePhase s (f s) := by
  cases hf with
  | nothing | offer b => exact .inl rfl
  | turn => exact decTurn_prev s
  | take => rcases hostTakePixel_cases s with ⟨-, h⟩ | ⟨-, h⟩ <;> rw [h] <;> exact .inl rfl
  | transfer b =>
    rcases byteTransfer_eq s b with h | ⟨-, h⟩ <;> rw [h]
    · exact .inl rfl
    · exact decTurn_prev (s.withByteOffer (some b))
  | nibble n =>
    rcases nibbleStep_eq s n with h | h <;> rw [h]
    · exact .inl rfl
    · exact decTurn_prev s

end

theorem exec_prevUpdate (v : Pixel) (s : State) :
    exec (.prevUpdate .enc v) s = .next { s with enc := encPrevUpdate v s.enc } ∧
      exec (.prevUpdate .dec v) s = .next { s with dec := decPrevUpdate v s.dec } := ⟨rfl, rfl⟩

/-- Settles O30: an accepted start clears the predictor, and a step changes it as its operation does. -/
theorem predictorIsWrittenInTheValuePhase : Obligations.PredictorIsWrittenInTheValuePhase := by
  refine ⟨exec_prevUpdate, fun count len s t => ⟨fun hs ht => ?_, fun hs ht => ?_⟩,
    fun s t ht => ⟨fun hne => ?_, fun hne => ?_⟩⟩
  · rw [exec_encStart_of_not_busy (encBusy_eq_false hs)] at ht
    injection ht with ht
    rw [← ht]
    rfl
  · rw [exec_decStart_of_not_busy (decBusy_eq_false hs)] at ht
    injection ht with ht
    rw [← ht]
    rfl
  · rcases step_encPart ht with ⟨it, rest, hagenda, ⟨hi, h⟩ | ⟨count, len, hi, -, h, -⟩⟩ | ⟨f, hf, hpart⟩
    · exact .inl ⟨by rw [h]; rfl, it, rest, hagenda, .inr ⟨hi, by rw [h]; rfl⟩⟩
    · exact .inl ⟨by rw [h]; rfl, it, rest, hagenda, .inl ⟨count, len, hi, by rw [h]; rfl, by rw [h]; rfl⟩⟩
    · obtain ⟨hregs, -⟩ := EncPart.mk.inj hpart
      rw [hregs] at hne ⊢
      exact .inr (hf.prev.resolve_left hne)
  · rcases step_decPart ht with ⟨it, rest, hagenda, ⟨hi, h⟩ | ⟨count, len, hi, -, h, -⟩⟩ | ⟨f, hf, hpart⟩
    · exact .inl ⟨by rw [h]; rfl, it, rest, hagenda, .inr ⟨hi, by rw [h]; rfl⟩⟩
    · exact .inl ⟨by rw [h]; rfl, it, rest, hagenda,
        .inl ⟨count, len, hi, by rw [h]; rfl, by rw [h]; exact decJobStart_state count len⟩⟩
    · obtain ⟨hregs, -⟩ := DecPart.mk.inj hpart
      rw [hregs] at hne ⊢
      exact .inr (hf.prev.resolve_left hne)

end Sys2Proof.Machine
end

section
/-! Waiting and progress (R248, R281, R379). An engine's turn changes nothing while the engine waits on the host, and
otherwise lowers the bound on the steps left; nothing else raises that bound. In an endless run the bound of a job that
never ends would be constant from some step on: then the host's items come to stand, the engine stays enabled, and the
turn that fairness promises lowers the bound once more. -/

namespace Sys2Proof.Machine

open Sys2Proof

/-! ## The bound of ENC's job, state by state -/

section
variable {e : Enc}

theorem encLeft_accept (hs : e.state = .accept) : encLeft e = 20 * (e.count.toNat - e.index.toNat) + 16 := by
  simp only [encLeft, hs]

theorem encLeft_emitRun (hs : e.state = .emitRun) :
    encLeft e = 20 * (e.count.toNat - e.index.toNat) + 23 + (e.vK.toNat - e.vJ.toNat) := by simp only [encLeft, hs]

theorem encLeft_emitCode (hs : e.state = .emitCode) :
    encLeft e = 20 * (e.count.toNat - e.index.toNat) + 16 + (e.vK.toNat - e.vJ.toNat) := by simp only [encLeft, hs]

theorem encLeft_emitTail (hs : e.state = .emitTail) : encLeft e = 4 + (e.vK.toNat - e.vJ.toNat) := by
  simp only [encLeft, hs]

theorem encLeft_flush (hs : e.state = .flush) : encLeft e = if e.pPend then 2 else 1 := by simp only [encLeft, hs]

theorem encLeft_done (hs : e.state = .done) : encLeft e = 0 := by simp only [encLeft, hs]

theorem encLeft_flush_le (hs : e.state = .flush) : encLeft e ≤ 2 := by
  rw [encLeft_flush hs]
  split <;> decide

end

/-! ## ENC's turn -/

section
variable {s : State}

theorem encTurn_of_waits (h : encWaits s = true) : encTurn s = s := by
  unfold encWaits at h
  cases hs : s.enc.state <;> simp only [hs, Bool.and_eq_true, decide_eq_true_eq, Bool.false_eq_true] at h
  case accept =>
    obtain ⟨hlt, ho⟩ := h
    rw [encTurn_of_pixel hs hlt]
    exact acceptPixelStep_of_disabled fun ⟨_, _, hoffer⟩ => hoffer (Option.isNone_iff_eq_none.mp ho)
  case emitRun => rw [encTurn_of_emitRun hs, emitRunStep, if_pos hs, emitStep_of_no_room _ h]
  case emitCode => rw [encTurn_of_emitCode hs, emitCodeStep, if_pos hs, emitStep_of_no_room _ h]
  case emitTail => rw [encTurn_of_emitTail hs, emitTailStep, if_pos hs, emitStep_of_no_room _ h]
  case flush => rw [encTurn_of_flush hs, flushStep_of_disabled (.inr h)]

/-- With room for a nibble, an emit step brings the group nearer to its end, or ends it. -/
theorem encLeft_emitStep_lt {onLast : Enc → Enc} {e : Enc} (hc : EncCounters e) (hemit : encEmitting e.state)
    (hroom : (e.pPend && e.obValid) = false)
    (hlast : e.vJ.toNat + 1 = e.vK.toNat → encLeft (onLast (afterEmit e)) < encLeft e) :
    encLeft (emitStep onLast e) < encLeft e := by
  obtain ⟨-, -, hgroup, -, -⟩ := hc
  obtain ⟨hJ, -⟩ := hgroup hemit
  rw [emitStep_of_room onLast (Bool.and_eq_false_iff.mp hroom)]
  split
  · next h => exact hlast h
  · have hJ' := toNat_add_one_of_lt (BitVec.lt_def.mpr hJ)
    rcases hemit with hs | hs | hs <;>
      simp only [encLeft, afterEmit_state, afterEmit_count, afterEmit_index, afterEmit_vK, afterEmit_vJ, hs, hJ'] <;>
      omega

/-- A pixel taken pays for its group, and for the code after it (R113). -/
theorem encLeft_acceptPixelStep_lt (hs : s.enc.state = .accept) (hlt : s.enc.index < s.enc.count)
    (ho : s.host.encOffer ≠ none) : encLeft (acceptPixelStep s).enc < encLeft s.enc := by
  obtain ⟨p, hp⟩ := Option.ne_none_iff_exists'.mp ho
  have hindex := toNat_add_one_of_lt hlt
  have hlt' := BitVec.lt_def.mp hlt
  rw [encLeft_accept hs]
  cases hz : isZero p with
  | true =>
    rw [acceptPixelStep_of_zero hs hlt hp hz, encLeft_accept (by exact hs)]
    simp only [hindex]
    omega
  | false =>
    have hgroup := octLen_le_eleven s.enc.run.isLt
    have hK := vleLoad_vK_toNat s.enc.run s.enc
    rw [vleLoad_vK] at hK
    rw [acceptPixelStep_of_nonzero hs hlt hp hz, encLeft_emitRun rfl]
    simp only [vleLoad_vK, vleLoad_vJ, vleLoad_count, vleLoad_index, hindex, hK]
    omega

theorem encLeft_acceptEndStep_lt {e : Enc} (hs : e.state = .accept) (hn : e.index = e.count) :
    encLeft (acceptEndStep e) < encLeft e := by
  rw [encLeft_accept hs]
  by_cases hr : e.run = 0
  · rw [acceptEndStep_of_no_run hs hn hr]
    have hle := encLeft_flush_le (e := { e with state := .flush }) rfl
    omega
  · have hgroup := octLen_le_eleven e.run.isLt
    have hK := vleLoad_vK_toNat e.run e
    rw [acceptEndStep_of_run hs hn hr, encLeft_emitTail rfl]
    simp only [hK]
    omega

theorem encLeft_startCode_lt {e : Enc} (hs : e.state = .emitRun) (hlast : e.vJ.toNat + 1 = e.vK.toNat) :
    encLeft (startCode (afterEmit e)) < encLeft e := by
  have hcode := octLen_code_le_six (afterEmit e).pix (afterEmit e).prev
  rw [encLeft_emitRun hs, encLeft_emitCode (startCode_state _), startCode_vK_toNat, startCode_count, startCode_index,
    afterEmit_count, afterEmit_index]
  omega

theorem encLeft_flushStep_lt {e : Enc} (hs : e.state = .flush) (hroom : e.obValid = false) :
    encLeft (flushStep e) < encLeft e := by
  rw [encLeft_flush hs]
  cases hpend : e.pPend with
  | true =>
    rw [flushStep_of_pending hs hpend hroom, encLeft_flush (by exact hs)]
    exact Nat.one_lt_two
  | false =>
    rw [flushStep_of_empty hs hpend hroom, encLeft_done rfl]
    decide

/-- Where ENC does not wait, its turn brings the job nearer to its end (R248). -/
theorem encLeft_encTurn_lt (hc : EncCounters s.enc) (hbusy : encBusy s.enc.state = true) (hw : encWaits s = false) :
    encLeft (encTurn s).enc < encLeft s.enc := by
  unfold encWaits at hw
  cases hs : s.enc.state <;> simp only [hs, encBusy, Bool.false_eq_true] at hw hbusy
  case accept =>
    by_cases hlt : s.enc.index < s.enc.count
    · rw [encTurn_of_pixel hs hlt]
      exact encLeft_acceptPixelStep_lt hs hlt fun ho => by simp [hlt, ho] at hw
    · obtain ⟨hindex, -⟩ := hc
      rw [encTurn_of_end hs hlt]
      exact encLeft_acceptEndStep_lt hs (by bv_omega)
  case emitRun =>
    rw [encTurn_of_emitRun hs, emitRunStep, if_pos hs]
    exact encLeft_emitStep_lt hc (.inl hs) hw (encLeft_startCode_lt hs)
  case emitCode =>
    rw [encTurn_of_emitCode hs, emitCodeStep, if_pos hs]
    refine encLeft_emitStep_lt hc (.inr (.inl hs)) hw fun hlast => ?_
    rw [encLeft_emitCode hs, encLeft_accept rfl, afterEmit_count, afterEmit_index]
    omega
  case emitTail =>
    rw [encTurn_of_emitTail hs, emitTailStep, if_pos hs]
    refine encLeft_emitStep_lt hc (.inr (.inr hs)) hw fun hlast => ?_
    have hle := encLeft_flush_le (e := { afterEmit s.enc with run := 0, state := .flush }) rfl
    rw [encLeft_emitTail hs]
    exact hle.trans_lt (by omega)
  case flush =>
    rw [encTurn_of_flush hs]
    exact encLeft_flushStep_lt hs hw

theorem encLeft_encTurn_le (hc : EncCounters s.enc) : encLeft (encTurn s).enc ≤ encLeft s.enc := by
  cases hbusy : encBusy s.enc.state with
  | false => rw [encTurn_of_not_busy hbusy]
  | true =>
    cases hw : encWaits s with
    | true => rw [encTurn_of_waits hw]
    | false => exact (encLeft_encTurn_lt hc hbusy hw).le

theorem encBusy_of_encNext (h : encNext s.enc ≠ none) : encBusy s.enc.state = true :=
  eq_true_of_ne_false fun hbusy => h (encNext_of_not_busy hbusy)

/-- Within the bounds every state of a job has its step. -/
theorem encNext_ne_none (hc : EncCounters s.enc) (hbusy : encBusy s.enc.state = true) : encNext s.enc ≠ none := by
  obtain ⟨hindex, -⟩ := hc
  unfold encNext
  cases hs : s.enc.state <;> simp only [hs, encBusy, Bool.false_eq_true] at hbusy ⊢
  case accept =>
    by_cases hlt : s.enc.index < s.enc.count
    · simp [hlt]
    · have hn : s.enc.index = s.enc.count := by bv_omega
      simp [hn]
  all_goals simp

theorem encLeft_hostTakeByte (s : State) : encLeft (hostTakeByte s).enc = encLeft s.enc := by
  rcases hostTakeByte_cases s with ⟨-, h⟩ | ⟨-, h⟩ <;> rw [h]
  rfl

end

/-! ## The bound of DEC's job -/

/-- The part of DEC's bound that its state adds. -/
def decStateLeft (st : DecState) : Nat :=
  match st with
  | .runGroup => 2
  | .emitZeros => 3
  | .codeGroup => 2
  | .emitValue => 2
  | .drain => 1
  | .idle => 0
  | .done => 0
  | .error => 0

theorem decLeft_eq (d : Dec) :
    decLeft d = 4 * (2 * d.len.toNat - d.nibbles.toNat) + 4 * (d.count.toNat - d.produced.toNat) +
      (d.len.toNat - d.bytesIn.toNat) + decStateLeft d.state := rfl

theorem decStateLeft_le (st : DecState) : decStateLeft st ≤ 3 := by cases st <;> decide

/-! ## DEC's turn -/

section
variable {s : State}

theorem decTurn_of_waits (h : decWaits s = true) : decTurn s = s := by
  unfold decWaits at h
  cases hs : s.dec.state <;>
    simp only [hs, Bool.and_eq_true, decide_eq_true_eq, Bool.false_eq_true, Bool.not_eq_true',
      Option.isNone_iff_eq_none] at h
  case runGroup =>
    obtain ⟨⟨hlo, hlt⟩, ho⟩ := h
    rw [decTurn_of_group (.inl hs), groupStep_of_no_byte _ hlo hlt ho]
  case codeGroup =>
    obtain ⟨⟨hlo, hlt⟩, ho⟩ := h
    rw [decTurn_of_group (.inr hs), groupStep_of_no_byte _ hlo hlt ho]
  case emitZeros => rw [decTurn_of_emitZeros hs, emitZerosStep_of_disabled (.inr h)]
  case emitValue => rw [decTurn_of_emitValue hs, emitValueStep_of_disabled (.inr h)]
  case drain =>
    rw [decTurn_of_drain hs]
    split at h
    · next hlt => exact drainStep_of_disabled (.inr (.inl ⟨hlt, Option.isNone_iff_eq_none.mp h⟩))
    · next hlt => exact drainStep_of_disabled (.inr (.inr ⟨hlt, h⟩))

/-- A check at the end of a group leaves the counters alone. -/
def KeepsCounts (finish : Dec → Dec) : Prop :=
  ∀ d, (finish d).count = d.count ∧ (finish d).len = d.len ∧ (finish d).produced = d.produced ∧
    (finish d).bytesIn = d.bytesIn ∧ (finish d).nibbles = d.nibbles

theorem keepsCounts_groupCheck (c : Dec) : KeepsCounts (groupCheck c) := by
  intro d
  unfold groupCheck
  split
  · rcases overrunCheck_cases d with ⟨-, h⟩ | ⟨-, -, h⟩ <;> simp [h]
  · rcases rangeCheck_cases d with ⟨-, h⟩ | ⟨-, -, h⟩ | ⟨-, v, -, h⟩ <;> simp [h]

/-- The nibble read, not the check that may follow it, changes the counters. -/
theorem KeepsCounts.afterNibble {finish : Dec → Dec} (hf : KeepsCounts finish) (n : Nibble) (d : Dec) :
    (afterNibble finish n d).count = d.count ∧ (afterNibble finish n d).len = d.len ∧
      (afterNibble finish n d).produced = d.produced ∧ (afterNibble finish n d).bytesIn = d.bytesIn ∧
      (afterNibble finish n d).nibbles = d.nibbles + 1 := by
  unfold Machine.afterNibble
  split
  · exact hf (vldStep n d)
  · exact ⟨rfl, rfl, rfl, rfl, rfl⟩

/-- One nibble read pays for the change of state it can bring. -/
theorem decLeft_afterNibble_lt {d d' : Dec} {finish : Dec → Dec} (hf : KeepsCounts finish) (n : Nibble)
    (hgroup : d.state = .runGroup ∨ d.state = .codeGroup) (hcount : d'.count = d.count) (hlen : d'.len = d.len)
    (hproduced : d'.produced = d.produced) (hnibbles : d'.nibbles = d.nibbles)
    (hbytes : d.bytesIn.toNat ≤ d'.bytesIn.toNat) (hlt : d.nibbles.toNat < 2 * d.len.toNat) :
    decLeft (afterNibble finish n d') < decLeft d := by
  obtain ⟨hcount', hlen', hproduced', hbytes', hnibbles'⟩ := hf.afterNibble n d'
  have hle := decStateLeft_le (afterNibble finish n d').state
  have hstate : decStateLeft d.state = 2 := by rcases hgroup with hs | hs <;> rw [hs] <;> rfl
  have hbound := d.len.isLt
  have hnext : (d.nibbles + 1).toNat = d.nibbles.toNat + 1 := by
    rw [toNat_add_one, Nat.mod_eq_of_lt (by omega)]
  rw [decLeft_eq, decLeft_eq, hcount', hlen', hproduced', hbytes', hnibbles', hcount, hlen, hproduced, hnibbles, hnext,
    hstate]
  omega

theorem decLeft_groupStep_lt (hc : DecCounters s.dec) (hs : s.dec.state = .runGroup ∨ s.dec.state = .codeGroup)
    (hw : decWaits s = false) : decLeft (groupStep (groupCheck s.dec) s).dec < decLeft s.dec := by
  obtain ⟨hbytes, hnibbles, -, -⟩ := hc
  have hkeeps := keepsCounts_groupCheck s.dec
  have hstate : decStateLeft s.dec.state = 2 := by rcases hs with hs | hs <;> rw [hs] <;> rfl
  rcases groupStep_cases (groupCheck s.dec) s with ⟨-, hlo, hlt, ho⟩ | ⟨-, -, h⟩ | ⟨hlo, h⟩ | ⟨-, hlt, b, -, h⟩
  · have : decWaits s = true := by rcases hs with hs | hs <;> simp [decWaits, hs, hlo, hlt, ho]
    simp [this] at hw
  · have hle : decStateLeft DecState.drain < decStateLeft s.dec.state := by rw [hstate]; decide
    rw [h, decLeft_eq, decLeft_eq]
    simp only [raiseDecode_len, raiseDecode_nibbles, raiseDecode_count, raiseDecode_produced, raiseDecode_bytesIn,
      raiseDecode_state]
    omega
  · rw [hlo, if_pos rfl] at hnibbles
    rw [h]
    exact decLeft_afterNibble_lt hkeeps _ hs rfl rfl rfl rfl le_rfl (by omega)
  · have hnext := toNat_add_one_of_lt hlt
    have hlt' := BitVec.lt_def.mp hlt
    rw [h]
    exact decLeft_afterNibble_lt hkeeps _ hs rfl rfl rfl rfl (by simp only [hnext]; omega) (by omega)

theorem decLeft_emitZerosStep_lt {d : Dec} (hc : DecCounters d) (hs : d.state = .emitZeros)
    (hw : d.zrem = 0 ∨ d.poValid = false) : decLeft (emitZerosStep d) < decLeft d := by
  obtain ⟨-, -, -, hstate⟩ := hc
  rw [hs] at hstate
  obtain ⟨-, hleft⟩ := hstate
  by_cases hz : d.zrem = 0
  · rw [emitZerosStep_of_none_left hs hz, decLeft_eq d, hs]
    split
    · exact Nat.add_lt_add_left (by decide : decStateLeft .codeGroup < decStateLeft .emitZeros) _
    · exact Nat.add_lt_add_left (by decide : decStateLeft .drain < decStateLeft .emitZeros) _
  · have hlt : d.produced < d.count := by bv_omega
    have hnext := toNat_add_one_of_lt hlt
    have hlt' := BitVec.lt_def.mp hlt
    rw [emitZerosStep_of_zero_left hs hz (hw.resolve_left hz), decLeft_eq, decLeft_eq]
    simp only [hnext]
    omega

theorem decLeft_emitValueStep_lt {d : Dec} (hc : DecCounters d) (hs : d.state = .emitValue)
    (hroom : d.poValid = false) : decLeft (emitValueStep d) < decLeft d := by
  obtain ⟨-, -, -, hstate⟩ := hc
  rw [hs] at hstate
  obtain ⟨-, hlt⟩ := hstate
  have hnext := toNat_add_one_of_lt (BitVec.lt_def.mpr hlt)
  rw [emitValueStep_of_room hs hroom, decLeft_eq d]
  split
  · rw [decLeft_eq]
    simp only [hnext, hs, decStateLeft]
    omega
  · rw [decLeft_eq]
    simp only [hnext, hs, decStateLeft]
    omega

theorem decLeft_drainStep_lt (hs : s.dec.state = .drain) (hw : decWaits s = false) :
    decLeft (drainStep s).dec < decLeft s.dec := by
  simp only [decWaits, hs] at hw
  by_cases hlt : s.dec.bytesIn < s.dec.len
  · rw [if_pos hlt] at hw
    obtain ⟨b, ho⟩ := Option.ne_none_iff_exists'.mp fun h : s.host.decOffer = none => by simp [h] at hw
    have hnext := toNat_add_one_of_lt hlt
    have hlt' := BitVec.lt_def.mp hlt
    rw [drainStep_of_byte hs hlt ho, decLeft_eq, decLeft_eq]
    simp only [hnext]
    omega
  · rw [if_neg hlt] at hw
    have hend : decStateLeft (if s.dec.err = none then DecState.done else .error) = 0 := by split <;> rfl
    rw [drainStep_of_end hs hlt hw, decLeft_eq, decLeft_eq, hend, hs]
    exact Nat.lt_succ_self _

/-- Where DEC does not wait, its turn brings the job nearer to its end (R281). -/
theorem decLeft_decTurn_lt (hc : DecCounters s.dec) (hbusy : decBusy s.dec.state = true) (hw : decWaits s = false) :
    decLeft (decTurn s).dec < decLeft s.dec := by
  cases hs : s.dec.state <;> simp only [hs, decBusy, Bool.false_eq_true] at hbusy
  case runGroup =>
    rw [decTurn_of_group (.inl hs)]
    exact decLeft_groupStep_lt hc (.inl hs) hw
  case codeGroup =>
    rw [decTurn_of_group (.inr hs)]
    exact decLeft_groupStep_lt hc (.inr hs) hw
  case emitZeros =>
    rw [decTurn_of_emitZeros hs]
    refine decLeft_emitZerosStep_lt hc hs ?_
    simpa only [decWaits, hs, Bool.and_eq_false_iff, decide_eq_false_iff_not, not_not] using hw
  case emitValue =>
    rw [decTurn_of_emitValue hs]
    exact decLeft_emitValueStep_lt hc hs (by simpa only [decWaits, hs] using hw)
  case drain =>
    rw [decTurn_of_drain hs]
    exact decLeft_drainStep_lt hs hw

theorem decLeft_decTurn_le (hc : DecCounters s.dec) : decLeft (decTurn s).dec ≤ decLeft s.dec := by
  cases hbusy : decBusy s.dec.state with
  | false => rw [decTurn_of_not_busy hbusy]
  | true =>
    cases hw : decWaits s with
    | true => rw [decTurn_of_waits hw]
    | false => exact (decLeft_decTurn_lt hc hbusy hw).le

theorem decBusy_of_decNext (h : decNext s.dec ≠ none) : decBusy s.dec.state = true :=
  eq_true_of_ne_false fun hbusy => h (decNext_of_not_busy hbusy)

theorem decNext_ne_none (hbusy : decBusy s.dec.state = true) : decNext s.dec ≠ none := by
  unfold decNext
  cases hs : s.dec.state <;> simp_all [decBusy]

theorem decLeft_hostTakePixel (s : State) : decLeft (hostTakePixel s).dec = decLeft s.dec := by
  rcases hostTakePixel_cases s with ⟨-, h⟩ | ⟨-, h⟩ <;> rw [h]
  rfl

end

/-! ## What leaves the bound as it is -/

section
variable {s : State} {f : State → State}

theorem offerPixel_eq (v : Pixel) (s : State) :
    { s with host := offerPixel v s.host } = s ∨
      { s with host := offerPixel v s.host } = s.withPixelOffer (some v) := by
  rcases offerPixel_cases v s.host with ⟨-, h⟩ | ⟨-, h⟩ <;> rw [h]
  · exact .inr rfl
  · exact .inl rfl

theorem offerByte_eq (b : Byte) (s : State) :
    { s with host := offerByte b s.host } = s ∨
      { s with host := offerByte b s.host } = s.withByteOffer (some b) := by
  rcases offerByte_cases b s.host with ⟨-, h⟩ | ⟨-, h⟩ <;> rw [h]
  · exact .inr rfl
  · exact .inl rfl

/-- The turn that leaves the bound of a running job as it is waits. -/
theorem encTurn_eq_of_encLeft_eq (hc : EncCounters s.enc) (hbusy : encBusy s.enc.state = true)
    (h : encLeft (encTurn s).enc = encLeft s.enc) : encTurn s = s := by
  cases hw : encWaits s with
  | true => exact encTurn_of_waits hw
  | false => exact absurd h (encLeft_encTurn_lt hc hbusy hw).ne

theorem decTurn_eq_of_decLeft_eq (hc : DecCounters s.dec) (hbusy : decBusy s.dec.state = true)
    (h : decLeft (decTurn s).dec = decLeft s.dec) : decTurn s = s := by
  cases hw : decWaits s with
  | true => exact decTurn_of_waits hw
  | false => exact absurd h (decLeft_decTurn_lt hc hbusy hw).ne

theorem EncOp.encLeft_le (hf : EncOp f) (hc : EncCounters s.enc) : encLeft (f s).enc ≤ encLeft s.enc := by
  cases hf with
  | nothing | offer v => exact le_rfl
  | turn => exact encLeft_encTurn_le hc
  | take => exact (encLeft_hostTakeByte s).le
  | transfer v =>
    rcases pixelTransfer_eq s v with h | ⟨-, h⟩ <;> rw [h]
    exact encLeft_encTurn_le (s := s.withPixelOffer (some v)) hc

theorem DecOp.decLeft_le (hf : DecOp f) (hc : DecCounters s.dec) : decLeft (f s).dec ≤ decLeft s.dec := by
  cases hf with
  | nothing | offer b => exact le_rfl
  | turn => exact decLeft_decTurn_le hc
  | take => exact (decLeft_hostTakePixel s).le
  | transfer b =>
    rcases byteTransfer_eq s b with h | ⟨-, h⟩ <;> rw [h]
    exact decLeft_decTurn_le (s := s.withByteOffer (some b)) hc
  | nibble n =>
    rcases nibbleStep_eq s n with h | h <;> rw [h]
    exact decLeft_decTurn_le hc

/-- While the bound of a running job stays, only the host's take and its offer change ENC's part. -/
theorem EncOp.cases_of_encLeft_eq (hf : EncOp f) (hc : EncCounters s.enc) (hbusy : encBusy s.enc.state = true)
    (h : encLeft (f s).enc = encLeft s.enc) :
    f s = s ∨ f s = hostTakeByte s ∨ ∃ v, f s = s.withPixelOffer (some v) := by
  cases hf with
  | nothing => exact .inl rfl
  | turn => exact .inl (encTurn_eq_of_encLeft_eq hc hbusy h)
  | take => exact .inr (.inl rfl)
  | offer v => exact (offerPixel_eq v s).imp_right fun h => .inr ⟨v, h⟩
  | transfer v =>
    rcases pixelTransfer_eq s v with h' | ⟨-, h'⟩
    · exact .inl h'
    · rw [h'] at h ⊢
      exact .inr (.inr ⟨v, encTurn_eq_of_encLeft_eq (s := s.withPixelOffer (some v)) hc hbusy h⟩)

/-- While the bound of a running job stays, only the host's take and its offer change DEC's part. -/
theorem DecOp.cases_of_decLeft_eq (hf : DecOp f) (hc : DecCounters s.dec) (hbusy : decBusy s.dec.state = true)
    (h : decLeft (f s).dec = decLeft s.dec) :
    f s = s ∨ f s = hostTakePixel s ∨ ∃ b, f s = s.withByteOffer (some b) := by
  cases hf with
  | nothing => exact .inl rfl
  | turn => exact .inl (decTurn_eq_of_decLeft_eq hc hbusy h)
  | take => exact .inr (.inl rfl)
  | offer b => exact (offerByte_eq b s).imp_right fun h => .inr ⟨b, h⟩
  | transfer b =>
    rcases byteTransfer_eq s b with h' | ⟨-, h'⟩
    · exact .inl h'
    · rw [h'] at h ⊢
      exact .inr (.inr ⟨b, decTurn_eq_of_decLeft_eq (s := s.withByteOffer (some b)) hc hbusy h⟩)
  | nibble n =>
    rcases nibbleStep_eq s n with h' | h'
    · exact .inl h'
    · rw [h'] at h ⊢
      exact .inl (decTurn_eq_of_decLeft_eq hc hbusy h)

/-! ## A running job goes on or ends -/

theorem encTurn_state_ne_idle (hbusy : encBusy s.enc.state = true) : (encTurn s).enc.state ≠ .idle := by
  have hemit {onLast : Enc → Enc} {e : Enc} (he : e.state ≠ .idle) (hlast : ∀ e, (onLast e).state ≠ .idle) :
      (emitStep onLast e).state ≠ .idle := by
    rcases emitStep_cases onLast e with ⟨-, h⟩ | ⟨-, -, h⟩ | ⟨-, -, h⟩ <;> simp [h, he, hlast]
  cases hs : s.enc.state <;> simp only [hs, encBusy, Bool.false_eq_true] at hbusy
  case accept =>
    by_cases hlt : s.enc.index < s.enc.count
    · rw [encTurn_of_pixel hs hlt]
      rcases acceptPixelStep_cases s with h | ⟨-, -, p, -, ⟨-, h⟩ | ⟨-, h⟩⟩ <;> simp [h, hs]
    · rw [encTurn_of_end hs hlt]
      rcases acceptEndStep_cases s.enc with h | ⟨-, -, ⟨-, h⟩ | ⟨-, h⟩⟩ <;> simp [h, hs]
  case emitRun =>
    rw [encTurn_of_emitRun hs, emitRunStep, if_pos hs]
    exact hemit (by simp [hs]) fun e => by simp
  case emitCode =>
    rw [encTurn_of_emitCode hs, emitCodeStep, if_pos hs]
    exact hemit (by simp [hs]) fun e => by simp
  case emitTail =>
    rw [encTurn_of_emitTail hs, emitTailStep, if_pos hs]
    exact hemit (by simp [hs]) fun e => by simp
  case flush =>
    rw [encTurn_of_flush hs]
    rcases flushStep_cases s.enc with h | ⟨-, -, ⟨-, h⟩ | ⟨-, h⟩⟩ <;> simp [h, hs]

theorem groupCheck_state_ne_idle (c d : Dec) : (groupCheck c d).state ≠ .idle := by
  unfold groupCheck
  split
  · rcases overrunCheck_cases d with ⟨-, h⟩ | ⟨-, -, h⟩ <;> simp [h]
  · rcases rangeCheck_cases d with ⟨-, h⟩ | ⟨-, -, h⟩ | ⟨-, v, -, h⟩ <;> simp [h]

theorem decTurn_state_ne_idle (hbusy : decBusy s.dec.state = true) : (decTurn s).dec.state ≠ .idle := by
  have hafter (n : Nibble) {d : Dec} (hd : d.state ≠ .idle) : (afterNibble (groupCheck s.dec) n d).state ≠ .idle := by
    unfold afterNibble
    split
    · exact groupCheck_state_ne_idle _ _
    · exact hd
  have hgroup (hs : s.dec.state = .runGroup ∨ s.dec.state = .codeGroup) : (decTurn s).dec.state ≠ .idle := by
    have hne : s.dec.state ≠ .idle := by rcases hs with hs | hs <;> simp [hs]
    rw [decTurn_of_group hs]
    rcases groupStep_cases (groupCheck s.dec) s with ⟨h, -⟩ | ⟨-, -, h⟩ | ⟨-, h⟩ | ⟨-, -, b, -, h⟩ <;> rw [h]
    · exact hne
    · simp
    · exact hafter _ hne
    · exact hafter _ hne
  cases hs : s.dec.state <;> simp only [hs, decBusy, Bool.false_eq_true] at hbusy
  case runGroup => exact hgroup (.inl hs)
  case codeGroup => exact hgroup (.inr hs)
  case emitZeros =>
    rw [decTurn_of_emitZeros hs]
    rcases emitZerosStep_cases s.dec with h | ⟨-, ⟨-, -, h⟩ | ⟨-, -, h⟩ | ⟨-, -, h⟩⟩ <;> simp [h, hs]
  case emitValue =>
    rw [decTurn_of_emitValue hs]
    rcases emitValueStep_cases s.dec with h | ⟨-, -, ⟨-, h⟩ | ⟨-, h⟩⟩ <;> simp [h, hs]
  case drain =>
    rw [decTurn_of_drain hs]
    rcases drainStep_cases s with h | ⟨-, ⟨-, b, -, h⟩ | ⟨-, -, h⟩⟩ <;> simp [h, hs]
    split <;> simp

theorem EncOp.state_ne_idle (hf : EncOp f) (hbusy : encBusy s.enc.state = true) : (f s).enc.state ≠ .idle := by
  have hne : s.enc.state ≠ .idle := fun h => by simp [h, encBusy] at hbusy
  cases hf with
  | nothing | offer v => exact hne
  | turn => exact encTurn_state_ne_idle hbusy
  | take => rcases hostTakeByte_cases s with ⟨-, h⟩ | ⟨-, h⟩ <;> rw [h] <;> exact hne
  | transfer v =>
    rcases pixelTransfer_eq s v with h | ⟨-, h⟩ <;> rw [h]
    · exact hne
    · exact encTurn_state_ne_idle (s := s.withPixelOffer (some v)) hbusy

theorem DecOp.state_ne_idle (hf : DecOp f) (hbusy : decBusy s.dec.state = true) : (f s).dec.state ≠ .idle := by
  have hne : s.dec.state ≠ .idle := fun h => by simp [h, decBusy] at hbusy
  cases hf with
  | nothing | offer b => exact hne
  | turn => exact decTurn_state_ne_idle hbusy
  | take => rcases hostTakePixel_cases s with ⟨-, h⟩ | ⟨-, h⟩ <;> rw [h] <;> exact hne
  | transfer b =>
    rcases byteTransfer_eq s b with h | ⟨-, h⟩ <;> rw [h]
    · exact hne
    · exact decTurn_state_ne_idle (s := s.withByteOffer (some b)) hbusy
  | nibble n =>
    rcases nibbleStep_eq s n with h | h <;> rw [h]
    · exact hne
    · exact decTurn_state_ne_idle hbusy

theorem encBusy_eq_true {st : EncState} (hidle : st ≠ .idle) (hdone : st ≠ .done) : encBusy st = true := by
  cases st <;> simp_all [encBusy]

theorem decBusy_eq_true {st : DecState} (hidle : st ≠ .idle) (hdone : st ≠ .done) (herror : st ≠ .error) :
    decBusy st = true := by
  cases st <;> simp_all [decBusy]

end

/-! ## What cannot go on for ever -/

section
variable {moves : Nat → Move} {run : Nat → State}

/-- A duty that is done once and for all comes to be done. -/
theorem EventuallyTaken.never_from {P : State → Prop} {taken : Move → Prop} (h : EventuallyTaken P taken moves run)
    {k : Nat} (hstay : ∀ j, k ≤ j → ¬P (run j) → ¬P (run (j + 1)))
    (htaken : ∀ j, k ≤ j → taken (moves j) → ¬P (run (j + 1))) : ∃ k', k ≤ k' ∧ ∀ j, k' ≤ j → ¬P (run j) := by
  obtain ⟨k', hk', hnot⟩ : ∃ k', k ≤ k' ∧ ¬P (run k') := by
    by_contra hall
    have halways : ∀ j, k ≤ j → P (run j) := fun j hj => by_contra fun hP => hall ⟨j, hj, hP⟩
    obtain ⟨j, hj, ht⟩ := h k halways
    exact htaken j hj ht (halways (j + 1) (by omega))
  refine ⟨k', hk', fun j hj => ?_⟩
  induction j, hj using Nat.le_induction with
  | base => exact hnot
  | succ j hj ih => exact hstay j (hk'.trans hj) ih

/-- An engine's job that goes on from step k on, served by a fair run: the engine's turn, the host's take of what it has
put out, the host's offer of what it lacks, and the bound on the steps left. -/
structure EndlessJob (moves : Nat → Move) (run : Nat → State) (enabled full lacking : State → Prop)
    (turn take offer : Move → Prop) (left : State → Nat) (k : Nat) : Prop where
  fairTurn : EventuallyTaken enabled turn moves run
  fairTake : EventuallyTaken full take moves run
  fairOffer : EventuallyTaken lacking offer moves run
  left_le : ∀ j, k ≤ j → left (run (j + 1)) ≤ left (run j)
  left_lt : ∀ j, k ≤ j → enabled (run j) → turn (moves j) → left (run (j + 1)) < left (run j)
  taken : ∀ j, k ≤ j → take (moves j) → ¬full (run (j + 1))
  offered : ∀ j, k ≤ j → offer (moves j) → ¬lacking (run (j + 1))
  full_stays : ∀ j, k ≤ j → left (run (j + 1)) = left (run j) → ¬full (run j) → ¬full (run (j + 1))
  lacking_stays : ∀ j, k ≤ j → left (run (j + 1)) = left (run j) → ¬lacking (run j) → ¬lacking (run (j + 1))
  enabled : ∀ j, k ≤ j → ¬full (run j) → ¬lacking (run j) → enabled (run j)

section
variable {enabled full lacking : State → Prop} {turn take offer : Move → Prop} {left : State → Nat} {k : Nat}

theorem EndlessJob.later (h : EndlessJob moves run enabled full lacking turn take offer left k) {k' : Nat}
    (hk : k ≤ k') :
    EndlessJob moves run enabled full lacking turn take offer left k' where
  fairTurn := h.fairTurn
  fairTake := h.fairTake
  fairOffer := h.fairOffer
  left_le j hj := h.left_le j (hk.trans hj)
  left_lt j hj := h.left_lt j (hk.trans hj)
  taken j hj := h.taken j (hk.trans hj)
  offered j hj := h.offered j (hk.trans hj)
  full_stays j hj := h.full_stays j (hk.trans hj)
  lacking_stays j hj := h.lacking_stays j (hk.trans hj)
  enabled j hj := h.enabled j (hk.trans hj)

theorem EndlessJob.left_le_start (h : EndlessJob moves run enabled full lacking turn take offer left k) {j : Nat}
    (hj : k ≤ j) : left (run j) ≤ left (run k) := by
  induction j, hj using Nat.le_induction with
  | base => exact le_rfl
  | succ j hj ih => exact (h.left_le j hj).trans ih

/-- The bound does not stay as it is: with no byte or pixel left to take and none lacking, the turn is enabled. -/
theorem EndlessJob.exists_lt (h : EndlessJob moves run enabled full lacking turn take offer left k) :
    ∃ j, k ≤ j ∧ left (run (j + 1)) < left (run j) := by
  by_contra hno
  have heq : ∀ j, k ≤ j → left (run (j + 1)) = left (run j) := fun j hj =>
    (h.left_le j hj).antisymm (not_lt.mp fun hlt => hno ⟨j, hj, hlt⟩)
  obtain ⟨k₁, hk₁, hfull⟩ := h.fairTake.never_from (fun j hj => h.full_stays j hj (heq j hj)) h.taken
  have h₁ := h.later hk₁
  obtain ⟨k₂, hk₂, hlacking⟩ :=
    h₁.fairOffer.never_from (fun j hj => h₁.lacking_stays j hj (heq j (hk₁.trans hj))) h₁.offered
  have h₂ := h₁.later hk₂
  have henabled : ∀ j, k₂ ≤ j → enabled (run j) := fun j hj =>
    h₂.enabled j hj (hfull j (hk₂.trans hj)) (hlacking j hj)
  obtain ⟨j, hj, hturn⟩ := h₂.fairTurn k₂ henabled
  exact hno ⟨j, hk₁.trans (hk₂.trans hj), h₂.left_lt j hj (henabled j hj) hturn⟩

/-- No such job: its bound would fall for ever. -/
theorem not_endlessJob (n : Nat) : ∀ {k : Nat}, left (run k) = n →
    ¬EndlessJob moves run enabled full lacking turn take offer left k := by
  induction n using Nat.strong_induction_on with
  | _ n ih =>
    intro k hn h
    obtain ⟨j, hj, hlt⟩ := h.exists_lt
    have hle := h.left_le_start hj
    exact ih (left (run (j + 1))) (by omega) rfl (h.later (Nat.le_succ_of_le hj))

end
end

/-! ## Endless runs of the machine -/

/-- An item that is sent is the one that decodes to the instruction sent. -/
theorem decode_of_sendItem {i : Instr} {m : Move} (hwf : WellFormed i = true) (h : sendItem i = [m]) :
    ∃ it, m = .item it ∧ decode it = .ok i := by
  unfold sendItem at h
  split at h
  · next it hi =>
    cases h
    exact ⟨it, rfl, decodeInvertsEncode i it hwf hi⟩
  · cases h

theorem runMove_of_sendItem {i : Instr} {m : Move} (hwf : WellFormed i = true) (h : sendItem i = [m]) (s : State) :
    runMove m s = exec i s := by
  obtain ⟨it, rfl, hd⟩ := decode_of_sendItem hwf h
  simp only [runMove, hd]

section
variable {moves : Nat → Move} {run : Nat → State} (hrun : EndlessRun moves run) {j : Nat}
include hrun

theorem EndlessRun.runMove_eq (j : Nat) : runMove (moves j) { run j with agenda := [] } = .next (run (j + 1)) :=
  hrun j

theorem EndlessRun.counterInv (h : CounterInv (run 0)) : ∀ k, CounterInv (run k)
  | 0 => h
  | k + 1 =>
    counterInv_keptByOps.step (s := { run k with agenda := [moves k] }) (EndlessRun.counterInv h k) (hrun k)

theorem EndlessRun.encTurn_eq (h : moves j = .enc) : run (j + 1) = encTurn { run j with agenda := [] } := by
  have hj := hrun.runMove_eq j
  rw [h, runMove, runTurn_encNext] at hj
  injection hj with hj
  exact hj.symm

theorem EndlessRun.decTurn_eq (h : moves j = .dec) : run (j + 1) = decTurn { run j with agenda := [] } := by
  have hj := hrun.runMove_eq j
  rw [h, runMove, runTurn_decNext] at hj
  injection hj with hj
  exact hj.symm

theorem EndlessRun.exec_eq {i : Instr} (hwf : WellFormed i = true) (h : sendItem i = [moves j]) :
    exec i { run j with agenda := [] } = .next (run (j + 1)) := by
  rw [← runMove_of_sendItem hwf h, hrun.runMove_eq j]

/-- While ENC's job runs and no reset comes, a step is an operation on ENC's part. -/
theorem EndlessRun.encOp (hbusy : encBusy (run j).enc.state = true) (hreset : sendItem .reset ≠ [moves j]) :
    ∃ f, EncOp f ∧ encPart (run (j + 1)) = encPart (f (run j)) := by
  rcases step_encPart (hrun j) with ⟨it, rest, hagenda, ⟨hi, -⟩ | ⟨count, len, hi, hidle, -⟩⟩ | ⟨f, hf, h⟩
  · injection hagenda with hm
    exact absurd ((sendItem_of_decode hi).trans (by rw [hm])) hreset
  · exact absurd hbusy (by simpa using hidle)
  · exact ⟨f, hf, h.trans (hf.actsWithin.congr (agree_withAgenda .enc (run j) [moves j])).1⟩

/-- While DEC's job runs and no reset comes, a step is an operation on DEC's part. -/
theorem EndlessRun.decOp (hbusy : decBusy (run j).dec.state = true) (hreset : sendItem .reset ≠ [moves j]) :
    ∃ f, DecOp f ∧ decPart (run (j + 1)) = decPart (f (run j)) := by
  rcases step_decPart (hrun j) with ⟨it, rest, hagenda, ⟨hi, -⟩ | ⟨count, len, hi, hidle, -⟩⟩ | ⟨f, hf, h⟩
  · injection hagenda with hm
    exact absurd ((sendItem_of_decode hi).trans (by rw [hm])) hreset
  · exact absurd hbusy (by simpa using hidle)
  · exact ⟨f, hf, h.trans (hf.actsWithin.congr (agree_withAgenda .dec (run j) [moves j])).1⟩

end

/-! ## A served job of ENC -/

/-- ENC lacks a pixel (R371). -/
def EncLacks (s : State) : Prop := encWantsPixel s.enc = true ∧ s.host.encOffer = none

/-- DEC lacks a byte (R371). -/
def DecLacks (s : State) : Prop := decWantsByte s.dec = true ∧ s.host.decOffer = none

section
variable {s t : State}

theorem hostTakeByte_obValid (s : State) : (hostTakeByte s).enc.obValid = false := by
  rcases hostTakeByte_cases s with ⟨h, h'⟩ | ⟨-, h'⟩ <;> rw [h']
  exact h

theorem hostTakePixel_poValid (s : State) : (hostTakePixel s).dec.poValid = false := by
  rcases hostTakePixel_cases s with ⟨h, h'⟩ | ⟨-, h'⟩ <;> rw [h']
  exact h

theorem hostTakeByte_wants (s : State) : encWantsPixel (hostTakeByte s).enc = encWantsPixel s.enc := by
  rcases hostTakeByte_cases s with ⟨-, h⟩ | ⟨-, h⟩ <;> rw [h]
  rfl

theorem hostTakePixel_wants (s : State) : decWantsByte (hostTakePixel s).dec = decWantsByte s.dec := by
  rcases hostTakePixel_cases s with ⟨-, h⟩ | ⟨-, h⟩ <;> rw [h]
  rfl

/-- With OB free and no pixel lacking, ENC's running job has an enabled step (R248). -/
theorem encEnabled_of_served (hc : EncCounters s.enc) (hbusy : encBusy s.enc.state = true)
    (hob : ¬s.enc.obValid = true) (hlacks : ¬EncLacks s) : encEnabled s := by
  refine ⟨encNext_ne_none hc hbusy, eq_false_of_ne_true fun hw => ?_⟩
  unfold encWaits at hw
  cases hs : s.enc.state <;>
    simp only [hs, Bool.and_eq_true, decide_eq_true_eq, Bool.false_eq_true, Option.isNone_iff_eq_none] at hw
  case accept => exact hlacks ⟨encWantsPixel_iff.mpr ⟨hs, hw.1⟩, hw.2⟩
  case emitRun | emitCode | emitTail => exact hob hw.2
  case flush => exact hob hw

/-- With PO free and no byte lacking, DEC's running job has an enabled step (R281). -/
theorem decEnabled_of_served (hbusy : decBusy s.dec.state = true) (hpo : ¬s.dec.poValid = true)
    (hlacks : ¬DecLacks s) : decEnabled s := by
  refine ⟨decNext_ne_none hbusy, eq_false_of_ne_true fun hw => ?_⟩
  unfold decWaits at hw
  cases hs : s.dec.state <;>
    simp only [hs, Bool.and_eq_true, decide_eq_true_eq, Bool.false_eq_true, Bool.not_eq_true',
      Option.isNone_iff_eq_none] at hw
  case runGroup =>
    obtain ⟨⟨hlo, hlt⟩, ho⟩ := hw
    exact hlacks ⟨decWantsByte_of_group (.inl hs) hlo hlt, ho⟩
  case codeGroup =>
    obtain ⟨⟨hlo, hlt⟩, ho⟩ := hw
    exact hlacks ⟨decWantsByte_of_group (.inr hs) hlo hlt, ho⟩
  case emitZeros => exact hpo hw.2
  case emitValue => exact hpo hw
  case drain =>
    split at hw
    · next hlt => exact hlacks ⟨decWantsByte_of_drain hs hlt, Option.isNone_iff_eq_none.mp hw⟩
    · exact hpo hw

end

section
variable {moves : Nat → Move} {run : Nat → State} {k : Nat}

theorem endlessJob_enc (hrun : EndlessRun moves run) (hfair : EventuallyTaken encEnabled (· = .enc) moves run)
    (hserves : HostServesEnc moves run) (hc : ∀ j, EncCounters (run j).enc)
    (hbusy : ∀ j, k ≤ j → encBusy (run j).enc.state = true) (hreset : ∀ j, k ≤ j → sendItem .reset ≠ [moves j]) :
    EndlessJob moves run encEnabled (fun s => s.enc.obValid = true) EncLacks (· = .enc)
      (fun m => sendItem .encTake = [m]) (fun m => ∃ p, sendItem (.encPixelIn p) = [m]) (fun s => encLeft s.enc) k where
  fairTurn := hfair
  fairTake := hserves.1
  fairOffer := hserves.2
  left_le j hj := by
    obtain ⟨f, hf, hpart⟩ := hrun.encOp (hbusy j hj) (hreset j hj)
    obtain ⟨hregs, -⟩ := EncPart.mk.inj hpart
    simp only [hregs]
    exact hf.encLeft_le (hc j)
  left_lt j hj henabled hturn := by
    rw [hrun.encTurn_eq hturn]
    exact encLeft_encTurn_lt (s := { run j with agenda := [] }) (hc j) (hbusy j hj) henabled.2
  taken j hj htake := by
    have hnext := hrun.exec_eq rfl htake
    injection hnext with hnext
    rw [← hnext, hostTakeByte_obValid]
    exact Bool.false_ne_true
  offered j hj hoffer := by
    obtain ⟨p, hp⟩ := hoffer
    have hnext := hrun.exec_eq rfl hp
    injection hnext with hnext
    rintro ⟨-, hnone⟩
    rw [← hnext] at hnone
    rcases offerPixel_cases p (run j).host with ⟨-, h⟩ | ⟨hne, h⟩ <;> simp_all
  full_stays j hj heq hnot := by
    obtain ⟨f, hf, hpart⟩ := hrun.encOp (hbusy j hj) (hreset j hj)
    obtain ⟨hregs, -⟩ := EncPart.mk.inj hpart
    rw [hregs] at heq ⊢
    rcases hf.cases_of_encLeft_eq (hc j) (hbusy j hj) heq with h | h | ⟨v, h⟩ <;> rw [h]
    · exact hnot
    · rw [hostTakeByte_obValid]
      exact Bool.false_ne_true
    · exact hnot
  lacking_stays j hj heq hnot := by
    obtain ⟨f, hf, hpart⟩ := hrun.encOp (hbusy j hj) (hreset j hj)
    obtain ⟨hregs, hoffer, -⟩ := EncPart.mk.inj hpart
    rw [hregs] at heq
    unfold EncLacks at hnot ⊢
    rw [hregs, hoffer]
    rcases hf.cases_of_encLeft_eq (hc j) (hbusy j hj) heq with h | h | ⟨v, h⟩ <;> rw [h]
    · exact hnot
    · rw [hostTakeByte_wants, hostTakeByte_offer]
      exact hnot
    · exact fun h => nomatch h.2
  enabled j hj hob hlacks := encEnabled_of_served (hc j) (hbusy j hj) hob hlacks

theorem endlessJob_dec (hrun : EndlessRun moves run) (hfair : EventuallyTaken decEnabled (· = .dec) moves run)
    (hserves : HostServesDec moves run) (hc : ∀ j, DecCounters (run j).dec)
    (hbusy : ∀ j, k ≤ j → decBusy (run j).dec.state = true) (hreset : ∀ j, k ≤ j → sendItem .reset ≠ [moves j]) :
    EndlessJob moves run decEnabled (fun s => s.dec.poValid = true) DecLacks (· = .dec)
      (fun m => sendItem .decTake = [m]) (fun m => ∃ b, sendItem (.decByteIn b) = [m]) (fun s => decLeft s.dec) k where
  fairTurn := hfair
  fairTake := hserves.1
  fairOffer := hserves.2
  left_le j hj := by
    obtain ⟨f, hf, hpart⟩ := hrun.decOp (hbusy j hj) (hreset j hj)
    obtain ⟨hregs, -⟩ := DecPart.mk.inj hpart
    simp only [hregs]
    exact hf.decLeft_le (hc j)
  left_lt j hj henabled hturn := by
    rw [hrun.decTurn_eq hturn]
    exact decLeft_decTurn_lt (s := { run j with agenda := [] }) (hc j) (hbusy j hj) henabled.2
  taken j hj htake := by
    have hnext := hrun.exec_eq rfl htake
    injection hnext with hnext
    rw [← hnext, hostTakePixel_poValid]
    exact Bool.false_ne_true
  offered j hj hoffer := by
    obtain ⟨b, hb⟩ := hoffer
    have hnext := hrun.exec_eq rfl hb
    injection hnext with hnext
    rintro ⟨-, hnone⟩
    rw [← hnext] at hnone
    rcases offerByte_cases b (run j).host with ⟨-, h⟩ | ⟨hne, h⟩ <;> simp_all
  full_stays j hj heq hnot := by
    obtain ⟨f, hf, hpart⟩ := hrun.decOp (hbusy j hj) (hreset j hj)
    obtain ⟨hregs, -⟩ := DecPart.mk.inj hpart
    rw [hregs] at heq ⊢
    rcases hf.cases_of_decLeft_eq (hc j) (hbusy j hj) heq with h | h | ⟨v, h⟩ <;> rw [h]
    · exact hnot
    · rw [hostTakePixel_poValid]
      exact Bool.false_ne_true
    · exact hnot
  lacking_stays j hj heq hnot := by
    obtain ⟨f, hf, hpart⟩ := hrun.decOp (hbusy j hj) (hreset j hj)
    obtain ⟨hregs, hoffer, -⟩ := DecPart.mk.inj hpart
    rw [hregs] at heq
    unfold DecLacks at hnot ⊢
    rw [hregs, hoffer]
    rcases hf.cases_of_decLeft_eq (hc j) (hbusy j hj) heq with h | h | ⟨v, h⟩ <;> rw [h]
    · exact hnot
    · rw [hostTakePixel_wants, hostTakePixel_offer]
      exact hnot
    · exact fun h => nomatch h.2
  enabled j hj hpo hlacks := decEnabled_of_served (hbusy j hj) hpo hlacks

/-! ## Every served job ends -/

theorem encJob_ends (hrun : EndlessRun moves run) (hfair : EventuallyTaken encEnabled (· = .enc) moves run)
    (hserves : HostServesEnc moves run) (hc : ∀ j, EncCounters (run j).enc) (hk : encBusy (run k).enc.state = true) :
    ∃ j, k ≤ j ∧ ((run j).enc.state = .done ∨ sendItem .reset = [moves j]) := by
  by_contra hno
  have hreset : ∀ j, k ≤ j → sendItem .reset ≠ [moves j] := fun j hj h => hno ⟨j, hj, .inr h⟩
  have hbusy : ∀ j, k ≤ j → encBusy (run j).enc.state = true := by
    intro j hj
    induction j, hj using Nat.le_induction with
    | base => exact hk
    | succ j hj ih =>
      obtain ⟨f, hf, hpart⟩ := hrun.encOp ih (hreset j hj)
      obtain ⟨hregs, -⟩ := EncPart.mk.inj hpart
      exact encBusy_eq_true (by rw [hregs]; exact hf.state_ne_idle ih) fun h => hno ⟨j + 1, by omega, .inl h⟩
  exact not_endlessJob _ rfl (endlessJob_enc hrun hfair hserves hc hbusy hreset)

theorem decJob_ends (hrun : EndlessRun moves run) (hfair : EventuallyTaken decEnabled (· = .dec) moves run)
    (hserves : HostServesDec moves run) (hc : ∀ j, DecCounters (run j).dec) (hk : decBusy (run k).dec.state = true) :
    ∃ j, k ≤ j ∧ ((run j).dec.state = .done ∨ (run j).dec.state = .error ∨ sendItem .reset = [moves j]) := by
  by_contra hno
  have hreset : ∀ j, k ≤ j → sendItem .reset ≠ [moves j] := fun j hj h => hno ⟨j, hj, .inr (.inr h)⟩
  have hbusy : ∀ j, k ≤ j → decBusy (run j).dec.state = true := by
    intro j hj
    induction j, hj using Nat.le_induction with
    | base => exact hk
    | succ j hj ih =>
      obtain ⟨f, hf, hpart⟩ := hrun.decOp ih (hreset j hj)
      obtain ⟨hregs, -⟩ := DecPart.mk.inj hpart
      exact decBusy_eq_true (by rw [hregs]; exact hf.state_ne_idle ih) (fun h => hno ⟨j + 1, by omega, .inl h⟩)
        fun h => hno ⟨j + 1, by omega, .inr (.inl h)⟩
  exact not_endlessJob _ rfl (endlessJob_dec hrun hfair hserves hc hbusy hreset)

end

/-- Settles O59: a turn by whether the engine waits; an endless run by the bound that cannot fall for ever. -/
theorem enabledTurnsMakeProgress : Obligations.EnabledTurnsMakeProgress := by
  refine ⟨fun s hc => ⟨fun hw => ?_, fun hw hnext => ?_, fun hw => ?_, fun hw hnext => ?_, fun t ht => ?_,
    fun t ht => ?_, fun p t ht => ?_, fun b t ht => ?_⟩,
    fun moves run hrun hfair hinv => ⟨fun hserves k hk => ?_, fun hserves k hk => ?_⟩⟩
  · rw [runTurn_encNext, encTurn_of_waits hw]
  · exact ⟨_, runTurn_encNext s, encLeft_encTurn_lt hc.1 (encBusy_of_encNext hnext) hw⟩
  · rw [runTurn_decNext, decTurn_of_waits hw]
  · exact ⟨_, runTurn_decNext s, decLeft_decTurn_lt hc.2 (decBusy_of_decNext hnext) hw⟩
  · injection ht with ht
    rw [← ht, encLeft_hostTakeByte]
  · injection ht with ht
    rw [← ht, decLeft_hostTakePixel]
  · injection ht with ht
    rw [← ht]
  · injection ht with ht
    rw [← ht]
  · exact encJob_ends hrun hfair.1 hserves (fun j => (hrun.counterInv hinv j).1) hk
  · exact decJob_ends hrun hfair.2 hserves (fun j => (hrun.counterInv hinv j).2) hk

end Sys2Proof.Machine
end

section
/-! The host's sequences (R322, R323; log 27). Each move of a sequence is an operation on one engine's part, so a round
is the composition of an offer, a turn, a take and a status read. The invariant of a round is the engine's own invariant
with the account of the items: those the engine took, the one on offer and those left make up the whole input. So the
engine never lacks an item after the offer, each round lowers the bound on the steps left, and the rounds suffice. -/

namespace Sys2Proof.Machine

open Sys2Proof

/-! ## Sequences of moves -/

section
variable {s u : State} {moves : List Move}

/-- An operation of an engine does not read the agenda. -/
theorem ActsWithin.withAgenda {side : Side} {f : State → State} (hf : ActsWithin side f) (s : State)
    (moves : List Move) : f { s with agenda := moves } = { f s with agenda := moves } := by
  have h := hf s { s with agenda := moves }
  have hframe := hf.frame s
  cases side with
  | enc => exact h.trans (by rw [hframe]; rfl)
  | dec => exact h.trans (by rw [hframe]; rfl)

theorem ActsWithin.decPart_eq {f : State → State} (hf : ActsWithin .enc f) (s : State) : decPart (f s) = decPart s := by
  rw [hf.frame s, decPart_graft_enc]

theorem ActsWithin.encPart_eq {f : State → State} (hf : ActsWithin .dec f) (s : State) : encPart (f s) = encPart s := by
  rw [hf.frame s, encPart_graft_dec]

theorem ActsWithin.cmdErr_eq {side : Side} {f : State → State} (hf : ActsWithin side f) (s : State) :
    (f s).cmdErr = s.cmdErr := by
  rw [hf.frame s, graft_cmdErr]

/-- A move first, then the others from where it leads. -/
theorem play_cons {m : Move} (h : runMove m { s with agenda := moves } = .next { u with agenda := moves }) :
    play (m :: moves) s = play moves u := by
  have hstep : step { s with agenda := m :: moves } = .next { u with agenda := moves } := h
  simp only [play, List.length_cons, runSteps, hstep]

theorem play_sendItem {i : Instr} (hwf : WellFormed i = true) (hi : (encode i).isSome = true)
    (h : exec i { s with agenda := moves } = .next { u with agenda := moves }) :
    play (sendItem i ++ moves) s = play moves u := by
  obtain ⟨it, hit⟩ := Option.isSome_iff_exists.mp hi
  have hsend : sendItem i = [.item it] := by simp only [sendItem, hit]
  rw [hsend]
  exact play_cons ((runMove_of_sendItem hwf hsend _).trans h)

theorem play_encTurn (s : State) (moves : List Move) : play (.enc :: moves) s = play moves (encTurn s) :=
  play_cons ((runTurn_encNext _).trans (by rw [actsWithin_encTurn.withAgenda]))

theorem play_decTurn (s : State) (moves : List Move) : play (.dec :: moves) s = play moves (decTurn s) :=
  play_cons ((runTurn_decNext _).trans (by rw [actsWithin_decTurn.withAgenda]))

theorem play_encTake (s : State) (moves : List Move) :
    play (sendItem .encTake ++ moves) s = play moves (hostTakeByte s) :=
  play_sendItem rfl rfl ((exec_encTake _).trans (by rw [actsWithin_hostTakeByte.withAgenda]))

theorem play_decTake (s : State) (moves : List Move) :
    play (sendItem .decTake ++ moves) s = play moves (hostTakePixel s) :=
  play_sendItem rfl rfl ((exec_decTake _).trans (by rw [actsWithin_hostTakePixel.withAgenda]))

theorem play_encPixelIn (ho : s.host.encOffer = none) (p : Pixel) (moves : List Move) :
    play (sendItem (.encPixelIn p) ++ moves) s = play moves (s.withPixelOffer (some p)) :=
  play_sendItem rfl rfl ((exec_encPixelIn p _).trans (by rw [offerPixel_of_none ho]; rfl))

theorem play_decByteIn (ho : s.host.decOffer = none) (b : Byte) (moves : List Move) :
    play (sendItem (.decByteIn b) ++ moves) s = play moves (s.withByteOffer (some b)) :=
  play_sendItem rfl rfl ((exec_decByteIn b _).trans (by rw [offerByte_of_none ho]; rfl))

/-- The last move of each part of a sequence: a status read. -/
def State.afterRead (sel : BitVec 4) (s : State) : State := { readStatus sel s with agenda := [] }

theorem play_statusRead {sel : BitVec 4} (hsel : sel.toNat < 12) (s : State) :
    play (sendItem (.statusRead sel)) s = .next (s.afterRead sel) := by
  rw [← List.append_nil (sendItem _)]
  exact play_sendItem (u := readStatus sel s) (decide_eq_true hsel) rfl rfl

end

theorem offerNext_cases {α : Type} (offer : α → List Move) (standing : Option α) (items : List α) :
    (standing = none ∧ ∃ v rest, items = v :: rest ∧ offerNext offer standing items = (offer v, rest)) ∨
    ((standing ≠ none ∨ items = []) ∧ offerNext offer standing items = ([], items)) := by
  cases standing with
  | some v => exact .inr ⟨.inl (Option.some_ne_none v), rfl⟩
  | none =>
    cases items with
    | nil => exact .inr ⟨.inr rfl, rfl⟩
    | cons v rest => exact .inl ⟨rfl, v, rest, rfl, rfl⟩

/-! ## Rounds of compress -/

/-- A round of compress after its offer: ENC's turn, the host's take and its read of E_STATE. -/
def encRound (s : State) : State := (hostTakeByte (encTurn s)).afterRead 1

theorem play_encRound (s : State) :
    play (.enc :: (sendItem .encTake ++ sendItem (.statusRead 1))) s = .next (encRound s) := by
  rw [play_encTurn, play_encTake, play_statusRead (by decide), encRound]

/-- The offer of a round: from the items left, when none stands. -/
def PixelOffered (items rest : List Pixel) (s u : State) : Prop :=
  (s.host.encOffer = none ∧ ∃ p, items = p :: rest ∧ u = s.withPixelOffer (some p)) ∨
    ((s.host.encOffer ≠ none ∨ items = []) ∧ rest = items ∧ u = s)

theorem compressRounds_succ (k : Nat) (items : List Pixel) (s : State) :
    ∃ rest u, PixelOffered items rest s u ∧
      compressRounds (k + 1) items s =
        if (encRound u).host.status = (encStateCode .done).setWidth 36 then
          .finished (encRound u).host.encGot (encRound u)
        else compressRounds k rest (encRound u) := by
  rcases offerNext_cases (fun p => sendItem (.encPixelIn p)) s.host.encOffer items with
    ⟨ho, p, rest, hitems, hnext⟩ | ⟨hno, hnext⟩
  · refine ⟨rest, _, .inl ⟨ho, p, hitems, rfl⟩, ?_⟩
    simp only [compressRounds, hnext, play_encPixelIn ho, play_encRound]
  · refine ⟨items, s, .inr ⟨hno, rfl, rfl⟩, ?_⟩
    simp only [compressRounds, hnext, List.nil_append, play_encRound]

section
variable {P : State → Prop} {s : State}

theorem KeptByOps.encTurn (k : KeptByOps P) (h : P s) : P (encTurn s) := by
  unfold Machine.encTurn
  cases s.enc.state with
  | idle | done => exact h
  | accept =>
    simp only
    split
    · exact k.acceptPixel s h
    · exact k.acceptEnd s h
  | emitRun => exact k.emitRun s h
  | emitCode => exact k.emitCode s h
  | emitTail => exact k.emitTail s h
  | flush => exact k.flush s h

theorem KeptByOps.afterRead (k : KeptByOps P) (h : P s) (sel : BitVec 4) : P (s.afterRead sel) :=
  k.parts s _ h rfl rfl

theorem KeptByOps.encRound (k : KeptByOps P) (h : P s) : P (encRound s) :=
  k.afterRead (k.takeByte _ (k.encTurn h)) 1

end

/-! What a round leaves: E_COUNT, and the account of the pixels. -/

theorem encTurn_count (s : State) : (encTurn s).enc.count = s.enc.count := by
  have hemit {onLast : Enc → Enc} (hlast : ∀ e, (onLast e).count = e.count) :
      (emitStep onLast s.enc).count = s.enc.count := by
    rcases emitStep_cases onLast s.enc with ⟨-, h⟩ | ⟨-, -, h⟩ | ⟨-, -, h⟩ <;> simp [h, hlast]
  cases hs : s.enc.state with
  | idle | done => rw [encTurn_of_not_busy (by rw [hs]; rfl)]
  | accept =>
    by_cases hlt : s.enc.index < s.enc.count
    · rw [encTurn_of_pixel hs hlt]
      rcases acceptPixelStep_cases s with h | ⟨-, -, p, -, ⟨-, h⟩ | ⟨-, h⟩⟩ <;> rw [h]
    · rw [encTurn_of_end hs hlt]
      rcases acceptEndStep_cases s.enc with h | ⟨-, -, ⟨-, h⟩ | ⟨-, h⟩⟩ <;> simp [h]
  | emitRun =>
    rw [encTurn_of_emitRun hs, emitRunStep, if_pos hs]
    exact hemit fun e => by simp
  | emitCode =>
    rw [encTurn_of_emitCode hs, emitCodeStep, if_pos hs]
    exact hemit fun e => rfl
  | emitTail =>
    rw [encTurn_of_emitTail hs, emitTailStep, if_pos hs]
    exact hemit fun e => rfl
  | flush =>
    rw [encTurn_of_flush hs]
    rcases flushStep_cases s.enc with h | ⟨-, -, ⟨-, h⟩ | ⟨-, h⟩⟩ <;> simp [h]

/-- The pixels that have left the host for this job: those ENC took, and the one on offer. -/
def pixelsOut (s : State) : List Pixel := s.host.encSent ++ s.host.encOffer.toList

theorem pixelsOut_encTurn (s : State) : pixelsOut (encTurn s) = pixelsOut s := by
  unfold pixelsOut
  rcases encTurn_host s with h | ⟨p, -, -, ho, h, -⟩ <;> rw [h]
  simp [ho]

theorem hostTakeByte_state (s : State) : (hostTakeByte s).enc.state = s.enc.state := by
  rcases hostTakeByte_cases s with ⟨-, h⟩ | ⟨-, h⟩ <;> rw [h]

theorem hostTakeByte_count (s : State) : (hostTakeByte s).enc.count = s.enc.count := by
  rcases hostTakeByte_cases s with ⟨-, h⟩ | ⟨-, h⟩ <;> rw [h]

theorem pixelsOut_hostTakeByte (s : State) : pixelsOut (hostTakeByte s) = pixelsOut s := by
  rcases hostTakeByte_cases s with ⟨-, h⟩ | ⟨-, h⟩ <;> rw [h]
  rfl

theorem encRound_count (s : State) : (encRound s).enc.count = s.enc.count :=
  (hostTakeByte_count _).trans (encTurn_count s)

theorem pixelsOut_encRound (s : State) : pixelsOut (encRound s) = pixelsOut s :=
  (pixelsOut_hostTakeByte _).trans (pixelsOut_encTurn s)

theorem encRound_state (s : State) : (encRound s).enc.state = (encTurn s).enc.state := hostTakeByte_state _

theorem encLeft_encRound (s : State) : encLeft (encRound s).enc = encLeft (encTurn s).enc := encLeft_hostTakeByte _

theorem decPart_encRound (s : State) : decPart (encRound s) = decPart s :=
  (actsWithin_hostTakeByte.decPart_eq _).trans (actsWithin_encTurn.decPart_eq s)

theorem encRound_cmdErr (s : State) : (encRound s).cmdErr = s.cmdErr :=
  (actsWithin_hostTakeByte.cmdErr_eq _).trans (actsWithin_encTurn.cmdErr_eq s)

theorem encRound_status (s : State) : (encRound s).host.status = (encStateCode (encRound s).enc.state).setWidth 36 :=
  rfl

theorem encStateCode_eq_done {st : EncState} :
    (encStateCode st).setWidth 36 = (encStateCode .done).setWidth 36 ↔ st = .done := by
  cases st <;> decide

/-! ## compress -/

/-- Between two rounds of compress: ENC's invariants, no byte in OB, the account of the pixels, and what is not ENC's as
it was in s₀. -/
structure Compressing (pixels items : List Pixel) (s₀ s : State) : Prop where
  inv : EncInv s
  counters : EncCounters s.enc
  taken : s.enc.obValid = false
  count : s.enc.count.toNat = pixels.length
  account : pixelsOut s ++ items = pixels
  cmdErr : s.cmdErr = .ok
  decPart : decPart s = decPart s₀

section
variable {pixels items rest : List Pixel} {s₀ s u : State}

/-- After the offer of a round ENC lacks no pixel: while one is missing, one is left (R371). -/
theorem Compressing.offered (h : Compressing pixels items s₀ s) (ho : PixelOffered items rest s u) :
    Compressing pixels rest s₀ u ∧ u.enc = s.enc ∧ ¬EncLacks u := by
  rcases ho with ⟨hnone, p, rfl, rfl⟩ | ⟨hno, rfl, rfl⟩
  · refine ⟨{ h with inv := encInv_keptByOps.encOffer s (some p) h.inv, account := ?_ }, rfl,
      fun ⟨_, hnone⟩ => nomatch hnone⟩
    rw [← h.account]
    simp [pixelsOut, State.withPixelOffer, hnone]
  · refine ⟨h, rfl, fun ⟨hwants, hnone⟩ => ?_⟩
    have hitems := hno.resolve_left (not_not.mpr hnone)
    have hlt := BitVec.lt_def.mp (encWantsPixel_iff.mp hwants).2
    have haccount := congrArg List.length h.account
    have hindex := h.inv.counted.1
    have hcount := h.count
    simp only [pixelsOut, hnone, hitems, Option.toList_none, List.append_nil] at haccount
    omega

/-- A round of a running job keeps the account and brings the job nearer to its end. -/
theorem Compressing.round (h : Compressing pixels items s₀ s) (hbusy : encBusy s.enc.state = true)
    (hlacks : ¬EncLacks s) :
    Compressing pixels items s₀ (encRound s) ∧ (encRound s).enc.state ≠ .idle ∧
      encLeft (encRound s).enc < encLeft s.enc := by
  have hob : ¬s.enc.obValid = true := by simp [h.taken]
  obtain ⟨-, hwaits⟩ := encEnabled_of_served h.counters hbusy hob hlacks
  refine ⟨{
      inv := encInv_keptByOps.encRound h.inv
      counters := encCounters_kept.keptByOps.encRound h.counters
      taken := hostTakeByte_obValid _
      count := by rw [encRound_count, h.count]
      account := by rw [pixelsOut_encRound, h.account]
      cmdErr := by rw [encRound_cmdErr, h.cmdErr]
      decPart := by rw [decPart_encRound, h.decPart] }, ?_, ?_⟩
  · rw [encRound_state]
    exact encTurn_state_ne_idle hbusy
  · rw [encLeft_encRound]
    exact encLeft_encTurn_lt h.counters hbusy hwaits

/-- At DONE ENC has taken all the pixels, and the host all the bytes of their encoding (R249). -/
theorem Compressing.result (h : Compressing pixels items s₀ s) (hdone : s.enc.state = .done) :
    s.host.encSent = pixels ∧ s.host.encGot = rvlEncode pixels := by
  obtain ⟨⟨hindex, -, -⟩, hn, hgot, -, -⟩ := (encInv_done hdone).mp h.inv
  have hlength : s.host.encSent.length = pixels.length := by rw [← hindex, hn, h.count]
  have hprefix : s.host.encSent <+: pixels := ⟨s.host.encOffer.toList ++ items, by
    rw [← List.append_assoc]
    exact h.account⟩
  have hsent := hprefix.eq_of_length hlength
  exact ⟨hsent, by rw [hgot, hsent]⟩

end

/-- With more rounds than steps left the job ends: by induction on the rounds. -/
theorem compressRounds_finished {pixels : List Pixel} {s₀ : State} : ∀ (k : Nat) (items : List Pixel) (s : State),
    Compressing pixels items s₀ s → encBusy s.enc.state = true → encLeft s.enc < k →
    ∃ t rest, compressRounds k items s = .finished t.host.encGot t ∧ Compressing pixels rest s₀ t ∧
      t.enc.state = .done ∧ statusValue t 1 = t.host.status ∧ t.agenda = []
  | 0, _, _, _, _, hk => absurd hk (Nat.not_lt_zero _)
  | k + 1, items, s, h, hbusy, hk => by
    obtain ⟨rest, u, hoffer, hrounds⟩ := compressRounds_succ k items s
    obtain ⟨hu, henc, hlacks⟩ := h.offered hoffer
    obtain ⟨ht, hidle, hlt⟩ := hu.round (by rw [henc, hbusy]) hlacks
    rw [henc] at hlt
    rw [hrounds, encRound_status]
    by_cases hdone : (encRound u).enc.state = .done
    · rw [if_pos (encStateCode_eq_done.mpr hdone)]
      exact ⟨encRound u, rest, rfl, ht, hdone, rfl, rfl⟩
    · rw [if_neg fun hcode => hdone (encStateCode_eq_done.mp hcode)]
      exact compressRounds_finished k rest (encRound u) ht (encBusy_eq_true hidle hdone) (by omega)

/-- The state after an accepted ENC_START. -/
def encJobStarted (count : Count) (s : State) : State :=
  { s with enc := encJobStart count, cmdErr := .ok, host := { s.host with encSent := [], encGot := [] } }

theorem play_encStart {s : State} (hidle : encBusy s.enc.state = false) (count : Count) (len : Length) :
    play (sendItem (.encStart count len) ++ sendItem (.statusRead 0)) s =
      .next ((encJobStarted count s).afterRead 0) := by
  rw [play_sendItem (moves := sendItem (.statusRead 0)) (u := encJobStarted count s) rfl rfl
    (exec_encStart_of_not_busy (by exact hidle) count len), play_statusRead (by decide)]

theorem play_encStart_of_busy {s : State} (hbusy : encBusy s.enc.state = true) (count : Count) (len : Length) :
    play (sendItem (.encStart count len) ++ sendItem (.statusRead 0)) s =
      .next ((raiseCmd .busy s).afterRead 0) := by
  rw [play_sendItem (moves := sendItem (.statusRead 0)) (u := raiseCmd .busy s) rfl rfl
    (exec_encStart_of_busy (by exact hbusy) count len), play_statusRead (by decide)]

theorem compressing_started {pixels : List Pixel} {s : State} (hlength : pixels.length < 2 ^ 32)
    (ho : s.host.encOffer = none) :
    Compressing pixels pixels s ((encJobStarted (BitVec.ofNat 32 pixels.length) s).afterRead 0) where
  inv := encInv_started rfl rfl rfl
  counters := encCounters_kept.start _
  taken := rfl
  count := by
    change (BitVec.ofNat 32 pixels.length).toNat = pixels.length
    rw [BitVec.toNat_ofNat, Nat.mod_eq_of_lt hlength]
  account := by
    change [] ++ s.host.encOffer.toList ++ pixels = pixels
    rw [ho]
    rfl
  cmdErr := rfl
  decPart := rfl

theorem status_after_busy (s : State) :
    ((raiseCmd .busy s).afterRead 0).host.status ≠ (cmdErrCode .ok).setWidth 36 := by
  change (cmdErrCode .busy).setWidth 36 ≠ (cmdErrCode .ok).setWidth 36
  decide

/-- Where no job runs, the verdict is OK and the rounds follow (R322). -/
theorem compress_of_not_busy {s : State} (hidle : encBusy s.enc.state = false) (pixels : List Pixel) :
    compress pixels s =
      compressRounds (20 * pixels.length + 20) pixels
        ((encJobStarted (BitVec.ofNat 32 pixels.length) s).afterRead 0) := by
  rw [compress, play_encStart hidle]
  exact if_pos rfl

theorem compress_of_busy {s : State} (hbusy : encBusy s.enc.state = true) (pixels : List Pixel) :
    compress pixels s = .rejected ((raiseCmd .busy s).afterRead 0) := by
  rw [compress, play_encStart_of_busy hbusy]
  exact if_neg (status_after_busy s)

theorem encodeResult_of_done {s : State} (h : s.enc.state = .done) : encodeResult s = some s.host.encGot := by
  simp [encodeResult, h]

/-- Settles O51: an accepted start begins the rounds, with more of them than the job has steps left. -/
theorem compressSequenceEnds : Obligations.CompressSequenceEnds := by
  intro pixels s hlength ho
  refine ⟨fun hs => ?_, fun hbusy => ?_⟩
  · have hstart := compressing_started hlength ho
    have hleft : encLeft (encJobStart (BitVec.ofNat 32 pixels.length)) < 20 * pixels.length + 20 := by
      rw [encLeft_accept rfl, show (encJobStart _).count.toNat = pixels.length from hstart.count]
      omega
    obtain ⟨t, rest, hrounds, ht, hdone, hstatus, hagenda⟩ :=
      compressRounds_finished (20 * pixels.length + 20) pixels _ hstart rfl hleft
    obtain ⟨hsent, hgot⟩ := ht.result hdone
    refine ⟨t, ?_, ?_, hsent, hstatus, ht.cmdErr, hagenda, ht.decPart⟩
    · rw [compress_of_not_busy (encBusy_eq_false hs), hrounds, hgot]
    · rw [encodeResult_of_done hdone, hgot]
  · exact ⟨_, compress_of_busy hbusy pixels, rfl, rfl, rfl⟩

/-! ## Rounds of decompress -/

/-- A round of decompress after its offer: DEC's turn, the host's take and its read of D_STATE. -/
def decRound (s : State) : State := (hostTakePixel (decTurn s)).afterRead 5

theorem play_decRound (s : State) :
    play (.dec :: (sendItem .decTake ++ sendItem (.statusRead 5))) s = .next (decRound s) := by
  rw [play_decTurn, play_decTake, play_statusRead (by decide), decRound]

/-- The offer of a round: from the items left, when none stands. -/
def ByteOffered (items rest : List Byte) (s u : State) : Prop :=
  (s.host.decOffer = none ∧ ∃ b, items = b :: rest ∧ u = s.withByteOffer (some b)) ∨
    ((s.host.decOffer ≠ none ∨ items = []) ∧ rest = items ∧ u = s)

theorem decompressRounds_succ (k : Nat) (items : List Byte) (s : State) :
    ∃ rest u, ByteOffered items rest s u ∧
      decompressRounds (k + 1) items s =
        if (decRound u).host.status = (decStateCode .done).setWidth 36 then
          .finished (decRound u).host.decGot (decRound u)
        else if (decRound u).host.status = (decStateCode .error).setWidth 36 then
          .failed ((decRound u).afterRead 6).host.status ((decRound u).afterRead 6)
        else decompressRounds k rest (decRound u) := by
  rcases offerNext_cases (fun b => sendItem (.decByteIn b)) s.host.decOffer items with
    ⟨ho, b, rest, hitems, hnext⟩ | ⟨hno, hnext⟩
  · refine ⟨rest, _, .inl ⟨ho, b, hitems, rfl⟩, ?_⟩
    simp only [decompressRounds, hnext, play_decByteIn ho, play_decRound, play_statusRead (sel := 6) (by decide)]
  · refine ⟨items, s, .inr ⟨hno, rfl, rfl⟩, ?_⟩
    simp only [decompressRounds, hnext, List.nil_append, play_decRound, play_statusRead (sel := 6) (by decide)]

section
variable {P : State → Prop} {s : State}

theorem KeptByOps.decTurn (k : KeptByOps P) (h : P s) : P (decTurn s) := by
  unfold Machine.decTurn
  cases s.dec.state with
  | idle | done | error => exact h
  | runGroup => exact k.runGroup s h
  | emitZeros => exact k.emitZeros s h
  | codeGroup => exact k.codeGroup s h
  | emitValue => exact k.emitValue s h
  | drain => exact k.drain s h

theorem KeptByOps.decRound (k : KeptByOps P) (h : P s) : P (decRound s) :=
  k.afterRead (k.takePixel _ (k.decTurn h)) 5

end

/-! What a round leaves: D_COUNT and D_LEN, and the account of the bytes. -/

/-- The two operands of DEC_START. -/
def SameJob (d' d : Dec) : Prop := d'.count = d.count ∧ d'.len = d.len

theorem sameJob_groupStep (s : State) : SameJob (groupStep (groupCheck s.dec) s).dec s.dec := by
  have hafter (n : Nibble) (d : Dec) : SameJob (afterNibble (groupCheck s.dec) n d) d := by
    obtain ⟨hcount, hlen, -⟩ := (keepsCounts_groupCheck s.dec).afterNibble n d
    exact ⟨hcount, hlen⟩
  rcases groupStep_cases (groupCheck s.dec) s with ⟨h, -⟩ | ⟨-, -, h⟩ | ⟨-, h⟩ | ⟨-, -, b, -, h⟩ <;> rw [h]
  · exact ⟨rfl, rfl⟩
  · exact ⟨rfl, rfl⟩
  · exact hafter _ _
  · exact hafter _ _

theorem sameJob_decTurn (s : State) : SameJob (decTurn s).dec s.dec := by
  cases hs : s.dec.state with
  | runGroup => rw [decTurn_of_group (.inl hs)]; exact sameJob_groupStep s
  | codeGroup => rw [decTurn_of_group (.inr hs)]; exact sameJob_groupStep s
  | idle | done | error => rw [decTurn_of_not_busy (by rw [hs]; rfl)]; exact ⟨rfl, rfl⟩
  | emitZeros =>
    rw [decTurn_of_emitZeros hs]
    rcases emitZerosStep_cases s.dec with h | ⟨-, ⟨-, -, h⟩ | ⟨-, -, h⟩ | ⟨-, -, h⟩⟩ <;> simp [SameJob, h]
  | emitValue =>
    rw [decTurn_of_emitValue hs]
    rcases emitValueStep_cases s.dec with h | ⟨-, -, ⟨-, h⟩ | ⟨-, h⟩⟩ <;> simp [SameJob, h]
  | drain =>
    rw [decTurn_of_drain hs]
    rcases drainStep_cases s with h | ⟨-, ⟨-, b, -, h⟩ | ⟨-, -, h⟩⟩ <;> simp [SameJob, h]

/-- The bytes that have left the host for this job: those DEC took, and the one on offer. -/
def bytesOut (s : State) : List Byte := s.host.decSent ++ s.host.decOffer.toList

theorem bytesOut_decTurn (s : State) : bytesOut (decTurn s) = bytesOut s := by
  unfold bytesOut
  rcases decTurn_host s with h | ⟨b, -, ho, h, -⟩ <;> rw [h]
  simp [ho]

theorem hostTakePixel_state (s : State) : (hostTakePixel s).dec.state = s.dec.state := by
  rcases hostTakePixel_cases s with ⟨-, h⟩ | ⟨-, h⟩ <;> rw [h]

theorem sameJob_hostTakePixel (s : State) : SameJob (hostTakePixel s).dec s.dec := by
  rcases hostTakePixel_cases s with ⟨-, h⟩ | ⟨-, h⟩ <;> rw [h] <;> exact ⟨rfl, rfl⟩

theorem bytesOut_hostTakePixel (s : State) : bytesOut (hostTakePixel s) = bytesOut s := by
  rcases hostTakePixel_cases s with ⟨-, h⟩ | ⟨-, h⟩ <;> rw [h]
  rfl

theorem sameJob_decRound (s : State) : SameJob (decRound s).dec s.dec := by
  obtain ⟨hcount, hlen⟩ := sameJob_decTurn s
  obtain ⟨hcount', hlen'⟩ := sameJob_hostTakePixel (decTurn s)
  exact ⟨hcount'.trans hcount, hlen'.trans hlen⟩

theorem bytesOut_decRound (s : State) : bytesOut (decRound s) = bytesOut s :=
  (bytesOut_hostTakePixel _).trans (bytesOut_decTurn s)

theorem decRound_state (s : State) : (decRound s).dec.state = (decTurn s).dec.state := hostTakePixel_state _

theorem decLeft_decRound (s : State) : decLeft (decRound s).dec = decLeft (decTurn s).dec := decLeft_hostTakePixel _

theorem encPart_decRound (s : State) : encPart (decRound s) = encPart s :=
  (actsWithin_hostTakePixel.encPart_eq _).trans (actsWithin_decTurn.encPart_eq s)

theorem decRound_cmdErr (s : State) : (decRound s).cmdErr = s.cmdErr :=
  (actsWithin_hostTakePixel.cmdErr_eq _).trans (actsWithin_decTurn.cmdErr_eq s)

theorem decRound_status (s : State) : (decRound s).host.status = (decStateCode (decRound s).dec.state).setWidth 36 :=
  rfl

theorem afterRead_err (s : State) : (s.afterRead 6).host.status = (errCode s.dec.err).setWidth 36 := rfl

theorem decStateCode_eq_done {st : DecState} :
    (decStateCode st).setWidth 36 = (decStateCode .done).setWidth 36 ↔ st = .done := by
  cases st <;> decide

theorem decStateCode_eq_error {st : DecState} :
    (decStateCode st).setWidth 36 = (decStateCode .error).setWidth 36 ↔ st = .error := by
  cases st <;> decide

/-! ## decompress -/

/-- Between two rounds of decompress: DEC's invariants, no pixel in PO, the operands and the account of the bytes, and
what is not DEC's as it was in s₀. -/
structure Decompressing (bytes : List Byte) (n : Nat) (items : List Byte) (s₀ s : State) : Prop where
  inv : DecJobInv s
  counters : DecCounters s.dec
  taken : s.dec.poValid = false
  count : s.dec.count.toNat = n
  len : s.dec.len.toNat = bytes.length
  account : bytesOut s ++ items = bytes
  cmdErr : s.cmdErr = .ok
  encPart : encPart s = encPart s₀

section
variable {bytes items rest : List Byte} {n : Nat} {s₀ s u : State}

/-- After the offer of a round DEC lacks no byte: while one is missing, one is left (R371). -/
theorem Decompressing.offered (h : Decompressing bytes n items s₀ s) (ho : ByteOffered items rest s u) :
    Decompressing bytes n rest s₀ u ∧ u.dec = s.dec ∧ ¬DecLacks u := by
  rcases ho with ⟨hnone, b, rfl, rfl⟩ | ⟨hno, rfl, rfl⟩
  · refine ⟨{ h with inv := decJobInv_keptByOps.decOffer s (some b) h.inv, account := ?_ }, rfl,
      fun ⟨_, hnone⟩ => nomatch hnone⟩
    rw [← h.account]
    simp [bytesOut, State.withByteOffer, hnone]
  · refine ⟨h, rfl, fun ⟨hwants, hnone⟩ => ?_⟩
    have hitems := hno.resolve_left (not_not.mpr hnone)
    have hlt := BitVec.lt_def.mp (decWantsByte_cases hwants).1
    have haccount := congrArg List.length h.account
    have hbytes := h.inv.1.1
    have hlen := h.len
    simp only [bytesOut, hnone, hitems, Option.toList_none, List.append_nil] at haccount
    omega

/-- A round of a running job keeps the account and brings the job nearer to its end. -/
theorem Decompressing.round (h : Decompressing bytes n items s₀ s) (hbusy : decBusy s.dec.state = true)
    (hlacks : ¬DecLacks s) :
    Decompressing bytes n items s₀ (decRound s) ∧ (decRound s).dec.state ≠ .idle ∧
      decLeft (decRound s).dec < decLeft s.dec := by
  have hpo : ¬s.dec.poValid = true := by simp [h.taken]
  obtain ⟨-, hwaits⟩ := decEnabled_of_served hbusy hpo hlacks
  obtain ⟨hcount, hlen⟩ := sameJob_decRound s
  refine ⟨{
      inv := decJobInv_keptByOps.decRound h.inv
      counters := decCounters_keptByOps.decRound h.counters
      taken := hostTakePixel_poValid _
      count := by rw [hcount, h.count]
      len := by rw [hlen, h.len]
      account := by rw [bytesOut_decRound, h.account]
      cmdErr := by rw [decRound_cmdErr, h.cmdErr]
      encPart := by rw [encPart_decRound, h.encPart] }, ?_, ?_⟩
  · rw [decRound_state]
    exact decTurn_state_ne_idle hbusy
  · rw [decLeft_decRound]
    exact decLeft_decTurn_lt h.counters hbusy hwaits

/-- A further status read changes nothing of it. -/
theorem Decompressing.afterRead (h : Decompressing bytes n items s₀ s) (sel : BitVec 4) :
    Decompressing bytes n items s₀ (s.afterRead sel) :=
  { h with inv := decJobInv_keptByOps.afterRead h.inv sel }

/-- A decode job that has ended has the result of RVL_Decode on the bytes DEC took (R280). -/
theorem DecJobInv.decodeResult_eq (h : DecJobInv s) (hs : s.dec.state = .done ∨ s.dec.state = .error) :
    s.host.decSent.length = s.dec.len.toNat ∧
      decodeResult s = some (rvlDecode s.host.decSent s.dec.count.toNat) := by
  obtain ⟨hinv, hneed⟩ := h
  obtain ⟨⟨hsent, -⟩, hended, hbytes, hpo, hstate⟩ := hinv.final hs
  have hall : s.host.decSent.length = s.dec.len.toNat := by rw [← hsent, hbytes]
  have hdelivered : decDelivered s = s.host.decGot := by simp [decDelivered, hpo]
  refine ⟨hall, ?_⟩
  rw [rvlDecode, hneed.decodeRun_of_ended hended hall, hdelivered]
  cases herr : s.dec.err with
  | none => exact decodeResult_of_done (by rw [hstate, if_pos herr])
  | some e => exact decodeResult_of_error (by rw [hstate, if_neg (by simp [herr])]) herr

/-- At the end DEC has taken all the bytes, and its result is that of RVL_Decode. -/
theorem Decompressing.result (h : Decompressing bytes n items s₀ s)
    (hs : s.dec.state = .done ∨ s.dec.state = .error) :
    s.host.decSent = bytes ∧ decodeResult s = some (rvlDecode bytes n) := by
  obtain ⟨hlength, hresult⟩ := h.inv.decodeResult_eq hs
  have hprefix : s.host.decSent <+: bytes := ⟨s.host.decOffer.toList ++ items, by
    rw [← List.append_assoc]
    exact h.account⟩
  have hsent := hprefix.eq_of_length (hlength.trans h.len)
  exact ⟨hsent, by rw [hresult, hsent, h.count]⟩

end

/-- What the rounds come to: the pixels the host took at a read of DONE, or D_ERR as read at ERROR. -/
def DecRoundsEnd (r : HostEnd (List Pixel)) (t : State) : Prop :=
  (t.dec.state = .done ∧ r = .finished t.host.decGot t) ∨
    (t.dec.state = .error ∧ r = .failed ((errCode t.dec.err).setWidth 36) t)

/-- With more rounds than steps left the job ends: by induction on the rounds. -/
theorem decompressRounds_end {bytes : List Byte} {n : Nat} {s₀ : State} : ∀ (k : Nat) (items : List Byte) (s : State),
    Decompressing bytes n items s₀ s → decBusy s.dec.state = true → decLeft s.dec < k →
    ∃ t rest, DecRoundsEnd (decompressRounds k items s) t ∧ Decompressing bytes n rest s₀ t ∧ t.agenda = []
  | 0, _, _, _, _, hk => absurd hk (Nat.not_lt_zero _)
  | k + 1, items, s, h, hbusy, hk => by
    obtain ⟨rest, u, hoffer, hrounds⟩ := decompressRounds_succ k items s
    obtain ⟨hu, hdec, hlacks⟩ := h.offered hoffer
    obtain ⟨ht, hidle, hlt⟩ := hu.round (by rw [hdec, hbusy]) hlacks
    rw [hdec] at hlt
    rw [hrounds, decRound_status]
    by_cases hdone : (decRound u).dec.state = .done
    · rw [if_pos (decStateCode_eq_done.mpr hdone)]
      exact ⟨decRound u, rest, .inl ⟨hdone, rfl⟩, ht, rfl⟩
    rw [if_neg fun hcode => hdone (decStateCode_eq_done.mp hcode)]
    by_cases herror : (decRound u).dec.state = .error
    · rw [if_pos (decStateCode_eq_error.mpr herror), afterRead_err]
      exact ⟨(decRound u).afterRead 6, rest, .inr ⟨herror, rfl⟩, ht.afterRead 6, rfl⟩
    · rw [if_neg fun hcode => herror (decStateCode_eq_error.mp hcode)]
      exact decompressRounds_end k rest (decRound u) ht (decBusy_eq_true hidle hdone herror) (by omega)

/-- The state after an accepted DEC_START. -/
def decJobStarted (count : Count) (len : Length) (s : State) : State :=
  { s with dec := decJobStart count len, cmdErr := .ok, host := { s.host with decSent := [], decGot := [] } }

theorem play_decStart {s : State} (hidle : decBusy s.dec.state = false) (count : Count) (len : Length) :
    play (sendItem (.decStart count len) ++ sendItem (.statusRead 0)) s =
      .next ((decJobStarted count len s).afterRead 0) := by
  rw [play_sendItem (moves := sendItem (.statusRead 0)) (u := decJobStarted count len s) rfl rfl
    (exec_decStart_of_not_busy (by exact hidle) count len), play_statusRead (by decide)]

theorem play_decStart_of_busy {s : State} (hbusy : decBusy s.dec.state = true) (count : Count) (len : Length) :
    play (sendItem (.decStart count len) ++ sendItem (.statusRead 0)) s =
      .next ((raiseCmd .busy s).afterRead 0) := by
  rw [play_sendItem (moves := sendItem (.statusRead 0)) (u := raiseCmd .busy s) rfl rfl
    (exec_decStart_of_busy (by exact hbusy) count len), play_statusRead (by decide)]

theorem decompressing_started {bytes : List Byte} {n : Nat} {s : State} (hlength : bytes.length < 2 ^ 34)
    (hn : n < 2 ^ 32) (ho : s.host.decOffer = none) :
    Decompressing bytes n bytes s
      ((decJobStarted (BitVec.ofNat 32 n) (BitVec.ofNat 34 bytes.length) s).afterRead 0) where
  inv := ⟨decInv_started rfl rfl rfl, decReadsInNeed_of_no_nibble rfl⟩
  counters := decCounters_start _ _
  taken := rfl
  count := by
    change (BitVec.ofNat 32 n).toNat = n
    rw [BitVec.toNat_ofNat, Nat.mod_eq_of_lt hn]
  len := by
    change (BitVec.ofNat 34 bytes.length).toNat = bytes.length
    rw [BitVec.toNat_ofNat, Nat.mod_eq_of_lt hlength]
  account := by
    change [] ++ s.host.decOffer.toList ++ bytes = bytes
    rw [ho]
    rfl
  cmdErr := rfl
  encPart := rfl

theorem decBusy_started (count : Count) (len : Length) : decBusy (decJobStart count len).state = true := by
  rcases decJobStart_state count len with h | h <;> rw [h] <;> rfl

/-- The steps of a job at its start: 8 for each byte's nibbles, 1 for the byte, 4 for each pixel (R281). -/
theorem decLeft_started (count : Count) (len : Length) :
    decLeft (decJobStart count len) ≤ 9 * len.toNat + 4 * count.toNat + 3 := by
  have hstate := decStateLeft_le (decJobStart count len).state
  rw [decLeft_eq]
  change 4 * (2 * len.toNat - 0) + 4 * (count.toNat - 0) + (len.toNat - 0) + _ ≤ _
  omega

/-- Where no job runs, the verdict is OK and the rounds follow (R323). -/
theorem decompress_of_not_busy {s : State} (hidle : decBusy s.dec.state = false) (bytes : List Byte) (n : Nat) :
    decompress bytes n s =
      decompressRounds (9 * bytes.length + 4 * n + 10) bytes
        ((decJobStarted (BitVec.ofNat 32 n) (BitVec.ofNat 34 bytes.length) s).afterRead 0) := by
  rw [decompress, play_decStart hidle]
  exact if_pos rfl

theorem decompress_of_busy {s : State} (hbusy : decBusy s.dec.state = true) (bytes : List Byte) (n : Nat) :
    decompress bytes n s = .rejected ((raiseCmd .busy s).afterRead 0) := by
  rw [decompress, play_decStart_of_busy hbusy]
  exact if_neg (status_after_busy s)

/-- Settles O52: an accepted start begins the rounds, with more of them than the job has steps left. -/
theorem decompressSequenceEnds : Obligations.DecompressSequenceEnds := by
  intro bytes n s hlength hn ho
  refine ⟨fun hs => ?_, fun hbusy => ?_⟩
  · have hstart := decompressing_started hlength hn ho
    have hleft := decLeft_started (BitVec.ofNat 32 n) (BitVec.ofNat 34 bytes.length)
    rw [show (BitVec.ofNat 32 n).toNat = n from hstart.count,
      show (BitVec.ofNat 34 bytes.length).toNat = bytes.length from hstart.len] at hleft
    obtain ⟨t, rest, hend, ht, hagenda⟩ :=
      decompressRounds_end (9 * bytes.length + 4 * n + 10) bytes _ hstart (decBusy_started _ _)
        (hleft.trans_lt (by omega))
    obtain ⟨hsent, hresult⟩ := ht.result (hend.imp And.left And.left)
    refine ⟨t, ?_, hresult, hsent, ht.cmdErr, hagenda, ht.encPart⟩
    rw [decompress_of_not_busy (decBusy_eq_false hs)]
    rcases hend with ⟨hdone, hrounds⟩ | ⟨herror, hrounds⟩
    · rw [decodeResult_of_done hdone] at hresult
      rw [← Option.some.inj hresult]
      exact hrounds
    · obtain ⟨e, he⟩ : ∃ e, t.dec.err = some e := by
        obtain ⟨-, -, herr, -⟩ := (decInv_error herror).mp ht.inv.1
        exact Option.ne_none_iff_exists'.mp herr
      rw [decodeResult_of_error herror he] at hresult
      rw [he] at hrounds
      rw [← Option.some.inj hresult]
      exact hrounds
  · exact ⟨_, decompress_of_busy hbusy bytes n, rfl, rfl, rfl⟩

end Sys2Proof.Machine
end
